-- ==== Sys2Proof/Word.lean ====
section
/-! DEFINITION. The words of LINKCORE-1: the command and register word, the real scalar of the number system
the machine runs on, and the complex scalar (00_scope.md R8, R10, R12). -/

namespace Sys2Proof

/-- A 32-bit word: a command word, or an integer register of type u32 (00_scope.md R8, XLEN = 32). -/
abbrev Word := BitVec 32

/-- A 64-bit word: the type u64 of the register SEED (10_state.md R31). -/
abbrev DWord := BitVec 64

/-- A real scalar of the machine's NUM, as its own bit pattern (20_memory.md R63). NUM is an open parameter of
the spec; the model runs on the instance the spec recommends, IEEE 754 binary64 (00_scope.md R8, R10;
DESIGN CHOICE, log 1). -/
abbrev Scalar := BitVec 64

/-- A complex scalar `(re, im)` over a carrier `R` (00_scope.md R12). -/
structure Cplx (R : Type) where
  re : R
  im : R
deriving DecidableEq, Repr

/-- One element of a SAMPLES buffer (10_state.md R23). -/
abbrev Sample := Cplx Scalar

end Sys2Proof
end

