-- ==== Sys2Proof/Config.lean ====
section
/-! DEFINITION. What an implementation fixes (00_scope.md R8): the two capacities, and the free values the spec
leaves open: the random source, and what binary64 leaves to its implementer. The constants without a body are
uninterpreted: nothing in Lean can prove a value of one. -/

namespace Sys2Proof

/-- BUFCAP, the largest length of a buffer: open. The model takes it as an argument (`Params.bufcap`), and this is
the default its instance `params` runs with (00_scope.md R8; DESIGN CHOICE, log 6). -/
def Config.bufcap : Nat := 1048576

/-- KCAP, the largest length of a kernel: open. The model takes it as an argument (`Params.kcap`), and this is the
default its instance `params` runs with (00_scope.md R8; DESIGN CHOICE, log 6). -/
def Config.kcap : Nat := 4097

/-- The state of the random source, the open type `RNG.S` of 10_state.md R38. Every countable type embeds in the
naturals, so this choice restricts no generator a machine can hold (log 5). -/
abbrev RngState := Nat

/-- `RNG.seed` (10_state.md R38): free (log 5). -/
opaque Config.rngSeed : DWord → RngState

/-- `RNG.bit` (10_state.md R38): free (log 5). -/
opaque Config.rngBit : RngState → Bool × RngState

/-- The bits of the value `RNG.gauss` draws, and the state after it (10_state.md R38): free (log 5). The draw
itself is this value made finite, `Machine.rng`. -/
opaque Config.rngGauss : RngState → Scalar × RngState

/-- The operations of NUM whose result can be a NaN whose bits the machine is free to choose. -/
inductive NumOp where
  | add | sub | mul | div | sqrt | sin | cos | pow10
deriving DecidableEq, Repr

/-- The bits of the NaN an operation answers on its operands: free (93 U2; log 3). The result is this value with
the bits that make it a quiet NaN set, `Machine.nanResult`. -/
opaque Config.nanBits : NumOp → Scalar → Scalar → Scalar

/-- Which of the two binary64 values around the exact one `sin`, `cos` or `pow10` answers at an operand, the one of
larger magnitude or the other: free (93 U24; log 4). -/
opaque Config.roundsUp : NumOp → Scalar → Bool

end Sys2Proof
end

