-- ==== Sys2Proof/Machine/Elementary.lean ====
section
/-! DEFINITION. Enclosures of `sin`, `cos` and `pow10` by integer arithmetic, for the machine's NUM (00_scope.md R10:
the mathematical functions). A magnitude is a natural counted in units of 2^-1200, in which every finite binary64
value is whole. Each function answers two bounds that the exact value lies between; they are so close that no
binary64 value but the two nearest is left (PRESUMED, log 4). -/

namespace Sys2Proof.Machine

/-- How many units make 1. -/
def fixedOne : Nat := 2 ^ 1200

/-- `pi / 2`, within 2^13 units: Machin's formula (`halfPi_eq`). -/
def halfPi : Nat :=
  0x1 * 2 ^ 1200 +
  0x921FB54442D18469898CC51701B839A252049C1114CF98E804177D4C76273644A29410F31C6809BBDF2A33679A7486366056 * 2 ^ 800 +
  0x14DBE4BE286E9FC26ADADAA3848BC90B6AECC4BCFD8DE89885D34C6FDAD617FEB96DE80D6FDBDC70D7F6B5133F4B5D3E4822 * 2 ^ 400 +
  0xF8963FCC9250CCA3D9C8B67B8400F97142C77E0B31B4906C38ABA734D22C7F51FA499EBF06CABA47B9475B2C38C5E6AC4112

/-- `log 10`, within 2^13 units: by the series of `log 2` and `log (5/4)` (`logTen_eq`). -/
def logTen : Nat :=
  0x2 * 2 ^ 1200 +
  0x4D763776AAA2B05BA95B58AE0B4C28A38A3FB3E76977E43A0F187A0807C0B5CA58BC0B5EC6A0417331C32F00B17C35A0B188 * 2 ^ 800 +
  0x9061042F8B6BEE3DE2100B945B59E0B3E28A2A324479D96A9B0EC360C7EFBD9B3AC12ACF1BE94586ED2748671EEF299ECD6C * 2 ^ 400 +
  0x8D8142163A4CDA3511E2713D6C22C15F57B7883D1A7A963A4C17A607891E3F2AB4EBBA627356D0B9A89C586691FB2C9A58FC

/-- `term - term*r^2/((n+1)*(n+2)) + ...`: the series of `sin r` from `n = 1` and `r`, and of `cos r` from `n = 0`
and 1, nested; for `r` up to a quarter turn. -/
def circularSeries (r : Nat) : Nat → Nat → Nat → Nat
  | 0, _, _ => 0
  | fuel + 1, n, term =>
    term - circularSeries r fuel (n + 2) (term * (r * r) / (fixedOne * fixedOne) / ((n + 1) * (n + 2)))

/-- `term + term*y/n + ...`: the series of `exp y` from `n = 1` and 1, for `y` below 3. -/
def expSeries (y : Nat) : Nat → Nat → Nat → Nat
  | 0, _, _ => 0
  | fuel + 1, n, term => term + expSeries y fuel (n + 1) (term * y / fixedOne / n)

/-- A sign, and two bounds of a magnitude. -/
structure Enclosure where
  negative : Bool
  low : Nat
  high : Nat
deriving DecidableEq, Repr

/-- What lies within `slack` of `approx` and not above `cap`. -/
def enclose (negative : Bool) (approx slack cap : Nat) : Enclosure :=
  { negative := negative, low := min (approx - slack) cap, high := min (approx + slack) cap }

/-- `sin (x + turns * pi/2)` of a magnitude `x`: `x` is reduced by whole quarter turns. Half pi is within 2^13 units,
so the slack covers one such error for each quarter turn taken off, and the series' own. A sine exceeds neither 1 nor
its argument. -/
def encloseSine (x turns : Nat) : Enclosure :=
  let quarter := x / halfPi + turns
  let r := x % halfPi
  enclose (decide (2 ≤ quarter % 4))
    (if quarter % 2 = 0 then circularSeries r 130 1 r else circularSeries r 130 0 fixedOne)
    ((x / halfPi + 1) * 2 ^ 14)
    (if turns = 0 then min x fixedOne else fixedOne)

/-- The nearest magnitude in [1, 10]. -/
def withinDecade (v : Nat) : Nat := min (max v fixedOne) (10 * fixedOne)

/-- `10^f` of a fraction `f` of 1, which lies in [1, 10]; exactly 1 at 0. -/
def encloseFraction (f : Nat) : Enclosure :=
  if f = 0 then { negative := false, low := fixedOne, high := fixedOne }
  else
    let approx := expSeries (f * logTen / fixedOne) 260 1 fixedOne
    { negative := false, low := withinDecade (approx - 2 ^ 16), high := withinDecade (approx + 2 ^ 16) }

end Sys2Proof.Machine
end

