-- ==== Sys2Proof/Machine/NumSystem.lean ====
section
/-! DEFINITION. NUM, the number system, as the record of 00_scope.md R10; its complex scalars (R12); its sums
(R17); the random source RNG as the record of 10_state.md R38; and the open parameters of R8 together. Everything the
machine does is written over any such records, so that binary64 and the reference reals are two cases of one text. -/

namespace Sys2Proof.Machine

/-- NUM: a carrier with the constants, operations and relations of 00_scope.md R10. -/
structure NumSystem (R : Type) where
  zero : R
  one : R
  pi : R
  ofNat : Nat → R
  add : R → R → R
  sub : R → R → R
  mul : R → R → R
  div : R → R → R
  neg : R → R
  abs : R → R
  sqrt : R → R
  sin : R → R
  cos : R → R
  pow10 : R → R
  lt : R → R → Bool
  eq : R → R → Bool

/-- RNG: a state type with seeding, bit draw and Gaussian draw (10_state.md R38). -/
structure RandomSource (S R : Type) where
  seed : DWord → S
  bit : S → Bool × S
  gauss : S → R × S

/-- The OPEN parameters of 00_scope.md R8, which the model takes as arguments: the two capacities, NUM with the test
of which elements of its carrier are finite reals (20_memory.md R68, R71), and RNG. Everything the machine does is
written over such a record; the machine the host runs is the case `params`. -/
structure Params (R S : Type) where
  /-- BUFCAP. -/
  bufcap : Nat
  /-- KCAP. -/
  kcap : Nat
  num : NumSystem R
  finite : R → Bool
  rng : RandomSource S R

variable {R : Type} (N : NumSystem R)

/-- `x <= y` of NUM, from its `lt` and `eq`. -/
def numLe (x y : R) : Bool := N.lt x y || N.eq x y

/-- `x^2` (00_scope.md R10 has no power, so it is the product). -/
def numSquare (x : R) : R := N.mul x x

/-- The sum of the values of `f` over a sequence, from 0 and in ascending order (00_scope.md R17). -/
def sumOf {A : Type} (f : A → R) (xs : List A) : R := xs.foldl (fun acc x => N.add acc (f x)) N.zero

/-- The complex zero `(0, 0)`. -/
def cplxZero : Cplx R := ⟨N.zero, N.zero⟩

/-- The complex form `(x, 0)` of a real sample (00_scope.md R12). -/
def cplxOfReal (x : R) : Cplx R := ⟨x, N.zero⟩

/-- `cadd` (00_scope.md R12). -/
def cplxAdd (x y : Cplx R) : Cplx R := ⟨N.add x.re y.re, N.add x.im y.im⟩

/-- `cscale` by a real (00_scope.md R12). -/
def cplxScale (r : R) (x : Cplx R) : Cplx R := ⟨N.mul r x.re, N.mul r x.im⟩

/-- `cabs`, the modulus (00_scope.md R12). -/
def cplxAbs (x : Cplx R) : R := N.sqrt (N.add (N.mul x.re x.re) (N.mul x.im x.im))

end Sys2Proof.Machine
end

