-- ==== Sys2Proof/Machine/Binary64.lean ====
section
/-! DEFINITION. The machine's NUM: IEEE 754 binary64 on 64-bit patterns, the instance 00_scope.md R8 and R10
recommend (DESIGN CHOICE, log 1). Each operation is computed exactly on integers and narrowed once, to the nearest
value and to the even one of two nearest (PRESUMED, log 2). A finite value is a sign and a magnitude counted in
units of 2^-1074. NaN bits are free, and so is which
of the two nearest values sin, cos and pow10 answer (log 3, log 4). -/

namespace Sys2Proof.Machine

/-- The sign bit of a pattern. -/
def signBit (x : Scalar) : Bool := x.msb

/-- The biased exponent of a pattern. -/
def expField (x : Scalar) : Nat := (x.extractLsb' 52 11).toNat

/-- The fraction of a pattern. -/
def fracField (x : Scalar) : Nat := (x.extractLsb' 0 52).toNat

def isNan (x : Scalar) : Bool := expField x == 2047 && fracField x != 0

def isInfinite (x : Scalar) : Bool := expField x == 2047 && fracField x == 0

/-- A pattern that stands for a real: neither an infinity nor a NaN (20_memory.md R68, R71). -/
def isFinite (x : Scalar) : Bool := expField x != 2047

/-- The magnitude of a value in units of 2^-1074; an infinity's is above every finite one's. -/
def magnitude (x : Scalar) : Nat :=
  if expField x = 0 then fracField x else (2 ^ 52 + fracField x) * 2 ^ (expField x - 1)

/-- The value, with its sign, in units of 2^-1074. -/
def signedUnits (x : Scalar) : Int := if signBit x then -(magnitude x : Int) else (magnitude x : Int)

/-- How many units make 1. -/
def unitsPerOne : Nat := 2 ^ 1074

/-- The pattern of an infinite magnitude. -/
def infinityBits : Nat := 2047 * 2 ^ 52

/-- The pattern with this sign and these 63 low bits. -/
def withSign (sign : Bool) (low : Nat) : Scalar := BitVec.ofNat 64 (if sign then 2 ^ 63 + low else low)

/-- The infinity of a sign. -/
def infinityOf (sign : Bool) : Scalar := withSign sign infinityBits

/-- The zero of a sign. -/
def zeroOf (sign : Bool) : Scalar := withSign sign 0

/-- The value of this sign nearest to `p / q` units, the even one of two nearest, an infinity past the largest
finite value. -/
def roundRatio (sign : Bool) (p q : Nat) : Scalar :=
  let shift := Nat.log2 (p / q) - 52
  let d := q * 2 ^ shift
  let m := p / d
  let r := p % d
  let rounded := if d < 2 * r ∨ (2 * r = d ∧ m % 2 = 1) then m + 1 else m
  withSign sign (min (shift * 2 ^ 52 + rounded) infinityBits)

/-- The bits every quiet NaN has at 1. -/
def quietNanBits : Scalar := 0x7FF8000000000000

/-- The NaN an operation answers: its sign and payload are free (93 U2; log 3). -/
def nanResult (op : NumOp) (x y : Scalar) : Scalar := Config.nanBits op x y ||| quietNanBits

/-- `abs`: the sign bit cleared. -/
def fAbs (x : Scalar) : Scalar := x &&& 0x7FFFFFFFFFFFFFFF

/-- `neg`: the sign bit flipped. -/
def fNeg (x : Scalar) : Scalar := x ^^^ 0x8000000000000000

/-- The sum, for `add` and `sub`. A zero sum of operands that are not both negative is +0. -/
def fSum (op : NumOp) (x y : Scalar) : Scalar :=
  if isNan x || isNan y then nanResult op x y
  else if isInfinite x then
    if isInfinite y && signBit x != signBit y then nanResult op x y else x
  else if isInfinite y then y
  else
    let v := signedUnits x + signedUnits y
    if v = 0 then zeroOf (signBit x && signBit y) else roundRatio (decide (v < 0)) v.natAbs 1

/-- `add`. -/
def fAdd (x y : Scalar) : Scalar := fSum .add x y

/-- `sub`: the sum with the second operand negated. -/
def fSub (x y : Scalar) : Scalar := fSum .sub x (fNeg y)

/-- `mul`. -/
def fMul (x y : Scalar) : Scalar :=
  let sign := signBit x != signBit y
  if isNan x || isNan y then nanResult .mul x y
  else if isInfinite x || isInfinite y then
    if magnitude x = 0 ∨ magnitude y = 0 then nanResult .mul x y else infinityOf sign
  else roundRatio sign (magnitude x * magnitude y) unitsPerOne

/-- `div`. -/
def fDiv (x y : Scalar) : Scalar :=
  let sign := signBit x != signBit y
  if isNan x || isNan y then nanResult .div x y
  else if isInfinite x then
    if isInfinite y then nanResult .div x y else infinityOf sign
  else if isInfinite y then zeroOf sign
  else if magnitude y = 0 then
    if magnitude x = 0 then nanResult .div x y else infinityOf sign
  else roundRatio sign (magnitude x * unitsPerOne) (magnitude y)

/-- Newton's steps towards the integer square root of `n` from a guess not below it; they end when the guess no longer
falls, or with the fuel. -/
def sqrtSteps (n : Nat) : Nat → Nat → Nat
  | 0, guess => guess
  | fuel + 1, guess =>
    let next := (guess + n / guess) / 2
    if next < guess then sqrtSteps n fuel next else guess

/-- The integer square root, rounded down (`intSqrt_spec`). -/
def intSqrt (n : Nat) : Nat := sqrtSteps n (Nat.log2 n / 2 + 3) (2 ^ (Nat.log2 n / 2 + 1))

/-- `sqrt`. The root in units is that of `magnitude * unitsPerOne`; half a unit stands for the part cut off, which
lies below the last place kept. -/
def fSqrt (x : Scalar) : Scalar :=
  if isNan x then nanResult .sqrt x x
  else if magnitude x = 0 then x
  else if signBit x then nanResult .sqrt x x
  else if isInfinite x then x
  else
    let n := magnitude x * unitsPerOne
    let root := intSqrt n
    roundRatio false (if root * root = n then 2 * root else 2 * root + 1) 2

/-- `ofNat`. -/
def fOfNat (n : Nat) : Scalar := roundRatio false (n * unitsPerOne) 1

/-- `lt`: false of a NaN. -/
def fLt (x y : Scalar) : Bool := !isNan x && !isNan y && decide (signedUnits x < signedUnits y)

/-- `eq`: false of a NaN, and true of the two zeros (log 11). -/
def fEq (x y : Scalar) : Bool := !isNan x && !isNan y && decide (signedUnits x = signedUnits y)

/-- A finite pattern from any pattern; a finite one is left as it is. -/
def finiteOf (x : Scalar) : Scalar := if isFinite x then x else x &&& 0xFFEFFFFFFFFFFFFF

/-- The 63 low bits of the largest binary64 magnitude not above `p / q` units, an infinity past the largest finite
one. -/
def floorLow (p q : Nat) : Nat :=
  let shift := Nat.log2 (p / q) - 52
  min (shift * 2 ^ 52 + p / (q * 2 ^ shift)) infinityBits

/-- The 63 low bits of the least binary64 magnitude not below `p / q` units. Patterns of magnitudes that follow each
other are numbers that follow each other. -/
def ceilLow (p q : Nat) : Nat :=
  let shift := Nat.log2 (p / q) - 52
  min (shift * 2 ^ 52 + (p + (q * 2 ^ shift - 1)) / (q * 2 ^ shift)) infinityBits

/-- How many units of 2^-1200 make a unit of 2^-1074. -/
def fixedPerUnit : Nat := 2 ^ 126

/-- The two binary64 values around a sine or a cosine, the one nearer to 0 first. -/
def sineBounds (sign : Bool) (e : Enclosure) : Scalar × Scalar :=
  (withSign (sign != e.negative) (floorLow e.low fixedPerUnit),
   withSign (sign != e.negative) (ceilLow e.high fixedPerUnit))

/-- The two binary64 values around `sin x`; 0 at 0 (40_filter_design.md R127). -/
def sinBounds (x : Scalar) : Scalar × Scalar :=
  if magnitude x = 0 then (x, x) else sineBounds (signBit x) (encloseSine (magnitude x * fixedPerUnit) 0)

/-- The two binary64 values around `cos x`; 1 at 0 (43_carrier_mixer.md R163). -/
def cosBounds (x : Scalar) : Scalar × Scalar :=
  if magnitude x = 0 then (0x3FF0000000000000, 0x3FF0000000000000)
  else sineBounds false (encloseSine (magnitude x * fixedPerUnit) 1)

/-- The two binary64 values around `10^n * 10^f`, or around its reciprocal, from an enclosure of `10^f`. -/
def powerBounds (reciprocal : Bool) (n : Nat) (e : Enclosure) : Scalar × Scalar :=
  if reciprocal then
    (withSign false (floorLow (fixedOne * unitsPerOne) (e.high * 10 ^ n)),
     withSign false (ceilLow (fixedOne * unitsPerOne) (e.low * 10 ^ n)))
  else
    (withSign false (floorLow (e.low * 10 ^ n * unitsPerOne) fixedOne),
     withSign false (ceilLow (e.high * 10 ^ n * unitsPerOne) fixedOne))

/-- The two binary64 values around `10^x`, one value where `10^x` is one, so 1 at 0 (44_channel_noise.md R174). Past
400 they are infinities; below -400 they are 0 and the least positive value (93 U4). -/
def pow10Bounds (x : Scalar) : Scalar × Scalar :=
  let m := min (magnitude x * fixedPerUnit) (400 * fixedOne)
  powerBounds (signBit x) (m / fixedOne) (encloseFraction (m % fixedOne))

/-- The rounded value of an elementary function: one of the two binary64 values around the exact one, and, where they
are two, which of them is free (log 4). -/
def eitherOf (op : NumOp) (x : Scalar) (bounds : Scalar × Scalar) : Scalar :=
  if bounds.1 = bounds.2 then bounds.1 else if Config.roundsUp op x then bounds.2 else bounds.1

/-- `sin`. -/
def fSin (x : Scalar) : Scalar := if isFinite x then eitherOf .sin x (sinBounds x) else nanResult .sin x x

/-- `cos`. -/
def fCos (x : Scalar) : Scalar := if isFinite x then eitherOf .cos x (cosBounds x) else nanResult .cos x x

/-- `pow10`. -/
def fPow10 (x : Scalar) : Scalar :=
  if isFinite x then eitherOf .pow10 x (pow10Bounds x)
  else if isNan x then nanResult .pow10 x x
  else if signBit x then 0 else x

/-- The machine's NUM (00_scope.md R8, R10). `pi` is the binary64 value nearest to it. -/
def num : NumSystem Scalar where
  zero := 0
  one := 0x3FF0000000000000
  pi := 0x400921FB54442D18
  ofNat := fOfNat
  add := fAdd
  sub := fSub
  mul := fMul
  div := fDiv
  neg := fNeg
  abs := fAbs
  sqrt := fSqrt
  sin := fSin
  cos := fCos
  pow10 := fPow10
  lt := fLt
  eq := fEq

/-- The machine's random source: free, but that a Gaussian draw is a finite real (10_state.md R38; log 5). -/
def rng : RandomSource RngState Scalar where
  seed := Config.rngSeed
  bit := Config.rngBit
  gauss := fun st => (finiteOf (Config.rngGauss st).1, (Config.rngGauss st).2)

/-- The machine's own parameters: the default capacities, binary64 and the free random source (00_scope.md R8; log 1,
log 5, log 6). -/
def params : Params Scalar RngState where
  bufcap := Config.bufcap
  kcap := Config.kcap
  num := num
  finite := isFinite
  rng := rng

end Sys2Proof.Machine
end

