-- ==== Sys2Proof/Syntax.lean ====
section
/-! DEFINITION. The ten commands of LINKCORE-1 as syntax (30_encoding.md R92, R94), their operands, the two
reasons a word is no command (R100), the pseudo-instructions (R103) and the assembler's way of writing a command
(R102). -/

namespace Sys2Proof

/-- A buffer number: `B0` to `B15` (30_encoding.md R98; 10_state.md R22). -/
abbrev BufNo := Fin 16

/-- A kernel store number: `K0` or `K1` (30_encoding.md R97; 10_state.md R42). -/
abbrev KerNo := Fin 2

/-- The four values of the `code` field (30_encoding.md R96): two line codes, and two unknown codes that decode
and that ENC and DEC turn down. -/
inductive LineCode where
  | nrz | manchester | code2 | code3
deriving DecidableEq, Repr

/-- The commands of 30_encoding.md R94, one constructor per row of the opcode table, destination first. -/
inductive Instr where
  | kgen (k : KerNo)
  | genb (d : BufNo)
  | enc (d a : BufNo) (code : LineCode)
  | shape (d a : BufNo) (k : KerNo)
  | mix (d a : BufNo)
  | awgn (d a : BufNo)
  | mf (d a : BufNo) (k : KerNo)
  | trec (d a : BufNo)
  | dec (d a : BufNo) (code : LineCode)
  | ber (a b : BufNo)
deriving DecidableEq, Repr

/-- Why a word is no command (30_encoding.md R93, R95, R100). -/
inductive DecodeError where
  /-- A reserved opcode (R95). -/
  | opcode
  /-- A legal opcode with a must-be-zero bit at 1 (R93). -/
  | field
deriving DecidableEq, Repr

/-- The pseudo-instruction `MOD Bd, Ba`: the same command as MIX (30_encoding.md R103). -/
def Instr.mod (d a : BufNo) : Instr := .mix d a

/-- The pseudo-instruction `DEMOD Bd, Ba`: the same command as MIX (30_encoding.md R103). -/
def Instr.demod (d a : BufNo) : Instr := .mix d a

/-- The assembler's name of a buffer (30_encoding.md R102). -/
def BufNo.name (n : BufNo) : String := "B" ++ toString n.val

/-- The assembler's name of a kernel store (30_encoding.md R102). -/
def KerNo.name (k : KerNo) : String := "K" ++ toString k.val

/-- The assembler's name of a line code (30_encoding.md R102). -/
def LineCode.name : LineCode → String
  | .nrz => "NRZ"
  | .manchester => "MANCHESTER"
  | .code2 => "CODE2"
  | .code3 => "CODE3"

/-- A command as the assembler writes it, destination first (30_encoding.md R102). -/
def Instr.assembly : Instr → String
  | .kgen k => "KGEN " ++ k.name
  | .genb d => "GENB " ++ d.name
  | .enc d a code => "ENC " ++ d.name ++ ", " ++ a.name ++ ", " ++ code.name
  | .shape d a k => "SHAPE " ++ d.name ++ ", " ++ a.name ++ ", " ++ k.name
  | .mix d a => "MIX " ++ d.name ++ ", " ++ a.name
  | .awgn d a => "AWGN " ++ d.name ++ ", " ++ a.name
  | .mf d a k => "MF " ++ d.name ++ ", " ++ a.name ++ ", " ++ k.name
  | .trec d a => "TREC " ++ d.name ++ ", " ++ a.name
  | .dec d a code => "DEC " ++ d.name ++ ", " ++ a.name ++ ", " ++ code.name
  | .ber a b => "BER " ++ a.name ++ ", " ++ b.name

end Sys2Proof
end

