-- ==== Sys2Proof/WellFormed.lean ====
section
/-! DEFINITION. Which words are well-formed commands, by format (30_encoding.md R91, R92, R93, R95). The operand
types of `Instr` hold exactly the values the fields can hold and every one of them is a legal encoding (R96, R97,
R98), so an `Instr` has nothing to check: the checks are those of the word. -/

namespace Sys2Proof

/-- The six formats of 30_encoding.md R92. -/
inductive Format where
  | K | G | U | C | F | B
deriving DecidableEq, Repr

/-- The format of each opcode; none for a reserved opcode (30_encoding.md R92, R94, R95). -/
def formatOf (opc : Nat) : Option Format :=
  match opc with
  | 0x1 => some .K
  | 0x2 => some .G
  | 0x3 => some .C
  | 0x4 => some .F
  | 0x5 => some .U
  | 0x6 => some .U
  | 0x7 => some .F
  | 0x8 => some .U
  | 0x9 => some .C
  | 0xA => some .B
  | _ => none

/-- Which formats use the field `d` (30_encoding.md R92). -/
def Format.usesD : Format → Bool
  | .G | .U | .C | .F => true
  | .K | .B => false

/-- Which formats use the field `a` (30_encoding.md R92). -/
def Format.usesA : Format → Bool
  | .U | .C | .F | .B => true
  | .K | .G => false

/-- Which formats use the field `b` (30_encoding.md R92). -/
def Format.usesB : Format → Bool
  | .B => true
  | .K | .G | .U | .C | .F => false

/-- Which formats use the field `code` (30_encoding.md R92). -/
def Format.usesCode : Format → Bool
  | .C => true
  | .K | .G | .U | .F | .B => false

/-- Which formats use the field `k` (30_encoding.md R92). -/
def Format.usesK : Format → Bool
  | .K | .F => true
  | .G | .U | .C | .B => false

/-- Bits 12:0 and every field the format does not use are 0 (30_encoding.md R93). -/
def mustBeZeroHolds (f : Format) (w : Word) : Bool :=
  w.extractLsb' 0 13 == 0 &&
  (f.usesD || w.extractLsb' 24 4 == 0) &&
  (f.usesA || w.extractLsb' 20 4 == 0) &&
  (f.usesB || w.extractLsb' 16 4 == 0) &&
  (f.usesCode || w.extractLsb' 14 2 == 0) &&
  (f.usesK || w.extractLsb' 13 1 == 0)

/-- A word is a command when its opcode is not reserved and its must-be-zero bits are 0
(30_encoding.md R93, R95). -/
def wellFormedWord (w : Word) : Bool :=
  match formatOf (w.extractLsb' 28 4).toNat with
  | none => false
  | some f => mustBeZeroHolds f w

/-- Every term of `Instr` is well-formed: each operand type holds exactly the legal values of its field
(30_encoding.md R96, R97, R98). Requirements on kinds, aliases and codes are run-time checks of the command. -/
def Instr.wellFormed : Instr → Bool
  | .kgen _ | .genb _ | .enc _ _ _ | .shape _ _ _ | .mix _ _ | .awgn _ _ | .mf _ _ _ | .trec _ _ | .dec _ _ _
  | .ber _ _ => true

end Sys2Proof
end

