-- ==== Sys2Proof/Decode.lean ====
section
/-! DEFINITION. The decoder of 30_encoding.md R100, total on 32-bit words and rejecting by name, by the match and
mask columns of R94; and the encoder, by the field layout of R91. -/

namespace Sys2Proof

/-- `opc = w[31:28]` (30_encoding.md R91). -/
def opcField (w : Word) : BitVec 4 := w.extractLsb' 28 4

/-- `d = w[27:24]` (30_encoding.md R91). -/
def dField (w : Word) : BufNo := (w.extractLsb' 24 4).toFin

/-- `a = w[23:20]` (30_encoding.md R91). -/
def aField (w : Word) : BufNo := (w.extractLsb' 20 4).toFin

/-- `b = w[19:16]` (30_encoding.md R91). -/
def bField (w : Word) : BufNo := (w.extractLsb' 16 4).toFin

/-- The line code of a `code` field (30_encoding.md R96). -/
def lineCodeOfField (f : BitVec 2) : LineCode :=
  if f = 0 then .nrz else if f = 1 then .manchester else if f = 2 then .code2 else .code3

/-- `code = w[15:14]` (30_encoding.md R91, R96). -/
def codeField (w : Word) : LineCode := lineCodeOfField (w.extractLsb' 14 2)

/-- `k = w[13]` (30_encoding.md R91). -/
def kField (w : Word) : KerNo := (w.extractLsb' 13 1).toFin

/-- One row of the opcode map of 30_encoding.md R94. -/
structure OpRow where
  opc : BitVec 4
  mnemonic : String
  matchBits : Word
  mask : Word
  build : Word → Instr

/-- The ten rows of 30_encoding.md R94. -/
def opcodeTable : List OpRow :=
  [ { opc := 0x1, mnemonic := "KGEN", matchBits := 0x10000000, mask := 0xFFFFDFFF, build := fun w => .kgen (kField w) },
    { opc := 0x2, mnemonic := "GENB", matchBits := 0x20000000, mask := 0xF0FFFFFF, build := fun w => .genb (dField w) },
    { opc := 0x3, mnemonic := "ENC", matchBits := 0x30000000, mask := 0xF00F3FFF,
      build := fun w => .enc (dField w) (aField w) (codeField w) },
    { opc := 0x4, mnemonic := "SHAPE", matchBits := 0x40000000, mask := 0xF00FDFFF,
      build := fun w => .shape (dField w) (aField w) (kField w) },
    { opc := 0x5, mnemonic := "MIX", matchBits := 0x50000000, mask := 0xF00FFFFF,
      build := fun w => .mix (dField w) (aField w) },
    { opc := 0x6, mnemonic := "AWGN", matchBits := 0x60000000, mask := 0xF00FFFFF,
      build := fun w => .awgn (dField w) (aField w) },
    { opc := 0x7, mnemonic := "MF", matchBits := 0x70000000, mask := 0xF00FDFFF,
      build := fun w => .mf (dField w) (aField w) (kField w) },
    { opc := 0x8, mnemonic := "TREC", matchBits := 0x80000000, mask := 0xF00FFFFF,
      build := fun w => .trec (dField w) (aField w) },
    { opc := 0x9, mnemonic := "DEC", matchBits := 0x90000000, mask := 0xF00F3FFF,
      build := fun w => .dec (dField w) (aField w) (codeField w) },
    { opc := 0xA, mnemonic := "BER", matchBits := 0xA0000000, mask := 0xFF00FFFF,
      build := fun w => .ber (aField w) (bField w) } ]

/-- A word is an instance of a row when `(w AND mask) = match` (30_encoding.md R94). -/
def OpRow.admits (r : OpRow) (w : Word) : Bool := w &&& r.mask == r.matchBits

/-- The row of an opcode; none for a reserved opcode (30_encoding.md R95, R100). -/
def rowOf (opc : BitVec 4) : Option OpRow := opcodeTable.find? (fun r => r.opc == opc)

/-- The decoder: total, and by name what it turns down (30_encoding.md R100). -/
def decode (w : Word) : Except DecodeError Instr :=
  match rowOf (opcField w) with
  | none => .error .opcode
  | some r => if r.admits w then .ok (r.build w) else .error .field

/-- The `code` field of a line code (30_encoding.md R96). -/
def LineCode.field : LineCode → BitVec 2
  | .nrz => 0
  | .manchester => 1
  | .code2 => 2
  | .code3 => 3

/-- The word with the given fields, and 0 in bits 12:0 (30_encoding.md R91). -/
def assemble (opc d a b : BitVec 4) (code : BitVec 2) (k : BitVec 1) : Word :=
  opc ++ d ++ a ++ b ++ code ++ k ++ (0 : BitVec 13)

/-- The field value of a buffer number (30_encoding.md R91, R98). -/
def BufNo.field (n : BufNo) : BitVec 4 := BitVec.ofFin n

/-- The field value of a kernel store number (30_encoding.md R91, R97). -/
def KerNo.field (k : KerNo) : BitVec 1 := BitVec.ofFin k

/-- The encoder: each command's fields, and 0 in every field its format does not use
(30_encoding.md R91 to R94). -/
def encode : Instr → Word
  | .kgen k => assemble 0x1 0 0 0 0 k.field
  | .genb d => assemble 0x2 d.field 0 0 0 0
  | .enc d a code => assemble 0x3 d.field a.field 0 code.field 0
  | .shape d a k => assemble 0x4 d.field a.field 0 0 k.field
  | .mix d a => assemble 0x5 d.field a.field 0 0 0
  | .awgn d a => assemble 0x6 d.field a.field 0 0 0
  | .mf d a k => assemble 0x7 d.field a.field 0 0 k.field
  | .trec d a => assemble 0x8 d.field a.field 0 0 0
  | .dec d a code => assemble 0x9 d.field a.field 0 code.field 0
  | .ber a b => assemble 0xA 0 a.field b.field 0 0

/-- The command a decoder reads, if any. -/
def decoded (w : Word) : Option Instr :=
  match decode w with
  | .ok i => some i
  | .error _ => none

/-- The command word whose low `nbits` bits are `w`'s and whose other bits are 0. A command is one whole 32-bit
word with no byte order of its own (30_encoding.md R90). -/
def tableWord (nbits w : Nat) : Word := BitVec.ofNat 32 (w % 2 ^ nbits)

/-- What the decoder reads from an instruction's bits numbered as the opcode table numbers them
(30_encoding.md R90, R91). -/
def decodeTableWord (nbits w : Nat) : Option Instr := decoded (tableWord nbits w)

end Sys2Proof
end

