-- ==== Sys2Proof/Machine/State.lean ====
section
/-! DEFINITION. The architectural state of LINKCORE-1 (10_state.md R20 to R48), the host's transactions and their
answers (20_memory.md R66 to R75), and the state after RESET (R48; 70_reset_and_hazards.md R280). -/

namespace Sys2Proof.Machine

/-- `STATUS.STATE` (10_state.md R21, R36). -/
inductive SeqState where
  | idle | busy | faulted
deriving DecidableEq, Repr

/-- The three kinds of error a command can end with (60_exceptions.md R240). -/
inductive ErrKind where
  | invalidArgument | insufficientData | illegalCommand
deriving DecidableEq, Repr

/-- The sub-causes of 60_exceptions.md R241. -/
inductive SubCause where
  /-- `code` field 2 or 3 in ENC or DEC. -/
  | code
  /-- A source buffer is EMPTY or of the wrong kind. -/
  | kind
  /-- The destination buffer is the source buffer. -/
  | aliasing
  /-- `SPS = 0`. -/
  | paramSps
  /-- `SPAN = 0`. -/
  | paramSpan
  /-- `BETA` not in (0, 1]. -/
  | paramBeta
  /-- `SPAN * SPS` odd. -/
  | paramParity
  /-- The named kernel store is not valid. -/
  | kernel
  /-- The result would be longer than BUFCAP, or the kernel longer than KCAP. -/
  | capacity
  /-- TREC source shorter than `10 * SPS`. -/
  | short
  /-- Reserved opcode. -/
  | opcode
  /-- A must-be-zero bit is 1. -/
  | field
deriving DecidableEq, Repr

/-! The types below are over the carrier `R` of NUM and, for the state, the state type `S` of the random source: the
open parameters of 00_scope.md R8. A name alone, as `State`, is the type at the machine's own parameters, binary64 and
its random source (log 1, log 5). -/

/-- A buffer: EMPTY, or BITS or SAMPLES with its elements. Kind 3 is excluded by the type, and `len` is the length
of the sequence (10_state.md R22, R23; 93 U19). -/
inductive Buffer (R : Type := Scalar) where
  | empty
  | bits (seq : List Bool)
  | samples (seq : List (Cplx R))
deriving DecidableEq, Repr

/-- A kernel store; its `len` is the length of `h` (10_state.md R42). -/
structure KernelStore (R : Type := Scalar) where
  valid : Bool
  sps : Word
  span : Word
  beta : R
  h : List R
deriving DecidableEq, Repr

/-- The store of a reset machine (10_state.md R44, R48). -/
def KernelStore.invalid {R : Type} (zero : R) : KernelStore R :=
  { valid := false, sps := 0, span := 0, beta := zero, h := [] }

/-- The value of a register as REGRD gives it, typed as its row of 10_state.md R27 says. -/
inductive RegValue (R : Type := Scalar) where
  | u32 (v : Word)
  | u64 (v : DWord)
  | real (v : R)
deriving DecidableEq, Repr

/-- A value the host can offer to REGWR: any integer, or any element of NUM's carrier as a real. Which of them a
register takes is the check of 20_memory.md R68. -/
inductive HostValue (R : Type := Scalar) where
  | int (v : Int)
  | real (v : R)
deriving DecidableEq, Repr

/-- What the host can offer to BUFLD: a kind, BITS or SAMPLES, and a sequence (20_memory.md R66, R70, R71). Which
sequences are taken is the check of R70 and R71. -/
inductive LoadData (R : Type := Scalar) where
  | bits (seq : List Int)
  | samples (seq : List (Cplx R))
deriving DecidableEq, Repr

/-- The seven transactions of 20_memory.md R66. -/
inductive Transaction (R : Type := Scalar) where
  | regrd (n : BitVec 8)
  | regwr (n : BitVec 8) (v : HostValue R)
  | bufld (n : BufNo) (data : LoadData R)
  | bufrd (n : BufNo)
  | kerrd (k : KerNo)
  | cmd (w : Word)
  | reset
deriving DecidableEq, Repr

/-- The answers to a CMD transaction (20_memory.md R74). -/
inductive CmdResponse where
  | ok
  | error (k : ErrKind)
  | rejected
deriving DecidableEq, Repr

/-- The answers to a transaction (20_memory.md R67 to R74). -/
inductive Response (R : Type := Scalar) where
  /-- REGRD of a register (R67). -/
  | value (v : RegValue R)
  /-- BUFRD: the buffer's kind, length and sequence (R72). -/
  | buffer (b : Buffer R)
  /-- KERRD: valid, sps, span, beta and the coefficients (R73). -/
  | kernel (k : KernelStore R)
  /-- REGWR or BUFLD done (R68, R70, R71). -/
  | ok
  /-- The transaction changed nothing (R66). -/
  | refused
  /-- CMD (R74). -/
  | command (r : CmdResponse)
deriving DecidableEq, Repr

/-- The whole state. Every field but the last two is the spec's; BnKIND, BnLEN, KkVALID to KkBETA and STATUS are
read off them, and PHASE is hardwired (10_state.md R27, R35, R36, R43, R45). -/
structure State (R : Type := Scalar) (S : Type := RngState) where
  /-- `STATUS.STATE` (R21, R36). -/
  seqState : SeqState
  /-- `STATUS.DEGEN` (R36). -/
  degen : Bool
  /-- `STATUS.AMBIG` (R36). -/
  ambig : Bool
  /-- `ERR` (R37). -/
  err : Word
  /-- `ERRINFO` (R37). -/
  errInfo : Word
  /-- `ERRSEQ` (R37). -/
  errSeq : Word
  /-- `ERRCMD` (R37). -/
  errCmd : Word
  /-- `SEQ`, the command counter (R26). -/
  seq : Word
  /-- `SPS` (R28). -/
  sps : Word
  /-- `SPAN` (R29). -/
  span : Word
  /-- `NBITS` (R30). -/
  nbits : Word
  /-- `SEED` (R31). -/
  seed : DWord
  /-- `BETA` (R32). -/
  beta : R
  /-- `FC` (R33). -/
  fc : R
  /-- `SNR_DB` (R34). -/
  snrDb : R
  /-- `OFFSET` (R39). -/
  offset : Word
  /-- `BITERRS` (R40). -/
  bitErrs : Word
  /-- `CMPLEN` (R40). -/
  cmpLen : Word
  /-- `BERVAL` (R40). -/
  berVal : R
  /-- `AMBIGCNT` (R41). -/
  ambigCnt : Word
  /-- The buffer file `B0` to `B15` (R22). -/
  buffers : Vector (Buffer R) 16
  /-- The kernel stores `K0`, `K1` (R42). -/
  kernels : Vector (KernelStore R) 2
  /-- `RNGSTATE` (R38). -/
  rngState : S
  /-- The model's own: the transactions the host has still to make, oldest first (20_memory.md R61, R66; log 8). -/
  pending : List (Transaction R)
  /-- The model's own: the answer to the last transaction, none before the first and after RESET
  (20_memory.md R66; log 8). -/
  response : Option (Response R)
deriving DecidableEq, Repr

/-- Reasons the machine stops with a fault: none. Every error of 60_exceptions.md R240 is taken inside the machine
(R246) and is a next state, and every command ends (70_reset_and_hazards.md R303), so nothing raises one. Safe:
no step ends here. -/
inductive Fault where
deriving DecidableEq, Repr

/-- Reasons a step is refused. -/
inductive Refusal where
  /-- Raised by `exec`'s arm of an instruction that has no meaning yet; no arm raises it. Safe. -/
  | notModelled (mnemonic : String)
  /-- Raised by `step` for a transaction other than RESET while `STATUS.STATE` is BUSY: the host has no move there
  (20_memory.md R62; 93 U1). No step reaches BUSY (log 7). Safe. -/
  | hostMoveWhileBusy
deriving DecidableEq, Repr

/-- The state after RESET over a NUM with this zero and a random source seeded with 0 to this state
(10_state.md R48; 70_reset_and_hazards.md R280), with no transaction pending. -/
def resetWith {R S : Type} (zero : R) (seeded : S) : State R S :=
  { seqState := .idle, degen := false, ambig := false,
    err := 0, errInfo := 0, errSeq := 0, errCmd := 0, seq := 0,
    sps := 0, span := 0, nbits := 0, seed := 0, beta := zero, fc := zero, snrDb := zero,
    offset := 0, bitErrs := 0, cmpLen := 0, berVal := zero, ambigCnt := 0,
    buffers := Vector.replicate 16 .empty,
    kernels := Vector.replicate 2 (KernelStore.invalid zero),
    rngState := seeded,
    pending := [], response := none }

/-- The machine's state after RESET (10_state.md R48; 70_reset_and_hazards.md R280). -/
def State.reset : State := resetWith 0 (Config.rngSeed 0)

end Sys2Proof.Machine
end

