-- ==== Sys2Proof/Machine/Flags.lean ====
section
/-! DEFINITION. The numeric codes of the frame (60_exceptions.md R240, R241; 20_memory.md R74; 10_state.md R22, R36),
the register STATUS, and the two flags DEGEN and AMBIG. -/

namespace Sys2Proof.Machine

/-- The code of an error kind, in `ERR` and in the CMD response (60_exceptions.md R240). -/
def errCode : ErrKind → Word
  | .invalidArgument => 1
  | .insufficientData => 2
  | .illegalCommand => 3

/-- The code of a sub-cause, in `ERRINFO` (60_exceptions.md R241). -/
def subCode : SubCause → Word
  | .code => 1
  | .kind => 2
  | .aliasing => 3
  | .paramSps => 4
  | .paramSpan => 5
  | .paramBeta => 6
  | .paramParity => 7
  | .kernel => 8
  | .capacity => 9
  | .short => 10
  | .opcode => 11
  | .field => 12

/-- The kind a sub-cause is filed under (60_exceptions.md R241). -/
def subKind : SubCause → ErrKind
  | .code | .kind | .aliasing | .paramSps | .paramSpan | .paramBeta | .paramParity | .kernel | .capacity =>
    .invalidArgument
  | .short => .insufficientData
  | .opcode | .field => .illegalCommand

/-- The sub-cause of a word that is no command (60_exceptions.md R241, R244). -/
def illegalSub : DecodeError → SubCause
  | .opcode => .opcode
  | .field => .field

/-- The numeric response code of a CMD transaction (20_memory.md R74). -/
def responseCode : CmdResponse → Word
  | .ok => 0
  | .error k => errCode k
  | .rejected => 7

/-- The value of `STATUS.STATE` (10_state.md R21, R36). -/
def stateCode : SeqState → BitVec 2
  | .idle => 0
  | .busy => 1
  | .faulted => 2

/-- `STATUS`: STATE in bits 1:0, DEGEN in bit 2, AMBIG in bit 3, 0 above (10_state.md R36). -/
def statusWord (st : SeqState) (degen ambig : Bool) : Word :=
  (0 : BitVec 28) ++ BitVec.ofBool ambig ++ BitVec.ofBool degen ++ stateCode st

/-- The code of a buffer's kind, in `BnKIND` (10_state.md R22, R27). -/
def kindCode {R : Type} : Buffer R → Word
  | .empty => 0
  | .bits _ => 1
  | .samples _ => 2

/-- `STATUS.DEGEN` after a BER that compared `m` positions (48_source_and_ber.md R224). -/
def degenFlag (m : Nat) : Bool := m == 0

/-- `STATUS.AMBIG` after a DEC that met `amb` ambiguous pairs (47_bit_decision.md R206, R207). -/
def ambigFlag (amb : Nat) : Bool := amb != 0

end Sys2Proof.Machine
end

