-- ==== Sys2Proof/Machine/Ops.lean ====
section
/-! DEFINITION. The named operations over the state: reading and replacing a buffer or a kernel store
(00_scope.md R15), fault entry and the return from a fault (60_exceptions.md R246, R251), and the life of a
command (R244). -/

namespace Sys2Proof.Machine

variable {R S : Type}

/-- `B[n]` (00_scope.md R15). -/
def buf (s : State R S) (n : BufNo) : Buffer R := s.buffers[n]

/-- `B[n] <- b`: kind, length and every element at once (00_scope.md R15). -/
def setBuf (s : State R S) (n : BufNo) (b : Buffer R) : State R S := { s with buffers := s.buffers.set n b }

/-- `K[k]` (00_scope.md R15). -/
def kernel (s : State R S) (k : KerNo) : KernelStore R := s.kernels[k]

/-- `K[k] <- h`, all fields at once (10_state.md R44). -/
def setKernel (s : State R S) (k : KerNo) (h : KernelStore R) : State R S := { s with kernels := s.kernels.set k h }

/-- The length of a buffer's sequence (10_state.md R22). -/
def bufLen : Buffer R → Nat
  | .empty => 0
  | .bits xs => xs.length
  | .samples xs => xs.length

/-- `raise`, the fault entry of 60_exceptions.md R246, for the command word `w`: the error record, the command
counter, the sequencer state and the response, and nothing else (R247). -/
def raise (sub : SubCause) (w : Word) (s : State R S) : State R S :=
  { s with
    err := errCode (subKind sub)
    errInfo := subCode sub
    errSeq := s.seq
    errCmd := w
    seq := s.seq + 1
    seqState := .faulted
    response := some (.command (.error (subKind sub))) }

/-- The end of a command that completed (60_exceptions.md R244): SEQ advances modulo 2^32 (10_state.md R26), the
sequencer is IDLE, the answer is OK. -/
def complete (s : State R S) : State R S :=
  { s with seq := s.seq + 1, seqState := .idle, response := some (.command .ok) }

/-- ERRCLR, the return from a fault (60_exceptions.md R251). -/
def errClr (s : State R S) : State R S := { s with err := 0, errInfo := 0, seqState := .idle, response := some .ok }

/-- The sub-cause of the first check that fails; a check is whether it fails, and its sub-cause
(60_exceptions.md R245). -/
def firstFailure : List (Bool × SubCause) → Option SubCause
  | [] => none
  | (fails, sub) :: rest => if fails then some sub else firstFailure rest

/-- The life of the command `i` once decoded (60_exceptions.md R244): the first failing check raises its
sub-cause; with none, the results, computed from the state as it is now, are written and the command completes.
ERRCMD is the command's own word (log 10). -/
def runCommand (i : Instr) (checks : List (Bool × SubCause)) (result : State R S) (s : State R S) :
    Host.Outcome (State R S) Fault Refusal :=
  match firstFailure checks with
  | some sub => .next (raise sub (encode i) s)
  | none => .next (complete result)

end Sys2Proof.Machine
end

