-- ==== Sys2Proof/Machine/Operands.lean ====
section
/-! DEFINITION. The operand forms of the commands and the checks made on them (60_exceptions.md R241, R242): source
buffers of a kind, kernel stores, parameter registers, capacities. -/

namespace Sys2Proof.Machine

variable {R S : Type} (P : Params R S)

/-- The bits of a BITS buffer. A command takes them only after its KIND check (10_state.md R25). -/
def bitsOf : Buffer R → List Bool
  | .bits xs => xs
  | _ => []

/-- The samples of a SAMPLES buffer. A command takes them only after its KIND check (10_state.md R25). -/
def samplesOf : Buffer R → List (Cplx R)
  | .samples xs => xs
  | _ => []

/-- The kind is BITS. -/
def isBits : Buffer R → Bool
  | .bits _ => true
  | _ => false

/-- The kind is SAMPLES. -/
def isSamples : Buffer R → Bool
  | .samples _ => true
  | _ => false

/-- The bits a command reads from buffer `n`. -/
def bitsIn (s : State R S) (n : BufNo) : List Bool := bitsOf (buf s n)

/-- The samples a command reads from buffer `n`. -/
def samplesIn (s : State R S) (n : BufNo) : List (Cplx R) := samplesOf (buf s n)

/-- `CSR.SPS` as a natural. -/
def spsOf (s : State R S) : Nat := s.sps.toNat

/-- `CSR.SPAN` as a natural. -/
def spanOf (s : State R S) : Nat := s.span.toNat

/-- What a read of `PHASE` gives: it is hardwired to 0 (10_state.md R35). -/
def phaseRegister : R := P.num.zero

/-- CODE: the code field is none of the line codes (30_encoding.md R96). -/
def checkCode (code : LineCode) : Bool × SubCause := (code == .code2 || code == .code3, .code)

/-- KIND: source `n` is not a BITS buffer (10_state.md R25). -/
def checkBits (s : State R S) (n : BufNo) : Bool × SubCause := (!isBits (buf s n), .kind)

/-- KIND: source `n` is not a SAMPLES buffer (10_state.md R25). -/
def checkSamples (s : State R S) (n : BufNo) : Bool × SubCause := (!isSamples (buf s n), .kind)

/-- ALIAS: the destination is the source (10_state.md R25). -/
def checkAlias (d a : BufNo) : Bool × SubCause := (d == a, .aliasing)

/-- PARAM_SPS: `SPS = 0` (10_state.md R28). -/
def checkSps (s : State R S) : Bool × SubCause := (s.sps == 0, .paramSps)

/-- PARAM_SPAN: `SPAN = 0` (10_state.md R29). -/
def checkSpan (s : State R S) : Bool × SubCause := (s.span == 0, .paramSpan)

/-- PARAM_BETA: not (`0 < BETA` and `BETA <= 1`) (10_state.md R32). -/
def checkBeta (s : State R S) : Bool × SubCause :=
  (!(P.num.lt P.num.zero s.beta && numLe P.num s.beta P.num.one), .paramBeta)

/-- PARAM_PARITY: `SPAN * SPS` odd, over unbounded naturals (10_state.md R29; 40_filter_design.md R121). -/
def checkParity (s : State R S) : Bool × SubCause := (spanOf s * spsOf s % 2 == 1, .paramParity)

/-- KERNEL: the named store is not valid (10_state.md R44). -/
def checkKernel (s : State R S) (k : KerNo) : Bool × SubCause := (!(kernel s k).valid, .kernel)

/-- CAPACITY of a buffer: a result of length `n` would not fit. -/
def checkBufcap (n : Nat) : Bool × SubCause := (decide (P.bufcap < n), .capacity)

/-- CAPACITY of a kernel store: a kernel of length `n` would not fit. -/
def checkKcap (n : Nat) : Bool × SubCause := (decide (P.kcap < n), .capacity)

/-- SHORT: the source is shorter than ten symbol periods (46_timing_recovery.md R190). -/
def checkShort (s : State R S) (n : BufNo) : Bool × SubCause :=
  (decide ((samplesIn s n).length < 10 * spsOf s), .short)

end Sys2Proof.Machine
end

