-- ==== Sys2Proof/Machine/FilterDesign.lean ====
section
/-! DEFINITION. KGEN, the RRC filter-kernel synthesizer (40_filter_design.md). -/

namespace Sys2Proof.Machine

section Formulas

variable {R : Type} (N : NumSystem R)

/-- The kernel length `M = span*sps + 1` (40_filter_design.md R122). -/
def kernelLength (sps span : Nat) : Nat := span * sps + 1

/-- The index `c` of the centre tap (40_filter_design.md R122). -/
def centreIndex (sps span : Nat) : Nat := span * sps / 2

/-- `|i - c|`, a natural (40_filter_design.md R123). -/
def indexDistance (i c : Nat) : Nat := (i - c) + (c - i)

/-- `t_i = (i - c) / sps` (40_filter_design.md R122). -/
def tapTime (sps c i : Nat) : R := N.div (N.sub (N.ofNat i) (N.ofNat c)) (N.ofNat sps)

/-- The tap at `t = 0` (40_filter_design.md R123). -/
def centreTap (beta : R) : R :=
  N.add (N.sub N.one beta) (N.div (N.mul (N.ofNat 4) beta) N.pi)

/-- The tap at `|t| = 1/(4*beta)` (40_filter_design.md R123). -/
def singularTap (beta : R) : R :=
  let angle := N.div N.pi (N.mul (N.ofNat 4) beta)
  let twoOverPi := N.div (N.ofNat 2) N.pi
  N.mul (N.div beta (N.sqrt (N.ofNat 2)))
    (N.add (N.mul (N.add N.one twoOverPi) (N.sin angle)) (N.mul (N.sub N.one twoOverPi) (N.cos angle)))

/-- The tap at any other time (40_filter_design.md R123). -/
def generalTap (beta t : R) : R :=
  let piT := N.mul N.pi t
  let fourBetaT := N.mul (N.mul (N.ofNat 4) beta) t
  N.div
    (N.add (N.sin (N.mul piT (N.sub N.one beta))) (N.mul fourBetaT (N.cos (N.mul piT (N.add N.one beta)))))
    (N.mul piT (N.sub N.one (numSquare N fourBetaT)))

/-- The unnormalised tap `g[i]`, by its three branches; the second is taken on exact equality in NUM
(40_filter_design.md R123). -/
def rawTap (sps span : Nat) (beta : R) (i : Nat) : R :=
  let c := centreIndex sps span
  if i = c then centreTap N beta
  else if N.eq (N.mul (N.mul (N.ofNat 4) beta) (N.ofNat (indexDistance i c))) (N.ofNat sps) then
    singularTap N beta
  else generalTap N beta (tapTime N sps c i)

/-- The unnormalised taps in order (40_filter_design.md R123). -/
def rawTaps (sps span : Nat) (beta : R) : List R :=
  (List.range (kernelLength sps span)).map (rawTap N sps span beta)

/-- The energy of a sequence, the sum of its squares (40_filter_design.md R124). -/
def energy (g : List R) : R := sumOf N (fun x => N.mul x x) g

/-- The sequence divided by its L2 norm (40_filter_design.md R124). -/
def normalise (g : List R) : List R :=
  let nrm := N.sqrt (energy N g)
  g.map (fun x => N.div x nrm)

/-- The kernel KGEN stores (40_filter_design.md R122 to R124). -/
def kernelTaps (sps span : Nat) (beta : R) : List R := normalise N (rawTaps N sps span beta)

end Formulas

variable {R S : Type} (P : Params R S)

/-- The checks of KGEN in order (40_filter_design.md R121). -/
def kgenChecks (s : State R S) : List (Bool × SubCause) :=
  [checkSps s, checkSpan s, checkBeta P s, checkParity s, checkKcap P (kernelLength (spsOf s) (spanOf s))]

/-- The store KGEN writes (40_filter_design.md R125). -/
def kgenStore (s : State R S) : KernelStore R :=
  { valid := true, sps := s.sps, span := s.span, beta := s.beta,
    h := kernelTaps P.num (spsOf s) (spanOf s) s.beta }

/-- KGEN (40_filter_design.md R120 to R127), over any open parameters (00_scope.md R8). -/
def execKgenWith (k : KerNo) (s : State R S) : Host.Outcome (State R S) Fault Refusal :=
  runCommand (.kgen k) (kgenChecks P s) (setKernel s k (kgenStore P s)) s

/-- KGEN on the machine's own parameters (40_filter_design.md R120 to R127). -/
def execKgen (k : KerNo) (s : State) : Host.Outcome State Fault Refusal :=
  execKgenWith params k s

end Sys2Proof.Machine
end

