-- ==== Sys2Proof/Machine/Fir.lean ====
section
/-! DEFINITION. The centred same-length convolution ConvSame, SHAPE, the pulse shaper (42_pulse_shaper.md), and MF,
the matched filter (45_matched_filter.md). -/

namespace Sys2Proof.Machine

section Formulas

variable {R : Type} (N : NumSystem R)

/-- The centre index of a kernel of `m` coefficients (42_pulse_shaper.md R146). -/
def kernelCentre (m : Nat) : Nat := (m - 1) / 2

/-- One step of the sum for output `n`: tap `m` meets sample `n + c - m`, if there is one
(42_pulse_shaper.md R146). -/
def convStep (x : List (Cplx R)) (h : List R) (n : Nat) (acc : Cplx R) (m : Nat) : Cplx R :=
  let c := kernelCentre h.length
  if m ≤ n + c ∧ n + c - m < x.length then
    cplxAdd N acc (cplxScale N (h.getD m N.zero) (x.getD (n + c - m) (cplxZero N)))
  else acc

/-- Output `n` of the convolution, taps in ascending order (42_pulse_shaper.md R146). -/
def convAt (x : List (Cplx R)) (h : List R) (n : Nat) : Cplx R :=
  (List.range h.length).foldl (convStep N x h n) (cplxZero N)

/-- ConvSame (42_pulse_shaper.md R146). -/
def convSame (x : List (Cplx R)) (h : List R) : List (Cplx R) := (List.range x.length).map (convAt N x h)

/-- Symbol `q` at index `q*sps`, zeros elsewhere (42_pulse_shaper.md R147). -/
def upsample (sps : Nat) (sym : List (Cplx R)) : List (Cplx R) :=
  (List.range (sym.length * sps)).map
    (fun n => if n % sps = 0 then sym.getD (n / sps) (cplxZero N) else cplxZero N)

/-- The shaped waveform (42_pulse_shaper.md R147). -/
def shapeSamples (sps : Nat) (h : List R) (sym : List (Cplx R)) : List (Cplx R) :=
  convSame N (upsample N sps sym) h

end Formulas

variable {R S : Type} (P : Params R S)

/-- The checks of SHAPE in order (42_pulse_shaper.md R145). -/
def shapeChecks (d a : BufNo) (k : KerNo) (s : State R S) : List (Bool × SubCause) :=
  [checkSamples s a, checkAlias d a, checkSps s, checkKernel s k,
   checkBufcap P ((samplesIn s a).length * spsOf s)]

/-- SHAPE (42_pulse_shaper.md R145 to R148), over any open parameters (00_scope.md R8). -/
def execShapeWith (d a : BufNo) (k : KerNo) (s : State R S) : Host.Outcome (State R S) Fault Refusal :=
  runCommand (.shape d a k) (shapeChecks P d a k s)
    (setBuf s d (.samples (shapeSamples P.num (spsOf s) (kernel s k).h (samplesIn s a)))) s

/-- SHAPE on the machine's own parameters (42_pulse_shaper.md R145 to R148). -/
def execShape (d a : BufNo) (k : KerNo) (s : State) : Host.Outcome State Fault Refusal :=
  execShapeWith params d a k s

/-- The checks of MF in order (45_matched_filter.md R186). -/
def mfChecks (d a : BufNo) (k : KerNo) (s : State R S) : List (Bool × SubCause) :=
  [checkSamples s a, checkAlias d a, checkKernel s k]

/-- MF (45_matched_filter.md R185 to R188), over any open parameters (00_scope.md R8). -/
def execMfWith (d a : BufNo) (k : KerNo) (s : State R S) : Host.Outcome (State R S) Fault Refusal :=
  runCommand (.mf d a k) (mfChecks d a k s)
    (setBuf s d (.samples (convSame P.num (samplesIn s a) (kernel s k).h))) s

/-- MF on the machine's own parameters (45_matched_filter.md R185 to R188). -/
def execMf (d a : BufNo) (k : KerNo) (s : State) : Host.Outcome State Fault Refusal :=
  execMfWith params d a k s

end Sys2Proof.Machine
end

