-- ==== Sys2Proof/Machine/LineCoding.lean ====
section
/-! DEFINITION. ENC, the line encoder (41_line_encoder.md), and DEC, the line-coded bit slicer
(47_bit_decision.md). -/

namespace Sys2Proof.Machine

section Formulas

variable {R : Type} (N : NumSystem R)

/-- The NRZ symbol of a bit, `(2*b - 1, 0)` (41_line_encoder.md R135). -/
def nrzSymbol (b : Bool) : Cplx R :=
  cplxOfReal N (N.sub (N.mul (N.ofNat 2) (N.ofNat b.toNat)) N.one)

/-- The symbol +1. -/
def plusSymbol : Cplx R := cplxOfReal N N.one

/-- The symbol -1. -/
def minusSymbol : Cplx R := cplxOfReal N (N.neg N.one)

/-- The two Manchester symbols of a bit: 0 is high then low, 1 is low then high (41_line_encoder.md R135, R137). -/
def manchesterSymbols (b : Bool) : List (Cplx R) :=
  if b then [minusSymbol N, plusSymbol N] else [plusSymbol N, minusSymbol N]

/-- The symbols of a bit sequence; an unknown code has none, and its command has faulted
(41_line_encoder.md R135, R136). -/
def encodeBits (code : LineCode) (bits : List Bool) : List (Cplx R) :=
  match code with
  | .nrz => bits.map (nrzSymbol N)
  | .manchester => bits.flatMap (manchesterSymbols N)
  | .code2 | .code3 => []

/-- The NRZ decision on a sample's real part; exactly 0 gives 0 (47_bit_decision.md R206, R208). -/
def nrzDecide (z : Cplx R) : Bool := N.lt N.zero z.re

/-- The Manchester decision on a pair, and whether the pair is ambiguous; an ambiguous pair gives 0
(47_bit_decision.md R207). -/
def manchesterDecide (z0 z1 : Cplx R) : Bool × Bool :=
  if N.lt N.zero z0.re && N.lt z1.re N.zero then (false, false)
  else if N.lt z0.re N.zero && N.lt N.zero z1.re then (true, false)
  else (false, true)

/-- The decisions on the pairs of samples 2p and 2p+1; a last sample without a partner is ignored
(47_bit_decision.md R207, R209). -/
def manchesterPairs : List (Cplx R) → List (Bool × Bool)
  | z0 :: z1 :: rest => manchesterDecide N z0 z1 :: manchesterPairs rest
  | _ => []

/-- The decided bits of a sample sequence (47_bit_decision.md R206, R207). -/
def decideBits (code : LineCode) (xs : List (Cplx R)) : List Bool :=
  match code with
  | .nrz => xs.map (nrzDecide N)
  | .manchester => (manchesterPairs N xs).map Prod.fst
  | .code2 | .code3 => []

/-- The number of ambiguous pairs; none under NRZ (47_bit_decision.md R206, R207, R210). -/
def ambiguousCount (code : LineCode) (xs : List (Cplx R)) : Nat :=
  match code with
  | .manchester => ((manchesterPairs N xs).filter Prod.snd).length
  | .nrz | .code2 | .code3 => 0

end Formulas

/-- The length of an encoded sequence of `n` bits (41_line_encoder.md R136). -/
def encodedLength (code : LineCode) (n : Nat) : Nat :=
  match code with
  | .manchester => 2 * n
  | .nrz | .code2 | .code3 => n

variable {R S : Type} (P : Params R S)

/-- The checks of ENC in order (41_line_encoder.md R136). -/
def encChecks (d a : BufNo) (code : LineCode) (s : State R S) : List (Bool × SubCause) :=
  [checkCode code, checkBits s a, checkAlias d a, checkBufcap P (encodedLength code (bitsIn s a).length)]

/-- ENC (41_line_encoder.md R135 to R137), over any open parameters (00_scope.md R8). -/
def execEncWith (d a : BufNo) (code : LineCode) (s : State R S) : Host.Outcome (State R S) Fault Refusal :=
  runCommand (.enc d a code) (encChecks P d a code s)
    (setBuf s d (.samples (encodeBits P.num code (bitsIn s a)))) s

/-- ENC on the machine's own parameters (41_line_encoder.md R135 to R137). -/
def execEnc (d a : BufNo) (code : LineCode) (s : State) : Host.Outcome State Fault Refusal :=
  execEncWith params d a code s

/-- The checks of DEC in order (47_bit_decision.md R205). -/
def decChecks (d a : BufNo) (code : LineCode) (s : State R S) : List (Bool × SubCause) :=
  [checkCode code, checkSamples s a, checkAlias d a]

/-- What DEC writes: the buffer, AMBIGCNT and the flag AMBIG (47_bit_decision.md R205 to R207). -/
def decResult (d a : BufNo) (code : LineCode) (s : State R S) : State R S :=
  let amb := ambiguousCount P.num code (samplesIn s a)
  { setBuf s d (.bits (decideBits P.num code (samplesIn s a))) with
    ambigCnt := BitVec.ofNat 32 amb
    ambig := ambigFlag amb }

/-- DEC (47_bit_decision.md R205 to R210), over any open parameters (00_scope.md R8). -/
def execDecWith (d a : BufNo) (code : LineCode) (s : State R S) : Host.Outcome (State R S) Fault Refusal :=
  runCommand (.dec d a code) (decChecks d a code s) (decResult P d a code s) s

/-- DEC on the machine's own parameters (47_bit_decision.md R205 to R210). -/
def execDec (d a : BufNo) (code : LineCode) (s : State) : Host.Outcome State Fault Refusal :=
  execDecWith params d a code s

end Sys2Proof.Machine
end

