-- ==== Sys2Proof/Machine/Mixer.lean ====
section
/-! DEFINITION. MIX, the carrier modulator and demodulator (43_carrier_mixer.md). -/

namespace Sys2Proof.Machine

section Formulas

variable {R : Type} (N : NumSystem R)

/-- `carrier[t]` (43_carrier_mixer.md R160). -/
def carrierAt (fc : R) (sps : Nat) (phase : R) (t : Nat) : R :=
  N.cos (N.add
    (N.div (N.mul (N.mul (N.mul (N.ofNat 2) N.pi) fc) (N.ofNat t)) (N.ofNat sps)) phase)

/-- The elementwise product with the carrier, `t` from 0 (43_carrier_mixer.md R160). -/
def mixSamples (fc : R) (sps : Nat) (phase : R) (x : List (Cplx R)) : List (Cplx R) :=
  (List.range x.length).map
    (fun t => cplxScale N (carrierAt N fc sps phase t) (x.getD t (cplxZero N)))

end Formulas

variable {R S : Type} (P : Params R S)

/-- The checks of MIX in order (43_carrier_mixer.md R161). -/
def mixChecks (d a : BufNo) (s : State R S) : List (Bool × SubCause) :=
  [checkSamples s a, checkAlias d a, checkSps s]

/-- MIX (43_carrier_mixer.md R160 to R163), over any open parameters (00_scope.md R8). -/
def execMixWith (d a : BufNo) (s : State R S) : Host.Outcome (State R S) Fault Refusal :=
  runCommand (.mix d a) (mixChecks d a s)
    (setBuf s d (.samples (mixSamples P.num s.fc (spsOf s) (phaseRegister P) (samplesIn s a)))) s

/-- MIX on the machine's own parameters (43_carrier_mixer.md R160 to R163). -/
def execMix (d a : BufNo) (s : State) : Host.Outcome State Fault Refusal :=
  execMixWith params d a s

end Sys2Proof.Machine
end

