-- ==== Sys2Proof/Machine/Noise.lean ====
section
/-! DEFINITION. AWGN, the complex noise generator (44_channel_noise.md). -/

namespace Sys2Proof.Machine

section Formulas

variable {R : Type} (N : NumSystem R)

/-- `P`, the mean of the squared moduli (44_channel_noise.md R171). -/
def meanPower (x : List (Cplx R)) : R :=
  N.div (sumOf N (fun z => N.add (numSquare N z.re) (numSquare N z.im)) x) (N.ofNat x.length)

/-- `sigma`, the standard deviation of each component (44_channel_noise.md R171). -/
def noiseSigma (snrDb : R) (x : List (Cplx R)) : R :=
  let snr := N.pow10 (N.div snrDb (N.ofNat 10))
  let noise := N.div (meanPower N x) snr
  N.sqrt (N.div noise (N.ofNat 2))

/-- The samples with noise added, two draws a sample, the real part's first, and the random state after them
(44_channel_noise.md R172). -/
def addNoise {S : Type} (G : RandomSource S R) (sigma : R) : List (Cplx R) → S → List (Cplx R) × S
  | [], st => ([], st)
  | z :: rest, st =>
    let first := G.gauss st
    let second := G.gauss first.2
    let tail := addNoise G sigma rest second.2
    (⟨N.add z.re (N.mul sigma first.1), N.add z.im (N.mul sigma second.1)⟩ :: tail.1, tail.2)

/-- The noisy waveform and the random state after it; an empty waveform takes no draw
(44_channel_noise.md R172, R174). -/
def awgnSamples {S : Type} (G : RandomSource S R) (snrDb : R) (x : List (Cplx R)) (st : S) : List (Cplx R) × S :=
  if x.isEmpty then ([], st) else addNoise N G (noiseSigma N snrDb x) x st

end Formulas

variable {R S : Type} (P : Params R S)

/-- The checks of AWGN in order (44_channel_noise.md R170). -/
def awgnChecks (d a : BufNo) (s : State R S) : List (Bool × SubCause) := [checkSamples s a, checkAlias d a]

/-- What AWGN writes: the buffer and RNGSTATE (44_channel_noise.md R170, R172). -/
def awgnResult (d a : BufNo) (s : State R S) : State R S :=
  { setBuf s d (.samples (awgnSamples P.num P.rng s.snrDb (samplesIn s a) s.rngState).1) with
    rngState := (awgnSamples P.num P.rng s.snrDb (samplesIn s a) s.rngState).2 }

/-- AWGN (44_channel_noise.md R170 to R175), over any open parameters (00_scope.md R8). -/
def execAwgnWith (d a : BufNo) (s : State R S) : Host.Outcome (State R S) Fault Refusal :=
  runCommand (.awgn d a) (awgnChecks d a s) (awgnResult P d a s) s

/-- AWGN on the machine's own parameters (44_channel_noise.md R170 to R175). -/
def execAwgn (d a : BufNo) (s : State) : Host.Outcome State Fault Refusal :=
  execAwgnWith params d a s

end Sys2Proof.Machine
end

