-- ==== Sys2Proof/Machine/Source.lean ====
section
/-! DEFINITION. GENB, the bit source, and BER, the error count (48_source_and_ber.md). -/

namespace Sys2Proof.Machine

/-- `n` bit draws in order, and the random state after them (48_source_and_ber.md R221). -/
def drawBits {S R : Type} (G : RandomSource S R) : Nat → S → List Bool × S
  | 0, st => ([], st)
  | n + 1, st =>
    ((G.bit st).1 :: (drawBits G n (G.bit st).2).1, (drawBits G n (G.bit st).2).2)

variable {R S : Type} (P : Params R S)

/-- The one check of GENB (48_source_and_ber.md R220). -/
def genbChecks (s : State R S) : List (Bool × SubCause) := [checkBufcap P s.nbits.toNat]

/-- What GENB writes: the buffer and RNGSTATE (48_source_and_ber.md R220, R221). -/
def genbResult (d : BufNo) (s : State R S) : State R S :=
  { setBuf s d (.bits (drawBits P.rng s.nbits.toNat s.rngState).1) with
    rngState := (drawBits P.rng s.nbits.toNat s.rngState).2 }

/-- GENB (48_source_and_ber.md R220, R221), over any open parameters (00_scope.md R8). -/
def execGenbWith (d : BufNo) (s : State R S) : Host.Outcome (State R S) Fault Refusal :=
  runCommand (.genb d) (genbChecks P s) (genbResult P d s) s

/-- GENB on the machine's own parameters (48_source_and_ber.md R220, R221). -/
def execGenb (d : BufNo) (s : State) : Host.Outcome State Fault Refusal :=
  execGenbWith params d s

/-- The number of positions compared, the shorter length (48_source_and_ber.md R224). -/
def compareLength (xs ys : List Bool) : Nat := min xs.length ys.length

/-- The number of positions at which two sequences differ, up to the shorter length (48_source_and_ber.md R224). -/
def bitErrorCount (xs ys : List Bool) : Nat := ((xs.zip ys).filter (fun p => p.1 != p.2)).length

/-- The quotient of errors and positions, 0 where none was compared (48_source_and_ber.md R224). -/
def errorRate {R : Type} (N : NumSystem R) (errs m : Nat) : R :=
  if m = 0 then N.zero else N.div (N.ofNat errs) (N.ofNat m)

/-- The checks of BER in order (48_source_and_ber.md R223). -/
def berChecks (a b : BufNo) (s : State R S) : List (Bool × SubCause) := [checkBits s a, checkBits s b]

/-- What BER writes: three result registers and the flag DEGEN (48_source_and_ber.md R223, R224). -/
def berResult (a b : BufNo) (s : State R S) : State R S :=
  let m := compareLength (bitsIn s a) (bitsIn s b)
  let errs := bitErrorCount (bitsIn s a) (bitsIn s b)
  { s with
    bitErrs := BitVec.ofNat 32 errs
    cmpLen := BitVec.ofNat 32 m
    berVal := errorRate P.num errs m
    degen := degenFlag m }

/-- BER (48_source_and_ber.md R223 to R226), over any open parameters (00_scope.md R8). -/
def execBerWith (a b : BufNo) (s : State R S) : Host.Outcome (State R S) Fault Refusal :=
  runCommand (.ber a b) (berChecks a b s) (berResult P a b s) s

/-- BER on the machine's own parameters (48_source_and_ber.md R223 to R226). -/
def execBer (a b : BufNo) (s : State) : Host.Outcome State Fault Refusal :=
  execBerWith params a b s

end Sys2Proof.Machine
end

