-- ==== Sys2Proof/Machine/Timing.lean ====
section
/-! DEFINITION. TREC, the symbol-timing recovery engine (46_timing_recovery.md). -/

namespace Sys2Proof.Machine

section Formulas

variable {R : Type} (N : NumSystem R)

/-- `metric[o]`: the mean modulus at offset `o` over the first ten blocks (46_timing_recovery.md R191). -/
def timingMetric (sps : Nat) (x : List (Cplx R)) (o : Nat) : R :=
  N.div (sumOf N (fun blk => cplxAbs N (x.getD (blk * sps + o) (cplxZero N))) (List.range 10)) (N.ofNat 10)

/-- One step of the scan for the largest metric; a tie keeps the lower offset (46_timing_recovery.md R192). -/
def scanStep (metric : Nat → R) (off o : Nat) : Nat := if N.lt (metric off) (metric o) then o else off

/-- The offset of the largest metric, scanned upwards (46_timing_recovery.md R192). -/
def timingOffset (sps : Nat) (x : List (Cplx R)) : Nat :=
  (List.range' 1 (sps - 1)).foldl (scanStep N (timingMetric N sps x)) 0

/-- The number of samples taken, `ceil((L - off) / sps)` (46_timing_recovery.md R193). -/
def downsampleCount (len off sps : Nat) : Nat := (len - off + (sps - 1)) / sps

/-- Every `sps`-th sample from `off` on (46_timing_recovery.md R193). -/
def downsample (sps off : Nat) (x : List (Cplx R)) : List (Cplx R) :=
  (List.range (downsampleCount x.length off sps)).map (fun q => x.getD (off + q * sps) (cplxZero N))

end Formulas

variable {R S : Type} (P : Params R S)

/-- The checks of TREC in order (46_timing_recovery.md R190). -/
def trecChecks (d a : BufNo) (s : State R S) : List (Bool × SubCause) :=
  [checkSamples s a, checkAlias d a, checkSps s, checkShort s a]

/-- What TREC writes: the buffer and OFFSET (46_timing_recovery.md R194). -/
def trecResult (d a : BufNo) (s : State R S) : State R S :=
  let off := timingOffset P.num (spsOf s) (samplesIn s a)
  { setBuf s d (.samples (downsample P.num (spsOf s) off (samplesIn s a))) with
    offset := BitVec.ofNat 32 off }

/-- TREC (46_timing_recovery.md R190 to R195), over any open parameters (00_scope.md R8). -/
def execTrecWith (d a : BufNo) (s : State R S) : Host.Outcome (State R S) Fault Refusal :=
  runCommand (.trec d a) (trecChecks d a s) (trecResult P d a s) s

/-- TREC on the machine's own parameters (46_timing_recovery.md R190 to R195). -/
def execTrec (d a : BufNo) (s : State) : Host.Outcome State Fault Refusal :=
  execTrecWith params d a s

end Sys2Proof.Machine
end

