-- ==== Sys2Proof/Machine/Commands.lean ====
section
/-! DEFINITION. The ten commands over any open parameters (00_scope.md R8): what `exec` is at the machine's own. -/

namespace Sys2Proof.Machine

/-- The commands over any open parameters (00_scope.md R8). -/
def execWith {R S : Type} (P : Params R S) (i : Instr) (s : State R S) : Host.Outcome (State R S) Fault Refusal :=
  match i with
  | .kgen k => execKgenWith P k s
  | .genb d => execGenbWith P d s
  | .enc d a code => execEncWith P d a code s
  | .shape d a k => execShapeWith P d a k s
  | .mix d a => execMixWith P d a s
  | .awgn d a => execAwgnWith P d a s
  | .mf d a k => execMfWith P d a k s
  | .trec d a => execTrecWith P d a s
  | .dec d a code => execDecWith P d a code s
  | .ber a b => execBerWith P a b s

end Sys2Proof.Machine
end

