-- ==== Sys2Proof/Machine/Dispatch.lean ====
section
/-! DEFINITION. The meaning of each command, one arm per constructor. The sequencer state is looked at before
decoding, by `step` (60_exceptions.md R244). -/

namespace Sys2Proof.Machine

def exec (i : Instr) (s : State) : Host.Outcome State Fault Refusal :=
  match i with
  | .kgen k => Sys2Proof.Machine.execKgen k s
  | .genb d => Sys2Proof.Machine.execGenb d s
  | .enc d a code => Sys2Proof.Machine.execEnc d a code s
  | .shape d a k => Sys2Proof.Machine.execShape d a k s
  | .mix d a => Sys2Proof.Machine.execMix d a s
  | .awgn d a => Sys2Proof.Machine.execAwgn d a s
  | .mf d a k => Sys2Proof.Machine.execMf d a k s
  | .trec d a => Sys2Proof.Machine.execTrec d a s
  | .dec d a code => Sys2Proof.Machine.execDec d a code s
  | .ber a b => Sys2Proof.Machine.execBer a b s

end Sys2Proof.Machine
end

