-- ==== Sys2Proof/Machine/Registers.lean ====
section
/-! DEFINITION. The register map of 10_state.md R27: what a read of each number gives, and what a write of each
does (20_memory.md R67, R68). -/

namespace Sys2Proof.Machine

variable {R S : Type} (P : Params R S)

/-- The descriptor registers of kernel store `k`, by their place in the store's row group
(10_state.md R27, R43). -/
def kernelDescriptor (st : KernelStore R) (place : Nat) : Option (RegValue R) :=
  match place with
  | 0 => some (.u32 (if st.valid then 1 else 0))
  | 1 => some (.u32 (BitVec.ofNat 32 st.h.length))
  | 2 => some (.u32 st.sps)
  | 3 => some (.u32 st.span)
  | 4 => some (.real st.beta)
  | _ => none

/-- `BnKIND` at an even place and `BnLEN` at an odd one, `n` half the place (10_state.md R27, R45). -/
def bufferDescriptor (s : State R S) (place : Nat) : RegValue R :=
  let b := buf s (Fin.ofNat 16 (place / 2))
  if place % 2 = 0 then .u32 (kindCode b) else .u32 (BitVec.ofNat 32 (bufLen b))

/-- The value of register `n`; none for a reserved number (10_state.md R27; 20_memory.md R67). -/
def readReg (s : State R S) (n : BitVec 8) : Option (RegValue R) :=
  match n.toNat with
  | 0x00 => some (.u32 (statusWord s.seqState s.degen s.ambig))
  | 0x01 => some (.u32 s.err)
  | 0x02 => some (.u32 s.errInfo)
  | 0x03 => some (.u32 s.errSeq)
  | 0x04 => some (.u32 s.errCmd)
  | 0x05 => some (.u32 s.seq)
  | 0x08 => some (.u32 s.sps)
  | 0x09 => some (.u32 s.span)
  | 0x0A => some (.u32 s.nbits)
  | 0x0B => some (.u64 s.seed)
  | 0x0C => some (.real s.beta)
  | 0x0D => some (.real s.fc)
  | 0x0E => some (.real s.snrDb)
  | 0x0F => some (.real (phaseRegister P))
  | 0x10 => some (.u32 s.offset)
  | 0x11 => some (.u32 s.bitErrs)
  | 0x12 => some (.u32 s.cmpLen)
  | 0x13 => some (.real s.berVal)
  | 0x14 => some (.u32 s.ambigCnt)
  | m =>
    if 0x20 ≤ m ∧ m < 0x28 then kernelDescriptor (kernel s 0) (m - 0x20)
    else if 0x28 ≤ m ∧ m < 0x30 then kernelDescriptor (kernel s 1) (m - 0x28)
    else if 0x40 ≤ m ∧ m < 0x60 then some (bufferDescriptor s (m - 0x40))
    else none

/-- A host value as an unsigned integer of `bits` bits, if it is one (20_memory.md R68). -/
def hostWord (bits : Nat) : HostValue R → Option (BitVec bits)
  | .int v => if 0 ≤ v ∧ v.toNat < 2 ^ bits then some (BitVec.ofNat bits v.toNat) else none
  | .real _ => none

/-- A host value as a finite real, if it is one (20_memory.md R68). -/
def hostReal : HostValue R → Option R
  | .real x => if P.finite x then some x else none
  | .int _ => none

/-- A host write of `SEED`, which also sets RNGSTATE (10_state.md R31; 20_memory.md R65). -/
def writeSeed (s : State R S) (v : DWord) : State R S := { s with seed := v, rngState := P.rng.seed v }

/-- A write of register `n` in IDLE; none where the number is read-only or reserved or the value is not of the
register's type (20_memory.md R68). -/
def writeReg (s : State R S) (n : BitVec 8) (v : HostValue R) : Option (State R S) :=
  match n.toNat with
  | 0x08 => (hostWord 32 v).map (fun w => { s with sps := w })
  | 0x09 => (hostWord 32 v).map (fun w => { s with span := w })
  | 0x0A => (hostWord 32 v).map (fun w => { s with nbits := w })
  | 0x0B => (hostWord 64 v).map (fun w => writeSeed P s w)
  | 0x0C => (hostReal P v).map (fun x => { s with beta := x })
  | 0x0D => (hostReal P v).map (fun x => { s with fc := x })
  | 0x0E => (hostReal P v).map (fun x => { s with snrDb := x })
  | _ => none

/-- The register number of `ERR` (10_state.md R27). -/
def errNumber : BitVec 8 := 0x01

end Sys2Proof.Machine
end

