-- ==== Sys2Proof/Machine/Transactions.lean ====
section
/-! DEFINITION. The host's seven transactions (20_memory.md R66 to R75), over any open parameters (00_scope.md R8)
and with the meaning of a command as an argument: `exec` for the machine, `execWith` for other parameters. -/

namespace Sys2Proof.Machine

variable {R S : Type} (P : Params R S)

/-- A meaning of the commands. -/
abbrev Meaning (R S : Type) := Instr → State R S → Host.Outcome (State R S) Fault Refusal

/-- The answer to a transaction that changes nothing else. -/
def answer (r : Response R) (s : State R S) : State R S := { s with response := some r }

/-- REGRD (20_memory.md R67). -/
def regRead (n : BitVec 8) (s : State R S) : State R S :=
  match readReg P s n with
  | some v => answer (.value v) s
  | none => answer .refused s

/-- REGWR (20_memory.md R68): in FAULTED only a write of `ERR` is taken, and it is ERRCLR
(60_exceptions.md R250, R251). -/
def regWrite (n : BitVec 8) (v : HostValue R) (s : State R S) : State R S :=
  if s.seqState = .faulted then
    if n = errNumber then errClr s else answer .refused s
  else
    match writeReg P s n v with
    | some s' => answer .ok s'
    | none => answer .refused s

/-- An element of a bit load is 0 or 1 (20_memory.md R70). -/
def isBitValue (v : Int) : Bool := v == 0 || v == 1

/-- An element of a sample load is a pair of finite reals (20_memory.md R71). -/
def isFiniteSample (z : Cplx R) : Bool := P.finite z.re && P.finite z.im

/-- The buffer a load gives, if its elements are of the kind and it fits (20_memory.md R70, R71). -/
def loadedBuffer : LoadData R → Option (Buffer R)
  | .bits xs =>
    if xs.all isBitValue && decide (xs.length ≤ P.bufcap) then some (.bits (xs.map (fun v => v == 1))) else none
  | .samples xs =>
    if xs.all (isFiniteSample P) && decide (xs.length ≤ P.bufcap) then some (.samples xs) else none

/-- BUFLD (20_memory.md R70, R71); REFUSED in FAULTED (60_exceptions.md R250). -/
def bufLoad (n : BufNo) (data : LoadData R) (s : State R S) : State R S :=
  if s.seqState = .faulted then answer .refused s
  else
    match loadedBuffer P data with
    | some b => answer .ok (setBuf s n b)
    | none => answer .refused s

/-- BUFRD (20_memory.md R72). -/
def bufRead (n : BufNo) (s : State R S) : State R S := answer (.buffer (buf s n)) s

/-- KERRD (20_memory.md R73). -/
def kerRead (k : KerNo) (s : State R S) : State R S := answer (.kernel (kernel s k)) s

/-- CMD (20_memory.md R74; 60_exceptions.md R244): REJECTED in FAULTED; else the word is decoded, and either
raises IllegalCommand or runs. -/
def command (run : Meaning R S) (w : Word) (s : State R S) : Host.Outcome (State R S) Fault Refusal :=
  if s.seqState = .faulted then .next (answer (.command .rejected) s)
  else
    match decode w with
    | .error e => .next (raise (illegalSub e) w s)
    | .ok i => run i s

/-- RESET (20_memory.md R75; 70_reset_and_hazards.md R280). It has no answer, and the host's own stream of
transactions goes on (log 8). -/
def resetCore (s : State R S) : State R S := { resetWith P.num.zero (P.rng.seed 0) with pending := s.pending }

/-- A transaction the host makes while the sequencer is not BUSY (20_memory.md R66). -/
def respond (run : Meaning R S) (t : Transaction R) (s : State R S) : Host.Outcome (State R S) Fault Refusal :=
  match t with
  | .regrd n => .next (regRead P n s)
  | .regwr n v => .next (regWrite P n v s)
  | .bufld n data => .next (bufLoad P n data s)
  | .bufrd n => .next (bufRead n s)
  | .kerrd k => .next (kerRead k s)
  | .cmd w => command run w s
  | .reset => .next (resetCore P s)

/-- The transaction is RESET. -/
def Transaction.isReset : Transaction R → Bool
  | .reset => true
  | .regrd _ | .regwr _ _ | .bufld _ _ | .bufrd _ | .kerrd _ | .cmd _ => false

/-- One transaction. While BUSY the host has no move but RESET (20_memory.md R62, R75; 93 U1). -/
def transact (run : Meaning R S) (t : Transaction R) (s : State R S) : Host.Outcome (State R S) Fault Refusal :=
  if s.seqState = .busy ∧ t.isReset = false then .refused .hostMoveWhileBusy else respond P run t s

/-- The host's next transaction, taken off its stream; with none the CORE waits
(70_reset_and_hazards.md R281; log 9). -/
def hostStep (run : Meaning R S) (s : State R S) : Host.Outcome (State R S) Fault Refusal :=
  match s.pending with
  | [] => .next s
  | t :: rest => transact P run t { s with pending := rest }

end Sys2Proof.Machine
end

