-- ==== Sys2Proof/Machine/Step.lean ====
section
/-! DEFINITION. One step of the machine: one transaction of the host, a CMD transaction running its command whole
(20_memory.md R62, R76). -/

namespace Sys2Proof.Machine

/-- One step of the CORE with its open parameters as an argument (00_scope.md R8; 20_memory.md R66). -/
def stepWith {R S : Type} (P : Params R S) (s : State R S) : Host.Outcome (State R S) Fault Refusal :=
  hostStep P (execWith P) s

/-- One step (20_memory.md R66): `stepWith params` (`step_eq_stepWith`), its commands those of `exec`. -/
def step (s : State) : Host.Outcome State Fault Refusal := hostStep params exec s

/-- The state whose next transaction is the CMD of this word: commands are not fetched from a store, the host hands
them over (10_state.md R26; 20_memory.md R78; log 8). -/
def State.withFetchWord (s : State) (nbits w : Nat) : State :=
  { s with pending := .cmd (tableWord nbits w) :: s.pending }

end Sys2Proof.Machine
end

