-- ==== Sys2Proof/Machine/Reference.lean ====
section
/-! DEFINITION. The reference NUM of 00_scope.md R10, the exact real numbers, for statements about what the
formulas compute. It stands beside the machine's NUM as a second value of the same record, and `referenceParams` gives
the machine over it: `stepWith (referenceParams ...)`. -/

namespace Sys2Proof.Machine

open Classical in
/-- The exact reals with the mathematical functions and relations (00_scope.md R10). -/
noncomputable def realNum : NumSystem ℝ where
  zero := 0
  one := 1
  pi := Real.pi
  ofNat := fun n => (n : ℝ)
  add := fun x y => x + y
  sub := fun x y => x - y
  mul := fun x y => x * y
  div := fun x y => x / y
  neg := fun x => -x
  abs := fun x => |x|
  sqrt := Real.sqrt
  sin := Real.sin
  cos := Real.cos
  pow10 := fun x => (10 : ℝ) ^ x
  lt := fun x y => decide (x < y)
  eq := fun x y => decide (x = y)

/-- The open parameters with the reference NUM: every real is finite (00_scope.md R8, R10). -/
noncomputable def referenceParams {S : Type} (bufcap kcap : Nat) (rng : RandomSource S ℝ) : Params ℝ S where
  bufcap := bufcap
  kcap := kcap
  num := realNum
  finite := fun _ => true
  rng := rng

end Sys2Proof.Machine
end

