-- ==== Sys2Proof/Safety.lean ====
section
/-! DEFINITION. The terms claims are stated in: how a run ends (70_reset_and_hazards.md R304), the properties every
NUM must have (00_scope.md R11), the invariant of the state, and what a command leaves unchanged. -/

namespace Sys2Proof.Machine

/-- A run has ended well: the host has made its last transaction, the sequencer is IDLE and `ERR = 0`
(70_reset_and_hazards.md R304). -/
def State.endedWell (s : State) : Prop := s.pending = [] ∧ s.seqState = .idle ∧ s.err = 0

/-- A run has ended badly: the sequencer is FAULTED (70_reset_and_hazards.md R304). -/
def State.endedBadly (s : State) : Prop := s.seqState = .faulted

/-- The value of a finite binary64 pattern, in multiples of 2^-1074, as a real. -/
noncomputable def scalarValue (x : Scalar) : ℝ := (signedUnits x : ℝ) / (2 : ℝ) ^ 1074

/-- The properties N1 to N5 of 00_scope.md R11, for a NUM whose finite values are those `finite` holds of; -1, 0 and 1
are among them. That `lt` agrees with the real order (N3) is said where the reals are named.
`=` between values is the NUM's own `eq`, which takes the two zeros of binary64 for one (log 11). -/
structure NumProperties {R : Type} (N : NumSystem R) (finite : R → Prop) : Prop where
  finite_zero : finite N.zero
  finite_one : finite N.one
  finite_minusOne : finite (N.neg N.one)
  ofNat_zero : N.ofNat 0 = N.zero
  ofNat_one : N.ofNat 1 = N.one
  minusOne_lt_zero : N.lt (N.neg N.one) N.zero = true
  zero_lt_one : N.lt N.zero N.one = true
  zero_not_lt_zero : N.lt N.zero N.zero = false
  mul_zero : ∀ x, finite x → N.eq (N.mul x N.zero) N.zero = true
  zero_mul : ∀ x, finite x → N.eq (N.mul N.zero x) N.zero = true
  add_zero : ∀ x, finite x → N.eq (N.add x N.zero) x = true
  zero_add : ∀ x, finite x → N.eq (N.add N.zero x) x = true
  one_mul : ∀ x, finite x → N.eq (N.mul N.one x) x = true
  mul_one : ∀ x, finite x → N.eq (N.mul x N.one) x = true
  lt_irrefl : ∀ x, finite x → N.lt x x = false
  lt_trans : ∀ x y z, finite x → finite y → finite z → N.lt x y = true → N.lt y z = true → N.lt x z = true
  lt_total : ∀ x y, finite x → finite y → N.lt x y = true ∨ N.eq x y = true ∨ N.lt y x = true
  abs_not_neg : ∀ x, N.lt (N.abs x) N.zero = false
  abs_neg : ∀ x, N.abs (N.neg x) = N.abs x
  symbol_zero : N.sub (N.mul (N.ofNat 2) (N.ofNat 0)) N.one = N.neg N.one
  symbol_one : N.sub (N.mul (N.ofNat 2) (N.ofNat 1)) N.one = N.one

/-- What always holds of a kernel store (10_state.md R42, R44): a valid one has the odd length `span*sps + 1`, within
KCAP, and was built from parameters KGEN takes; one that is not valid holds nothing. -/
structure KernelStore.Sound (st : KernelStore) : Prop where
  empty : st.valid = false → st = KernelStore.invalid 0
  length : st.valid = true → st.h.length = st.span.toNat * st.sps.toNat + 1
  odd : st.valid = true → st.h.length % 2 = 1
  fits : st.h.length ≤ Config.kcap
  sps : st.valid = true → st.sps ≠ 0
  span : st.valid = true → st.span ≠ 0
  beta : st.valid = true → num.lt num.zero st.beta = true ∧ numLe num st.beta num.one = true

/-- The invariant of the state that every step keeps. -/
structure State.Inv (s : State) : Prop where
  /-- A step never leaves the sequencer BUSY (20_memory.md R67). -/
  notBusy : s.seqState ≠ .busy
  /-- No error is on record outside FAULTED (10_state.md R37; 60_exceptions.md R246, R251). -/
  idleClean : s.seqState = .idle → s.err = 0 ∧ s.errInfo = 0
  /-- FAULTED has one cause on record, its kind and its sub-cause (60_exceptions.md R241, R252). -/
  faultRecorded : s.seqState = .faulted → ∃ sub, s.err = errCode (subKind sub) ∧ s.errInfo = subCode sub
  /-- Every buffer fits (10_state.md R22). -/
  bufferFits : ∀ n, bufLen (buf s n) ≤ Config.bufcap
  /-- Both kernel stores are sound (10_state.md R44). -/
  kernelSound : ∀ k, (kernel s k).Sound
  /-- AMBIG says that AMBIGCNT is not 0 (10_state.md R36). -/
  ambigFlag : s.ambig = (s.ambigCnt != 0)
  /-- DEGEN says that zero positions were compared (10_state.md R36). -/
  degenFlag : s.degen = true → s.cmpLen = 0
  /-- `BITERRS <= CMPLEN <= BUFCAP` (10_state.md R40). -/
  berBounds : s.bitErrs.toNat ≤ s.cmpLen.toNat ∧ s.cmpLen.toNat ≤ Config.bufcap
  /-- OFFSET is an offset into one symbol of some buffer (10_state.md R39). -/
  offsetBound : s.offset.toNat < Config.bufcap
  /-- The real parameters are finite (20_memory.md R68). -/
  parametersFinite : isFinite s.beta = true ∧ isFinite s.fc = true ∧ isFinite s.snrDb = true

/-- The host's parameter registers are as before (10_state.md R27, the RW rows). -/
def sameParameters (s t : State) : Prop :=
  t.sps = s.sps ∧ t.span = s.span ∧ t.nbits = s.nbits ∧ t.seed = s.seed ∧ t.beta = s.beta ∧ t.fc = s.fc ∧
    t.snrDb = s.snrDb

/-- The error registers are as before (10_state.md R37). -/
def sameErrorRecord (s t : State) : Prop :=
  t.err = s.err ∧ t.errInfo = s.errInfo ∧ t.errSeq = s.errSeq ∧ t.errCmd = s.errCmd

/-- The result registers of BER are as before (10_state.md R40). -/
def sameBerResults (s t : State) : Prop :=
  t.bitErrs = s.bitErrs ∧ t.cmpLen = s.cmpLen ∧ t.berVal = s.berVal ∧ t.degen = s.degen

/-- The result register and the flag of DEC are as before (10_state.md R41). -/
def sameDecResults (s t : State) : Prop := t.ambigCnt = s.ambigCnt ∧ t.ambig = s.ambig

/-- The random source after `n` Gaussian draws (10_state.md R38). -/
def gaussState (st : RngState) : Nat → RngState
  | 0 => st
  | n + 1 => (rng.gauss (gaussState st n)).2

/-- Gaussian draw number `n`, from 0 (10_state.md R38). -/
def gaussDraw (st : RngState) (n : Nat) : Scalar := (rng.gauss (gaussState st n)).1

/-- The random source after `n` bit draws (10_state.md R38). -/
def bitState (st : RngState) : Nat → RngState
  | 0 => st
  | n + 1 => (rng.bit (bitState st n)).2

/-- Bit draw number `n`, from 0 (10_state.md R38). -/
def bitDraw (st : RngState) (n : Nat) : Bool := (rng.bit (bitState st n)).1

/-- The command `i` takes a fault of this kind code and sub-cause code at `s`: the error record, the counter, the
sequencer state and the response are written and nothing else changes (60_exceptions.md R246, R247). -/
def faults (i : Instr) (s : State) (kind sub : Word) : Prop :=
  ∃ r, responseCode r = kind ∧
    exec i s = .next { s with
      err := kind, errInfo := sub, errSeq := s.seq, errCmd := encode i, seq := s.seq + 1,
      seqState := .faulted, response := some (.command r) }

/-- `0 < BETA` and `BETA <= 1` (40_filter_design.md R121 check 3). -/
def betaInRange (s : State) : Prop :=
  num.lt num.zero s.beta = true ∧ (num.lt s.beta num.one = true ∨ num.eq s.beta num.one = true)

/-- The buffer a command replaces, if any (10_state.md R24). -/
def destination : Instr → Option BufNo
  | .genb d | .enc d _ _ | .shape d _ _ | .mix d _ | .awgn d _ | .mf d _ _ | .trec d _ | .dec d _ _ => some d
  | .kgen _ | .ber _ _ => none

/-- Two states hold the same values of everything the command `i` reads (10_state.md R24, R46). -/
def operandsAgree (i : Instr) (s s' : State) : Prop :=
  match i with
  | .kgen _ => s.sps = s'.sps ∧ s.span = s'.span ∧ s.beta = s'.beta
  | .genb _ => s.nbits = s'.nbits ∧ s.rngState = s'.rngState
  | .enc _ a _ => buf s a = buf s' a
  | .shape _ a k => buf s a = buf s' a ∧ kernel s k = kernel s' k ∧ s.sps = s'.sps
  | .mix _ a => buf s a = buf s' a ∧ s.fc = s'.fc ∧ s.sps = s'.sps
  | .awgn _ a => buf s a = buf s' a ∧ s.snrDb = s'.snrDb ∧ s.rngState = s'.rngState
  | .mf _ a k => buf s a = buf s' a ∧ kernel s k = kernel s' k
  | .trec _ a => buf s a = buf s' a ∧ s.sps = s'.sps
  | .dec _ a _ => buf s a = buf s' a
  | .ber a b => buf s a = buf s' a ∧ buf s b = buf s' b

/-- Two states hold the same values of everything the command `i` writes when it completes (10_state.md R24, R27). -/
def resultsAgree (i : Instr) (t t' : State) : Prop :=
  match i with
  | .kgen k => kernel t k = kernel t' k
  | .genb d => buf t d = buf t' d ∧ t.rngState = t'.rngState
  | .enc d _ _ => buf t d = buf t' d
  | .shape d _ _ => buf t d = buf t' d
  | .mix d _ => buf t d = buf t' d
  | .awgn d _ => buf t d = buf t' d ∧ t.rngState = t'.rngState
  | .mf d _ _ => buf t d = buf t' d
  | .trec d _ => buf t d = buf t' d ∧ t.offset = t'.offset
  | .dec d _ _ => buf t d = buf t' d ∧ t.ambigCnt = t'.ambigCnt ∧ t.ambig = t'.ambig
  | .ber _ _ => t.bitErrs = t'.bitErrs ∧ t.cmpLen = t'.cmpLen ∧ t.berVal = t'.berVal ∧ t.degen = t'.degen

/-- The codes of `STATUS.STATE`: 0 IDLE, 1 BUSY, 2 FAULTED (10_state.md R21, R36). -/
def stateNumber : SeqState → Nat
  | .idle => 0
  | .busy => 1
  | .faulted => 2

/-- The codes of a buffer's kind: 0 EMPTY, 1 BITS, 2 SAMPLES (10_state.md R22). -/
def kindNumber : Buffer → Nat
  | .empty => 0
  | .bits _ => 1
  | .samples _ => 2

/-- How many elements a buffer holds (10_state.md R22). -/
def elementCount : Buffer → Nat
  | .empty => 0
  | .bits xs => xs.length
  | .samples xs => xs.length

/-- The rows of the register map with their numbers (10_state.md R27): `STATUS` with STATE in bits 1:0, DEGEN in bit
2 and AMBIG in bit 3 (R36), the registers, the descriptors of the kernels and of the buffers. A length is read modulo
2^32 (log 12). -/
def registerMap (s : State) : List (BitVec 8 × RegValue) :=
  [ (0x00, .u32 (BitVec.ofNat 32 (stateNumber s.seqState + 4 * s.degen.toNat + 8 * s.ambig.toNat))),
    (0x01, .u32 s.err), (0x02, .u32 s.errInfo), (0x03, .u32 s.errSeq), (0x04, .u32 s.errCmd), (0x05, .u32 s.seq),
    (0x08, .u32 s.sps), (0x09, .u32 s.span), (0x0A, .u32 s.nbits), (0x0B, .u64 s.seed),
    (0x0C, .real s.beta), (0x0D, .real s.fc), (0x0E, .real s.snrDb), (0x0F, .real 0),
    (0x10, .u32 s.offset), (0x11, .u32 s.bitErrs), (0x12, .u32 s.cmpLen), (0x13, .real s.berVal),
    (0x14, .u32 s.ambigCnt),
    (0x20, .u32 (BitVec.ofNat 32 (kernel s 0).valid.toNat)), (0x21, .u32 (BitVec.ofNat 32 (kernel s 0).h.length)),
    (0x22, .u32 (kernel s 0).sps), (0x23, .u32 (kernel s 0).span), (0x24, .real (kernel s 0).beta),
    (0x28, .u32 (BitVec.ofNat 32 (kernel s 1).valid.toNat)), (0x29, .u32 (BitVec.ofNat 32 (kernel s 1).h.length)),
    (0x2A, .u32 (kernel s 1).sps), (0x2B, .u32 (kernel s 1).span), (0x2C, .real (kernel s 1).beta) ] ++
  (List.finRange 16).flatMap (fun n =>
    [ (BitVec.ofNat 8 (0x40 + 2 * n.val), .u32 (BitVec.ofNat 32 (kindNumber (buf s n)))),
      (BitVec.ofNat 8 (0x41 + 2 * n.val), .u32 (BitVec.ofNat 32 (elementCount (buf s n)))) ])

/-- Output `n` of the centred convolution as 42_pulse_shaper.md R146 writes it: the taps `m`, ascending, whose
partner `n + c - m` is an index of `x`. -/
def centredSum {R : Type} (N : NumSystem R) (x : List (Cplx R)) (h : List R) (n : Nat) : Cplx R :=
  let c := (h.length - 1) / 2
  ((List.range h.length).filter (fun m => decide (m ≤ n + c ∧ n + c - m < x.length))).foldl
    (fun acc m => cplxAdd N acc (cplxScale N (h.getD m N.zero) (x.getD (n + c - m) (cplxZero N)))) (cplxZero N)

/-- The waveform has no imaginary part (10_state.md R23). -/
def isRealWaveform (x : List (Cplx ℝ)) : Prop := ∀ z ∈ x, z.im = 0

end Sys2Proof.Machine
end

