-- ==== Sys2Proof/Certificates/Slice0/Obligations.lean ====
section
/-! DEFINITION. The statements for the provers. Each docstring names the rule of spec/ the statement formalises. -/

open Sys2Proof Sys2Proof.Machine

/-! ### Encoding -/

/-- Decoding an encoded command gives it back, whatever its operands (30_encoding.md R91, R94, R100). -/
def Obligations.DecodeReadsEveryEncodedCommand : Prop := ∀ i : Instr, decode (encode i) = .ok i

/-- A word that decodes is the encoding of what it decodes to: no bit of it is dropped (30_encoding.md R91, R93). -/
def Obligations.EncodeRestoresEveryDecodedWord : Prop := ∀ (w : Word) (i : Instr), decode w = .ok i → encode i = w

/-- The match and mask columns of R94 admit exactly the words the format table of R92 and the must-be-zero rule R93
admit. -/
def Obligations.DecoderAcceptsExactlyWellFormedWords : Prop :=
  ∀ w : Word, (∃ i, decode w = .ok i) ↔ wellFormedWord w = true

/-- No word is an instance of two rows of the opcode map (30_encoding.md R100). -/
def Obligations.NoWordMatchesTwoRows : Prop :=
  ∀ (w : Word) (r r' : OpRow), r ∈ opcodeTable → r' ∈ opcodeTable → r.admits w = true → r'.admits w = true →
    r.mnemonic = r'.mnemonic

/-- The worked encodings of 30_encoding.md R106 decode to the commands written beside them, and its illegal words
are illegal for the reason given. -/
def Obligations.WorkedEncodingsDecode : Prop :=
  decode 0x10000000 = .ok (.kgen 0) ∧ decode 0x10002000 = .ok (.kgen 1) ∧
  decode 0x31000000 = .ok (.enc 1 0 .nrz) ∧ decode 0x42100000 = .ok (.shape 2 1 0) ∧
  decode 0x53200000 = .ok (.mod 3 2) ∧ decode 0x64300000 = .ok (.awgn 4 3) ∧
  decode 0x55400000 = .ok (.demod 5 4) ∧ decode 0x76502000 = .ok (.mf 6 5 1) ∧
  decode 0x87600000 = .ok (.trec 7 6) ∧ decode 0x98700000 = .ok (.dec 8 7 .nrz) ∧
  decode 0xA0080000 = .ok (.ber 0 8) ∧ decode 0x20000000 = .ok (.genb 0) ∧ decode 0x2F000000 = .ok (.genb 15) ∧
  decode 0x31004000 = .ok (.enc 1 0 .manchester) ∧ decode 0x31008000 = .ok (.enc 1 0 .code2) ∧
  decode 0x98704000 = .ok (.dec 8 7 .manchester) ∧ decode 0x42102000 = .ok (.shape 2 1 1) ∧
  decode 0x00000000 = .error .opcode ∧ decode 0xB0000000 = .error .opcode ∧ decode 0x53200001 = .error .field ∧
  decode 0x53204000 = .error .field ∧ decode 0x10100000 = .error .field

/-! ### The step -/

/-- A CMD transaction in IDLE whose word decodes to `i` runs `i` on the state with that transaction taken off the
host's stream (20_memory.md R74; 60_exceptions.md R244). -/
def Obligations.StepRunsTheDecodedCommand : Prop :=
  ∀ (s : State) (w : Word) (rest : List Transaction) (i : Instr),
    s.pending = .cmd w :: rest → s.seqState = .idle → decode w = .ok i →
    step s = exec i { s with pending := rest }

/-- A word with a reserved opcode takes the fault IllegalCommand, sub-cause OPCODE, whatever its other bits; the
all-zero and the all-ones word are such words (30_encoding.md R95). The error record is the one of
60_exceptions.md R246 and nothing else changes. -/
def Obligations.ReservedOpcodeTakesIllegalCommand : Prop :=
  (∀ (s : State) (w : Word) (rest : List Transaction),
    s.pending = .cmd w :: rest → s.seqState = .idle →
    ((w.extractLsb' 28 4).toNat = 0 ∨ 0xB ≤ (w.extractLsb' 28 4).toNat) →
    step s = .next { s with
      pending := rest, err := 3, errInfo := 11, errSeq := s.seq, errCmd := w, seq := s.seq + 1,
      seqState := .faulted, response := some (.command (.error .illegalCommand)) }) ∧
  ((0x00000000 : Word).extractLsb' 28 4).toNat = 0 ∧ 0xB ≤ ((0xFFFFFFFF : Word).extractLsb' 28 4).toNat

/-- A word with a legal opcode and a must-be-zero bit at 1, by the format table of 30_encoding.md R92, takes the
fault IllegalCommand, sub-cause FIELD (R93), with the error record of 60_exceptions.md R246 and no other change. -/
def Obligations.MustBeZeroBitTakesIllegalCommand : Prop :=
  ∀ (s : State) (w : Word) (rest : List Transaction) (f : Format),
    s.pending = .cmd w :: rest → s.seqState = .idle →
    formatOf (w.extractLsb' 28 4).toNat = some f → mustBeZeroHolds f w = false →
    step s = .next { s with
      pending := rest, err := 3, errInfo := 12, errSeq := s.seq, errCmd := w, seq := s.seq + 1,
      seqState := .faulted, response := some (.command (.error .illegalCommand)) }

/-- FAULTED is sticky (60_exceptions.md R250): a command answers REJECTED, code 7, and changes nothing; a register
write but that of `ERR` and a buffer load answer REFUSED and change nothing; reads answer. That a length register
answers the length modulo 2^32 is the model's reading (log 12). -/
def Obligations.FaultedIsSticky : Prop :=
  ∀ (s : State) (rest : List Transaction), s.seqState = .faulted →
    (∀ w, s.pending = .cmd w :: rest →
      step s = .next { s with pending := rest, response := some (.command .rejected) }) ∧
    (∀ n v, n ≠ 0x01 → s.pending = .regwr n v :: rest →
      step s = .next { s with pending := rest, response := some .refused }) ∧
    (∀ n data, s.pending = .bufld n data :: rest →
      step s = .next { s with pending := rest, response := some .refused }) ∧
    (∀ n v, s.pending = .regrd n :: rest → (n, v) ∈ registerMap s →
      step s = .next { s with pending := rest, response := some (.value v) }) ∧
    (∀ n, s.pending = .bufrd n :: rest →
      step s = .next { s with pending := rest, response := some (.buffer (buf s n)) }) ∧
    (∀ k, s.pending = .kerrd k :: rest →
      step s = .next { s with pending := rest, response := some (.kernel (kernel s k)) }) ∧
    responseCode .rejected = 7

/-- ERRCLR (60_exceptions.md R251): in FAULTED a write of any value to `ERR` clears `ERR` and `ERRINFO`, makes the
sequencer IDLE, answers OK and changes nothing else; RESET is the other way out; in IDLE the write is REFUSED. -/
def Obligations.ErrclrReturnsFromAFault : Prop :=
  ∀ (s : State) (rest : List Transaction) (v : HostValue),
    (s.seqState = .faulted → s.pending = .regwr 0x01 v :: rest →
      step s = .next { s with pending := rest, err := 0, errInfo := 0, seqState := .idle, response := some .ok }) ∧
    (s.seqState = .faulted → s.pending = .reset :: rest → ∃ t, step s = .next t ∧ t.seqState = .idle) ∧
    (s.seqState = .idle → s.pending = .regwr 0x01 v :: rest →
      step s = .next { s with pending := rest, response := some .refused })

/-- Faults are precise (60_exceptions.md R247): a command that ends in FAULTED has written the error record, the
counter, the sequencer state and the response, and nothing else. -/
def Obligations.FaultsArePrecise : Prop :=
  ∀ (i : Instr) (s t : State), exec i s = .next t → t.seqState = .faulted →
    ∃ sub : SubCause, t = { s with
      err := errCode (subKind sub), errInfo := subCode sub, errSeq := s.seq, errCmd := encode i,
      seq := s.seq + 1, seqState := .faulted, response := some (.command (.error (subKind sub))) }

/-- Every command ends in a next state, completed or faulted, with the counter advanced by one modulo 2^32
(10_state.md R26; 60_exceptions.md R244; 70_reset_and_hazards.md R303); a completed one answers code 0 and leaves the
error registers alone (20_memory.md R74; 60_exceptions.md R248); a faulted one answers the code it writes to `ERR`,
and the codes are 0 OK, 1 InvalidArgument, 2 InsufficientData, 3 IllegalCommand, 7 REJECTED (R74). -/
def Obligations.EveryCommandEndsAndAdvancesSeq : Prop :=
  (∀ (i : Instr) (s : State), ∃ t, exec i s = .next t ∧ t.seq = s.seq + 1 ∧
    (t.seqState = .idle ∧ t.response = some (.command .ok) ∧ sameErrorRecord s t ∨
     t.seqState = .faulted ∧ ∃ kind, t.response = some (.command (.error kind)) ∧ t.err = errCode kind ∧
       responseCode (.error kind) = t.err ∧ (t.err = 1 ∨ t.err = 2))) ∧
  responseCode .ok = 0 ∧ responseCode (.error .invalidArgument) = 1 ∧ responseCode (.error .insufficientData) = 2 ∧
  responseCode (.error .illegalCommand) = 3 ∧ responseCode .rejected = 7

/-! ### The checks of each command, in their order (60_exceptions.md R242) -/

/-- The checks of KGEN, in order (40_filter_design.md R121). -/
def Obligations.KgenFaultsInOrder : Prop :=
  ∀ (k : KerNo) (s : State),
    (s.sps = 0 → faults (.kgen k) s 1 4) ∧
    (s.sps ≠ 0 → s.span = 0 → faults (.kgen k) s 1 5) ∧
    (s.sps ≠ 0 → s.span ≠ 0 → ¬ betaInRange s → faults (.kgen k) s 1 6) ∧
    (s.sps ≠ 0 → s.span ≠ 0 → betaInRange s → s.span.toNat * s.sps.toNat % 2 = 1 → faults (.kgen k) s 1 7) ∧
    (s.sps ≠ 0 → s.span ≠ 0 → betaInRange s → s.span.toNat * s.sps.toNat % 2 = 0 →
      Config.kcap < s.span.toNat * s.sps.toNat + 1 → faults (.kgen k) s 1 9)

/-- The one check of GENB (48_source_and_ber.md R220): CAPACITY. -/
def Obligations.GenbFaultsPastCapacity : Prop :=
  ∀ (d : BufNo) (s : State), Config.bufcap < s.nbits.toNat → faults (.genb d) s 1 9

/-- The checks of ENC, in order (41_line_encoder.md R136): CODE, KIND, ALIAS, CAPACITY. -/
def Obligations.EncFaultsInOrder : Prop :=
  ∀ (d a : BufNo) (code : LineCode) (s : State),
    (code = .code2 ∨ code = .code3 → faults (.enc d a code) s 1 1) ∧
    (code = .nrz ∨ code = .manchester →
      ((∀ xs, buf s a ≠ .bits xs) → faults (.enc d a code) s 1 2) ∧
      (∀ xs, buf s a = .bits xs →
        (d = a → faults (.enc d a code) s 1 3) ∧
        (d ≠ a → code = .nrz → Config.bufcap < xs.length → faults (.enc d a code) s 1 9) ∧
        (d ≠ a → code = .manchester → Config.bufcap < 2 * xs.length → faults (.enc d a code) s 1 9)))

/-- The checks of DEC, in order (47_bit_decision.md R205): CODE, KIND, ALIAS. -/
def Obligations.DecFaultsInOrder : Prop :=
  ∀ (d a : BufNo) (code : LineCode) (s : State),
    (code = .code2 ∨ code = .code3 → faults (.dec d a code) s 1 1) ∧
    (code = .nrz ∨ code = .manchester →
      ((∀ xs, buf s a ≠ .samples xs) → faults (.dec d a code) s 1 2) ∧
      (∀ xs, buf s a = .samples xs → d = a → faults (.dec d a code) s 1 3))

/-- The checks of SHAPE (42_pulse_shaper.md R145) and of MF (45_matched_filter.md R186), in order: KIND, ALIAS, for
SHAPE PARAM_SPS, KERNEL, for SHAPE CAPACITY. -/
def Obligations.ShapeAndMfFaultInOrder : Prop :=
  ∀ (d a : BufNo) (k : KerNo) (s : State),
    ((∀ xs, buf s a ≠ .samples xs) → faults (.shape d a k) s 1 2 ∧ faults (.mf d a k) s 1 2) ∧
    (∀ xs, buf s a = .samples xs →
      (d = a → faults (.shape d a k) s 1 3 ∧ faults (.mf d a k) s 1 3) ∧
      (d ≠ a → s.sps = 0 → faults (.shape d a k) s 1 4) ∧
      (d ≠ a → s.sps ≠ 0 → (kernel s k).valid = false → faults (.shape d a k) s 1 8) ∧
      (d ≠ a → (kernel s k).valid = false → faults (.mf d a k) s 1 8) ∧
      (d ≠ a → s.sps ≠ 0 → (kernel s k).valid = true → Config.bufcap < xs.length * s.sps.toNat →
        faults (.shape d a k) s 1 9))

/-- The checks of MIX (43_carrier_mixer.md R161), AWGN (44_channel_noise.md R170) and TREC
(46_timing_recovery.md R190), in order: KIND, ALIAS, for MIX and TREC PARAM_SPS, for TREC SHORT. -/
def Obligations.MixAwgnAndTrecFaultInOrder : Prop :=
  ∀ (d a : BufNo) (s : State),
    ((∀ xs, buf s a ≠ .samples xs) →
      faults (.mix d a) s 1 2 ∧ faults (.awgn d a) s 1 2 ∧ faults (.trec d a) s 1 2) ∧
    (∀ xs, buf s a = .samples xs →
      (d = a → faults (.mix d a) s 1 3 ∧ faults (.awgn d a) s 1 3 ∧ faults (.trec d a) s 1 3) ∧
      (d ≠ a → s.sps = 0 → faults (.mix d a) s 1 4 ∧ faults (.trec d a) s 1 4) ∧
      (d ≠ a → s.sps ≠ 0 → xs.length < 10 * s.sps.toNat → faults (.trec d a) s 2 10))

/-- The checks of BER, in order: both are KIND (48_source_and_ber.md R223). -/
def Obligations.BerFaultsOnKind : Prop :=
  ∀ (a b : BufNo) (s : State),
    ((∀ xs, buf s a ≠ .bits xs) → faults (.ber a b) s 1 2) ∧
    ((∀ xs, buf s b ≠ .bits xs) → faults (.ber a b) s 1 2)

/-! ### What each command does when its checks pass. The state after is the state before with the fields named
changed and no other: that is the frame. -/

/-- KGEN stores the normalised RRC taps, by the three branches of 40_filter_design.md R123, in the arithmetic of the
machine's NUM and in the order of R17, with the parameters they were built from (R122 to R125). -/
def Obligations.KgenStoresTheNormalisedTaps : Prop :=
  ∀ (k : KerNo) (s : State),
    s.sps ≠ 0 → s.span ≠ 0 → betaInRange s → s.span.toNat * s.sps.toNat % 2 = 0 →
    s.span.toNat * s.sps.toNat + 1 ≤ Config.kcap →
    ∃ g h : List Scalar,
      exec (.kgen k) s = .next { s with
        kernels := s.kernels.set k { valid := true, sps := s.sps, span := s.span, beta := s.beta, h := h },
        seq := s.seq + 1, seqState := .idle, response := some (.command .ok) } ∧
      g.length = s.span.toNat * s.sps.toNat + 1 ∧
      (∀ i, i < s.span.toNat * s.sps.toNat + 1 →
        let N := num
        let beta := s.beta
        let c := s.span.toNat * s.sps.toNat / 2
        let four := N.ofNat 4
        let t := N.div (N.sub (N.ofNat i) (N.ofNat c)) (N.ofNat s.sps.toNat)
        let u := N.mul (N.mul four beta) t
        let v := N.div N.pi (N.mul four beta)
        let p := N.div (N.ofNat 2) N.pi
        g[i]? = some (
          if i = c then N.add (N.sub N.one beta) (N.div (N.mul four beta) N.pi)
          else if N.eq (N.mul (N.mul four beta) (N.ofNat ((i : Int) - (c : Int)).natAbs)) (N.ofNat s.sps.toNat) then
            N.mul (N.div beta (N.sqrt (N.ofNat 2)))
              (N.add (N.mul (N.add N.one p) (N.sin v)) (N.mul (N.sub N.one p) (N.cos v)))
          else
            N.div (N.add (N.sin (N.mul (N.mul N.pi t) (N.sub N.one beta)))
                (N.mul u (N.cos (N.mul (N.mul N.pi t) (N.add N.one beta)))))
              (N.mul (N.mul N.pi t) (N.sub N.one (N.mul u u))))) ∧
      h = g.map (fun x =>
        num.div x (num.sqrt (g.foldl (fun acc y => num.add acc (num.mul y y)) num.zero)))

/-- GENB takes exactly NBITS bit draws in ascending order and stores them (48_source_and_ber.md R221). -/
def Obligations.GenbStoresTheNextDraws : Prop :=
  ∀ (d : BufNo) (s : State), s.nbits.toNat ≤ Config.bufcap →
    exec (.genb d) s = .next { s with
      buffers := s.buffers.set d (.bits ((List.range s.nbits.toNat).map (bitDraw s.rngState))),
      rngState := bitState s.rngState s.nbits.toNat,
      seq := s.seq + 1, seqState := .idle, response := some (.command .ok) }

/-- ENC with NRZ: each bit becomes exactly -1 or +1 with imaginary part 0, here as binary64 patterns
(41_line_encoder.md R135). -/
def Obligations.EncNrzMapsEachBit : Prop :=
  ∀ (d a : BufNo) (s : State) (xs : List Bool), buf s a = .bits xs → d ≠ a → xs.length ≤ Config.bufcap →
    exec (.enc d a .nrz) s = .next { s with
      buffers := s.buffers.set d (.samples (xs.map (fun b =>
        if b then ⟨0x3FF0000000000000, 0⟩ else ⟨0xBFF0000000000000, 0⟩))),
      seq := s.seq + 1, seqState := .idle, response := some (.command .ok) }

/-- ENC with MANCHESTER: bit 0 becomes +1 then -1, bit 1 becomes -1 then +1, and the length doubles
(41_line_encoder.md R135). -/
def Obligations.EncManchesterMapsEachBitToTwo : Prop :=
  ∀ (d a : BufNo) (s : State) (xs : List Bool), buf s a = .bits xs → d ≠ a → 2 * xs.length ≤ Config.bufcap →
    ∃ y : List Sample,
      exec (.enc d a .manchester) s = .next { s with
        buffers := s.buffers.set d (.samples y),
        seq := s.seq + 1, seqState := .idle, response := some (.command .ok) } ∧
      y.length = 2 * xs.length ∧
      ∀ (i : Nat) (b : Bool), xs[i]? = some b →
        y[2 * i]? = some ⟨if b then 0xBFF0000000000000 else 0x3FF0000000000000, 0⟩ ∧
        y[2 * i + 1]? = some ⟨if b then 0x3FF0000000000000 else 0xBFF0000000000000, 0⟩

/-- SHAPE puts symbol `q` at index `q*sps` of a zero waveform of `Ls*sps` samples and filters it with the kernel it
names, output by output as 42_pulse_shaper.md R146 writes the sum (R147). -/
def Obligations.ShapeUpsamplesAndFilters : Prop :=
  ∀ (d a : BufNo) (k : KerNo) (s : State) (sym : List Sample),
    buf s a = .samples sym → d ≠ a → s.sps ≠ 0 → (kernel s k).valid = true →
    sym.length * s.sps.toNat ≤ Config.bufcap →
    ∃ up y : List Sample,
      exec (.shape d a k) s = .next { s with
        buffers := s.buffers.set d (.samples y),
        seq := s.seq + 1, seqState := .idle, response := some (.command .ok) } ∧
      up.length = sym.length * s.sps.toNat ∧
      (∀ q, q < sym.length → up[q * s.sps.toNat]? = sym[q]?) ∧
      (∀ n, n < sym.length * s.sps.toNat → n % s.sps.toNat ≠ 0 → up[n]? = some ⟨0, 0⟩) ∧
      y.length = sym.length * s.sps.toNat ∧
      ∀ n, n < sym.length * s.sps.toNat → y[n]? = some (centredSum num up (kernel s k).h n)

/-- MIX multiplies sample `t` by `cos(((2*pi*fc*t)/sps) + 0)`, `t` from 0 (43_carrier_mixer.md R160). -/
def Obligations.MixMultipliesByTheCarrier : Prop :=
  ∀ (d a : BufNo) (s : State) (x : List Sample), buf s a = .samples x → d ≠ a → s.sps ≠ 0 →
    ∃ y : List Sample,
      exec (.mix d a) s = .next { s with
        buffers := s.buffers.set d (.samples y),
        seq := s.seq + 1, seqState := .idle, response := some (.command .ok) } ∧
      y.length = x.length ∧
      ∀ (t : Nat) (z : Sample), x[t]? = some z →
        let carrier := num.cos (num.add
          (num.div (num.mul (num.mul (num.mul (num.ofNat 2) num.pi) s.fc) (num.ofNat t)) (num.ofNat s.sps.toNat))
          num.zero)
        y[t]? = some ⟨num.mul carrier z.re, num.mul carrier z.im⟩

/-- AWGN adds `sigma` times two Gaussian draws to each sample, sample by sample and real part first, with the
`sigma` of 44_channel_noise.md R171, and takes exactly `2*L` draws (R172); an empty waveform takes none (R174). -/
def Obligations.AwgnAddsScaledDraws : Prop :=
  ∀ (d a : BufNo) (s : State) (x : List Sample), buf s a = .samples x → d ≠ a →
    ∃ y : List Sample,
      exec (.awgn d a) s = .next { s with
        buffers := s.buffers.set d (.samples y), rngState := gaussState s.rngState (2 * x.length),
        seq := s.seq + 1, seqState := .idle, response := some (.command .ok) } ∧
      y.length = x.length ∧
      ∀ (t : Nat) (z : Sample), x[t]? = some z →
        let N := num
        let power := N.div
          (x.foldl (fun acc w => N.add acc (N.add (N.mul w.re w.re) (N.mul w.im w.im))) N.zero) (N.ofNat x.length)
        let sigma := N.sqrt (N.div (N.div power (N.pow10 (N.div s.snrDb (N.ofNat 10)))) (N.ofNat 2))
        y[t]? = some ⟨N.add z.re (N.mul sigma (gaussDraw s.rngState (2 * t))),
          N.add z.im (N.mul sigma (gaussDraw s.rngState (2 * t + 1)))⟩

/-- MF is the centred convolution of its source with the kernel it names, output by output as 42_pulse_shaper.md
R146 writes the sum (45_matched_filter.md R185). -/
def Obligations.MfFiltersWithTheNamedKernel : Prop :=
  ∀ (d a : BufNo) (k : KerNo) (s : State) (x : List Sample),
    buf s a = .samples x → d ≠ a → (kernel s k).valid = true →
    ∃ y : List Sample,
      exec (.mf d a k) s = .next { s with
        buffers := s.buffers.set d (.samples y),
        seq := s.seq + 1, seqState := .idle, response := some (.command .ok) } ∧
      y.length = x.length ∧
      ∀ n, n < x.length → y[n]? = some (centredSum num x (kernel s k).h n)

/-- TREC picks an offset below SPS that no offset's metric exceeds, the lowest of them among metrics that are
numbers, writes it to OFFSET, and takes every SPS-th sample from it on and no other
(46_timing_recovery.md R191 to R194). -/
def Obligations.TrecSamplesAtTheLargestMetric : Prop :=
  ∀ (d a : BufNo) (s : State) (x : List Sample),
    buf s a = .samples x → d ≠ a → s.sps ≠ 0 → 10 * s.sps.toNat ≤ x.length →
    ∃ (off : Nat) (y : List Sample),
      exec (.trec d a) s = .next { s with
        buffers := s.buffers.set d (.samples y), offset := BitVec.ofNat 32 off,
        seq := s.seq + 1, seqState := .idle, response := some (.command .ok) } ∧
      off < s.sps.toNat ∧
      (let N := num
       let modulus := fun z : Sample => N.sqrt (N.add (N.mul z.re z.re) (N.mul z.im z.im))
       let metric := fun o : Nat => N.div
         ((List.range 10).foldl (fun acc blk => N.add acc (modulus (x.getD (blk * s.sps.toNat + o) ⟨0, 0⟩))) N.zero)
         (N.ofNat 10)
       (∀ o, o < s.sps.toNat → N.lt (metric off) (metric o) = false) ∧
       (∀ o, o < off → isNan (metric o) = false → N.lt (metric o) (metric off) = true)) ∧
      (y.length - 1) * s.sps.toNat < x.length - off ∧ x.length - off ≤ y.length * s.sps.toNat ∧
      ∀ q, q < y.length → y[q]? = x[off + q * s.sps.toNat]?

/-- DEC with NRZ: a bit is 1 exactly where the real part is above 0; AMBIGCNT and AMBIG are cleared
(47_bit_decision.md R206, R208). -/
def Obligations.DecNrzSlicesAtZero : Prop :=
  ∀ (d a : BufNo) (s : State) (x : List Sample), buf s a = .samples x → d ≠ a →
    exec (.dec d a .nrz) s = .next { s with
      buffers := s.buffers.set d (.bits (x.map (fun z => num.lt num.zero z.re))),
      ambigCnt := 0, ambig := false,
      seq := s.seq + 1, seqState := .idle, response := some (.command .ok) }

/-- DEC with MANCHESTER: the pair of samples 2p and 2p+1 gives 0 when high then low, 1 when low then high, else 0
and is counted; a last odd sample is ignored (47_bit_decision.md R207, R208, R209). That AMBIGCNT takes the count modulo
2^32 is the model's reading (log 12); no buffer within BUFCAP has so many pairs. -/
def Obligations.DecManchesterDecidesPairs : Prop :=
  ∀ (d a : BufNo) (s : State) (x : List Sample), buf s a = .samples x → d ≠ a →
    let re := fun i : Nat => (x.getD i ⟨0, 0⟩).re
    let isZero := fun p : Nat => num.lt num.zero (re (2 * p)) && num.lt (re (2 * p + 1)) num.zero
    let isOne := fun p : Nat => num.lt (re (2 * p)) num.zero && num.lt num.zero (re (2 * p + 1))
    let amb := ((List.range (x.length / 2)).filter (fun p => !isZero p && !isOne p)).length
    exec (.dec d a .manchester) s = .next { s with
      buffers := s.buffers.set d (.bits ((List.range (x.length / 2)).map (fun p => !isZero p && isOne p))),
      ambigCnt := BitVec.ofNat 32 amb, ambig := decide (amb ≠ 0),
      seq := s.seq + 1, seqState := .idle, response := some (.command .ok) }

/-- BER counts the positions below the shorter length at which the two sequences differ, and writes the count, the
length and their quotient, 0 where no position was compared, and DEGEN (48_source_and_ber.md R224, R225). That BITERRS
and CMPLEN take the counts modulo 2^32 is the model's reading (log 12); no buffer within BUFCAP has so many bits. -/
def Obligations.BerCountsDifferences : Prop :=
  ∀ (a b : BufNo) (s : State) (xs ys : List Bool), buf s a = .bits xs → buf s b = .bits ys →
    let m := min xs.length ys.length
    let errs := ((List.range m).filter (fun i => xs.getD i false != ys.getD i false)).length
    exec (.ber a b) s = .next { s with
      bitErrs := BitVec.ofNat 32 errs, cmpLen := BitVec.ofNat 32 m,
      berVal := if m = 0 then num.zero else num.div (num.ofNat errs) (num.ofNat m),
      degen := decide (m = 0),
      seq := s.seq + 1, seqState := .idle, response := some (.command .ok) }

/-! ### What the formulas compute over the reference NUM, the exact reals (00_scope.md R10) -/

/-- Every kernel KGEN builds from parameters it takes has the odd length `span*sps + 1` and unit energy
(40_filter_design.md R126 (a) and (b), R124). -/
def Obligations.KernelHasOddLengthAndUnitEnergy : Prop :=
  ∀ (sps span : Nat) (beta : ℝ), 0 < sps → 0 < span → 0 < beta → beta ≤ 1 → span * sps % 2 = 0 →
    let h := kernelTaps realNum sps span beta
    h.length = span * sps + 1 ∧ h.length % 2 = 1 ∧ (h.map (fun x => x ^ 2)).sum = 1

/-- Every kernel is even-symmetric (40_filter_design.md R126 (c)). -/
def Obligations.KernelIsEvenSymmetric : Prop :=
  ∀ (sps span : Nat) (beta : ℝ) (i : Nat), 0 < sps → span * sps % 2 = 0 → i ≤ span * sps →
    (kernelTaps realNum sps span beta)[span * sps - i]? = (kernelTaps realNum sps span beta)[i]?

/-- KGEN divides by zero for no parameters it takes: the norm is above 1 (40_filter_design.md R124), and wherever the
third branch is taken its denominator is not 0 (R123). -/
def Obligations.KernelNeverDividesByZero : Prop :=
  ∀ (sps span : Nat) (beta : ℝ), 0 < sps → 0 < span → 0 < beta → beta ≤ 1 → span * sps % 2 = 0 →
    1 < energy realNum (rawTaps realNum sps span beta) ∧
    ∀ i, i ≤ span * sps → i ≠ span * sps / 2 →
      4 * beta * |(i : ℝ) - ((span * sps / 2 : Nat) : ℝ)| ≠ sps →
      let t := ((i : ℝ) - ((span * sps / 2 : Nat) : ℝ)) / sps
      Real.pi * t * (1 - (4 * beta * t) ^ 2) ≠ 0

/-- The centred convolution is the full convolution of the two sequences, of which the values starting at the
centre index are kept: `y[n]` is the sum over `j` of `x[j] * h[n - j + c]`, with `h` zero outside its range; real and
imaginary parts are filtered independently (42_pulse_shaper.md R146). -/
def Obligations.ConvSameIsTheCentredPartOfTheFullConvolution : Prop :=
  ∀ (x : List (Cplx ℝ)) (h : List ℝ), h.length % 2 = 1 →
    (convSame realNum x h).length = x.length ∧
    ∀ n, n < x.length →
      let c := (h.length - 1) / 2
      let partner := fun j : Nat => if j ≤ n + c then h.getD (n + c - j) 0 else 0
      (convSame realNum x h)[n]? = some
        ⟨((List.range x.length).map (fun j => (x.getD j ⟨0, 0⟩).re * partner j)).sum,
         ((List.range x.length).map (fun j => (x.getD j ⟨0, 0⟩).im * partner j)).sum⟩

/-- With an even-symmetric kernel, convolving is correlating: `y[n]` is the sum over `m` of `h[m] * x[n - c + m]`
(45_matched_filter.md R187). -/
def Obligations.SymmetricConvolutionIsCorrelation : Prop :=
  ∀ (x : List (Cplx ℝ)) (h : List ℝ) (c : Nat), h.length = 2 * c + 1 →
    (∀ i, i ≤ 2 * c → h.getD (2 * c - i) 0 = h.getD i 0) →
    ∀ n, n < x.length →
      (convSame realNum x h)[n]? = some
        ⟨((List.range h.length).map (fun m => if c ≤ n + m then h.getD m 0 * (x.getD (n + m - c) ⟨0, 0⟩).re else 0)).sum,
         ((List.range h.length).map (fun m => if c ≤ n + m then h.getD m 0 * (x.getD (n + m - c) ⟨0, 0⟩).im else 0)).sum⟩

/-- The closed form of SHAPE: output `n` is the sum over the symbols `q` of `sym[q] * h[n - q*sps + c]`, a term being
dropped when its tap index is outside the kernel (42_pulse_shaper.md R147). -/
def Obligations.ShapedWaveformIsASumOfPulses : Prop :=
  ∀ (sps : Nat) (h : List ℝ) (sym : List (Cplx ℝ)), 0 < sps → h.length % 2 = 1 →
    (shapeSamples realNum sps h sym).length = sym.length * sps ∧
    ∀ n, n < sym.length * sps →
      let c := (h.length - 1) / 2
      let tap := fun q : Nat => if q * sps ≤ n + c then h.getD (n + c - q * sps) 0 else 0
      (shapeSamples realNum sps h sym)[n]? = some
        ⟨((List.range sym.length).map (fun q => (sym.getD q ⟨0, 0⟩).re * tap q)).sum,
         ((List.range sym.length).map (fun q => (sym.getD q ⟨0, 0⟩).im * tap q)).sum⟩

/-- Modulating and then demodulating with the same FC and SPS gives `x[t] * (1 + cos(2*theta_t)) / 2` with
`theta_t = 2*pi*fc*t/sps` (43_carrier_mixer.md R162). -/
def Obligations.DemodulationGivesTheHalfAmplitudeBaseband : Prop :=
  ∀ (fc : ℝ) (sps : Nat) (x : List (Cplx ℝ)) (t : Nat) (z : Cplx ℝ), 0 < sps → x[t]? = some z →
    let theta : ℝ := 2 * Real.pi * fc * (t : ℝ) / (sps : ℝ)
    (mixSamples realNum fc sps 0 (mixSamples realNum fc sps 0 x))[t]? = some
      ⟨z.re * (1 + Real.cos (2 * theta)) / 2, z.im * (1 + Real.cos (2 * theta)) / 2⟩

/-- The added noise has the power the SNR asks for: `2 * sigma^2 = P / 10^(snr_db/10)` with `P` the mean of the
squared moduli, and `sigma` is not negative (44_channel_noise.md R171). -/
def Obligations.NoisePowerFollowsTheSnr : Prop :=
  ∀ (snrDb : ℝ) (x : List (Cplx ℝ)), x ≠ [] →
    let sigma := noiseSigma realNum snrDb x
    let power : ℝ := (x.map (fun z : Cplx ℝ => z.re ^ 2 + z.im ^ 2)).sum / (x.length : ℝ)
    0 ≤ sigma ∧ 2 * sigma ^ 2 = power / (10 : ℝ) ^ (snrDb / 10)

/-- The offset of TREC is the smallest one no metric exceeds: it lies below SPS, no offset's metric is above its own,
and every lower offset has a metric strictly below it, the metric being the mean modulus over the first ten blocks
(46_timing_recovery.md R191, R192). -/
def Obligations.TimingOffsetIsTheLeastMaximum : Prop :=
  ∀ (sps : Nat) (x : List (Cplx ℝ)), 0 < sps →
    let metric : Nat → ℝ := fun o => ((List.range 10).map (fun blk =>
      Real.sqrt ((x.getD (blk * sps + o) ⟨0, 0⟩).re ^ 2 + (x.getD (blk * sps + o) ⟨0, 0⟩).im ^ 2))).sum / 10
    timingOffset realNum sps x < sps ∧
    (∀ o, o < sps → metric o ≤ metric (timingOffset realNum sps x)) ∧
    ∀ o, o < timingOffset realNum sps x → metric o < metric (timingOffset realNum sps x)

/-- A pulse-shaped waveform, of `n*sps` samples, gives exactly `n` samples whatever the offset in `0..sps-1`
(46_timing_recovery.md R193). -/
def Obligations.DownsamplingGivesOneSampleAPerSymbol : Prop :=
  ∀ (sps off n : Nat) (x : List Sample), off < sps → x.length = n * sps →
    (downsample num sps off x).length = n

/-- Every command but AWGN takes real waveforms to real waveforms (10_state.md R23): ENC, SHAPE, MIX, MF and TREC. -/
def Obligations.RealWaveformsStayReal : Prop :=
  (∀ code bits, isRealWaveform (encodeBits realNum code bits)) ∧
  (∀ x : List (Cplx ℝ), isRealWaveform x →
    (∀ sps h, isRealWaveform (shapeSamples realNum sps h x)) ∧
    (∀ fc sps phase, isRealWaveform (mixSamples realNum fc sps phase x)) ∧
    (∀ h, isRealWaveform (convSame realNum x h)) ∧
    (∀ sps off, isRealWaveform (downsample realNum sps off x)))

/-! ### The number system and the round trips -/

/-- The machine's NUM and the reference NUM have the properties N1 to N5 of 00_scope.md R11; `lt` of the machine's
NUM agrees with the order of the reals its finite patterns stand for. That the machine's NUM is binary64, and how it
rounds, are the model's choice (log 1, log 2); equality between values is read as NUM's own `eq` (log 11). -/
def Obligations.MachineNumHasTheRequiredProperties : Prop :=
  NumProperties num (fun x => isFinite x = true) ∧
  (∀ x y : Scalar, isFinite x = true → isFinite y = true →
    (num.lt x y = true ↔ scalarValue x < scalarValue y) ∧ (num.eq x y = true ↔ scalarValue x = scalarValue y)) ∧
  NumProperties realNum (fun _ => True) ∧
  (∀ x y : ℝ, realNum.lt x y = true ↔ x < y)

/-- The round trips of 47_bit_decision.md R211, in every NUM with the properties of 00_scope.md R11: under either
line code decoding gives the bits back and meets no ambiguous pair; and, which the spec derives, NRZ symbols decoded as
MANCHESTER give half as many bits, rounded down, and a pair of equal symbols is ambiguous. The NUM's equalities are read
with its own `eq` (log 11). -/
def Obligations.LineCodesRoundTripInEveryNum : Prop :=
  ∀ (R : Type) (N : NumSystem R) (finite : R → Prop), NumProperties N finite →
    ∀ bits : List Bool,
      decideBits N .nrz (encodeBits N .nrz bits) = bits ∧
      decideBits N .manchester (encodeBits N .manchester bits) = bits ∧
      ambiguousCount N .manchester (encodeBits N .manchester bits) = 0 ∧
      (decideBits N .manchester (encodeBits N .nrz bits)).length = bits.length / 2 ∧
      ∀ b : Bool, ambiguousCount N .manchester (encodeBits N .nrz [b, b]) = 1

/-- On the machine, ENC then DEC with the same line code puts the source bits in the last destination, with no
ambiguous pair (47_bit_decision.md R211). -/
def Obligations.EncThenDecRestoresTheBits : Prop :=
  ∀ (a d e : BufNo) (code : LineCode) (s : State) (xs : List Bool),
    buf s a = .bits xs → d ≠ a → e ≠ d → code = .nrz ∨ code = .manchester → xs.length ≤ Config.bufcap →
    (code = .manchester → 2 * xs.length ≤ Config.bufcap) →
    ∃ t u, exec (.enc d a code) s = .next t ∧ exec (.dec e d code) t = .next u ∧
      u.seqState = .idle ∧ buf u e = .bits xs ∧ u.ambigCnt = 0 ∧ u.ambig = false

/-! ### The host's transactions -/

/-- REGRD of a register of 10_state.md R27 answers its value; of any other number, REFUSED; nothing else changes
(20_memory.md R67). The word `STATUS` answers has STATE in bits 1:0, 0 in IDLE and 2 in FAULTED, DEGEN in bit 2, AMBIG
in bit 3 and zeros above (10_state.md R36); `BnKIND` answers 0 for EMPTY, 1 for BITS, 2 for SAMPLES (R22). That a
length register answers the length modulo 2^32 is the model's reading (log 12). -/
def Obligations.RegisterReadAnswersTheMap : Prop :=
  ∀ (s : State) (n : BitVec 8) (rest : List Transaction),
    s.pending = .regrd n :: rest → s.seqState ≠ .busy →
    (∀ v, (n, v) ∈ registerMap s → step s = .next { s with pending := rest, response := some (.value v) }) ∧
    ((∀ v, (n, v) ∉ registerMap s) → step s = .next { s with pending := rest, response := some .refused }) ∧
    (n = 0x00 → ∃ w : Word, step s = .next { s with pending := rest, response := some (.value (.u32 w)) } ∧
      (s.seqState = .idle → w.extractLsb' 0 2 = 0) ∧ (s.seqState = .faulted → w.extractLsb' 0 2 = 2) ∧
      w.getLsbD 2 = s.degen ∧ w.getLsbD 3 = s.ambig ∧ w.extractLsb' 4 28 = 0)

/-- REGWR (20_memory.md R68; 10_state.md R31): in IDLE a value of the register's type goes into an RW register, with
the reseeding of `SEED`, and answers OK; any other write is REFUSED and changes nothing; in FAULTED a write of `ERR` is
ERRCLR and every other is REFUSED. -/
def Obligations.RegisterWriteChecksTypeAndAccess : Prop :=
  ∀ (s : State) (n : BitVec 8) (v : HostValue) (rest : List Transaction), s.pending = .regwr n v :: rest →
    (s.seqState = .idle →
      (∀ m : Nat, m < 2 ^ 32 → v = .int m →
        (n = 0x08 → step s = .next { s with pending := rest, sps := BitVec.ofNat 32 m, response := some .ok }) ∧
        (n = 0x09 → step s = .next { s with pending := rest, span := BitVec.ofNat 32 m, response := some .ok }) ∧
        (n = 0x0A → step s = .next { s with pending := rest, nbits := BitVec.ofNat 32 m, response := some .ok })) ∧
      (∀ m : Nat, m < 2 ^ 64 → v = .int m → n = 0x0B →
        step s = .next { s with
          pending := rest, seed := BitVec.ofNat 64 m, rngState := Config.rngSeed (BitVec.ofNat 64 m),
          response := some .ok }) ∧
      (∀ x : Scalar, isFinite x = true → v = .real x →
        (n = 0x0C → step s = .next { s with pending := rest, beta := x, response := some .ok }) ∧
        (n = 0x0D → step s = .next { s with pending := rest, fc := x, response := some .ok }) ∧
        (n = 0x0E → step s = .next { s with pending := rest, snrDb := x, response := some .ok })) ∧
      ((n ≠ 0x08 ∧ n ≠ 0x09 ∧ n ≠ 0x0A ∧ n ≠ 0x0B ∧ n ≠ 0x0C ∧ n ≠ 0x0D ∧ n ≠ 0x0E) ∨
        ((n = 0x08 ∨ n = 0x09 ∨ n = 0x0A) ∧ ∀ m : Nat, m < 2 ^ 32 → v ≠ .int m) ∨
        (n = 0x0B ∧ ∀ m : Nat, m < 2 ^ 64 → v ≠ .int m) ∨
        ((n = 0x0C ∨ n = 0x0D ∨ n = 0x0E) ∧ ∀ x : Scalar, isFinite x = true → v ≠ .real x) →
        step s = .next { s with pending := rest, response := some .refused })) ∧
    (s.seqState = .faulted →
      (n = 0x01 → step s = .next { s with
        pending := rest, err := 0, errInfo := 0, seqState := .idle, response := some .ok }) ∧
      (n ≠ 0x01 → step s = .next { s with pending := rest, response := some .refused }))

/-- BUFLD in IDLE: bits that are all 0 or 1, or samples that are all pairs of finite reals, at most BUFCAP of them,
replace the buffer; any other load is REFUSED and changes nothing (20_memory.md R70, R71). -/
def Obligations.BufferLoadTakesOnlyWellTypedData : Prop :=
  ∀ (s : State) (n : BufNo) (rest : List Transaction), s.seqState = .idle →
    (∀ bits : List Bool, s.pending = .bufld n (.bits (bits.map (fun b => if b then 1 else 0))) :: rest →
      bits.length ≤ Config.bufcap →
      step s = .next { s with
        pending := rest, buffers := s.buffers.set n (.bits bits), response := some .ok }) ∧
    (∀ xs : List Int, s.pending = .bufld n (.bits xs) :: rest →
      (∃ v ∈ xs, v ≠ 0 ∧ v ≠ 1) ∨ Config.bufcap < xs.length →
      step s = .next { s with pending := rest, response := some .refused }) ∧
    (∀ xs : List Sample, s.pending = .bufld n (.samples xs) :: rest →
      (∀ z ∈ xs, isFinite z.re = true ∧ isFinite z.im = true) → xs.length ≤ Config.bufcap →
      step s = .next { s with
        pending := rest, buffers := s.buffers.set n (.samples xs), response := some .ok }) ∧
    (∀ xs : List Sample, s.pending = .bufld n (.samples xs) :: rest →
      (∃ z ∈ xs, isFinite z.re = false ∨ isFinite z.im = false) ∨ Config.bufcap < xs.length →
      step s = .next { s with pending := rest, response := some .refused })

/-- BUFRD and KERRD answer the buffer and the kernel store, and reading changes nothing (20_memory.md R72, R73). -/
def Obligations.BufferAndKernelReadsDoNotConsume : Prop :=
  ∀ (s : State) (rest : List Transaction), s.seqState ≠ .busy →
    (∀ n, s.pending = .bufrd n :: rest →
      step s = .next { s with pending := rest, response := some (.buffer (buf s n)) }) ∧
    (∀ k, s.pending = .kerrd k :: rest →
      step s = .next { s with pending := rest, response := some (.kernel (kernel s k)) })

/-- RESET, in any state of the sequencer, BUSY included, leaves the reset state (20_memory.md R75;
70_reset_and_hazards.md R280). That the host's own stream goes on and that RESET has no answer is the model's form
of the host (log 8). -/
def Obligations.ResetTransactionGivesTheResetState : Prop :=
  ∀ (s : State) (rest : List Transaction), s.pending = .reset :: rest →
    step s = .next { State.reset with pending := rest }

/-- Writing the same SEED reproduces the bits: GENB after it, with the same NBITS, stores the same bits and leaves the
random source in the same state, whatever either machine drew before and whichever buffer is named (10_state.md R31,
R38; 48_source_and_ber.md R221; 70_reset_and_hazards.md R300). -/
def Obligations.ReseedingReproducesTheBits : Prop :=
  ∀ (s s' : State) (rest rest' : List Transaction) (v : Nat) (d e : BufNo), v < 2 ^ 64 →
    s.seqState = .idle → s'.seqState = .idle →
    s.pending = .regwr 0x0B (.int v) :: rest → s'.pending = .regwr 0x0B (.int v) :: rest' →
    s.nbits = s'.nbits → s.nbits.toNat ≤ Config.bufcap →
    ∃ t t' u u', step s = .next t ∧ step s' = .next t' ∧
      exec (.genb d) t = .next u ∧ exec (.genb e) t' = .next u' ∧
      u.seqState = .idle ∧ u'.seqState = .idle ∧ buf u d = buf u' e ∧ u.rngState = u'.rngState

/-! ### Reset, invariant and the whole machine -/

/-- What RESET leaves (10_state.md R48; 70_reset_and_hazards.md R280): every register 0, IDLE, every buffer EMPTY,
both kernel stores invalid with every descriptor 0, the random source seeded with 0; every register of R27, PHASE among
them, reads 0. -/
def Obligations.ResetValuesAreTheSpecs : Prop :=
  let s := State.reset
  s.seqState = .idle ∧ s.degen = false ∧ s.ambig = false ∧ s.err = 0 ∧ s.errInfo = 0 ∧ s.errSeq = 0 ∧ s.errCmd = 0 ∧
  s.seq = 0 ∧ s.sps = 0 ∧ s.span = 0 ∧ s.nbits = 0 ∧ s.seed = 0 ∧ s.beta = num.zero ∧ s.fc = num.zero ∧
  s.snrDb = num.zero ∧ s.offset = 0 ∧ s.bitErrs = 0 ∧ s.cmpLen = 0 ∧ s.berVal = num.zero ∧ s.ambigCnt = 0 ∧
  s.rngState = Config.rngSeed 0 ∧
  (∀ n v, (n, v) ∈ registerMap s → v = .u32 0 ∨ v = .u64 0 ∨ v = .real num.zero) ∧
  (∀ n, buf s n = .empty ∧ kindCode (buf s n) = 0 ∧ bufLen (buf s n) = 0) ∧
  (∀ k, (kernel s k).valid = false ∧ (kernel s k).h = [] ∧ (kernel s k).sps = 0 ∧ (kernel s k).span = 0 ∧
    (kernel s k).beta = num.zero)

/-- What each command does on the reset state (70_reset_and_hazards.md R282): all but GENB fault with the first
check that the zeros fail; GENB makes a BITS buffer of length 0. It is about this one state: a command may still run
with FC or SNR_DB unwritten once its source is loaded. -/
def Obligations.OnTheResetStateAllCommandsButGenbFault : Prop :=
  ∀ (a b d : BufNo) (k : KerNo) (code : LineCode), code = .nrz ∨ code = .manchester →
    faults (.kgen k) State.reset 1 4 ∧
    (∃ t, exec (.genb d) State.reset = .next t ∧ t.seqState = .idle ∧ buf t d = .bits []) ∧
    faults (.enc d a code) State.reset 1 2 ∧ faults (.shape d a k) State.reset 1 2 ∧
    faults (.mix d a) State.reset 1 2 ∧ faults (.awgn d a) State.reset 1 2 ∧ faults (.mf d a k) State.reset 1 2 ∧
    faults (.trec d a) State.reset 1 2 ∧ faults (.dec d a code) State.reset 1 2 ∧ faults (.ber a b) State.reset 1 2

/-- The reset state has the invariant. -/
def Obligations.ResetStateIsSound : Prop := State.reset.Inv

/-- Every step keeps the invariant: not BUSY, an error on record exactly in FAULTED, buffers within BUFCAP, kernel
stores of odd length `span*sps + 1` built from parameters KGEN takes, flags that agree with their counters, result
registers within their bounds, finite parameters (10_state.md R22, R36, R37, R39, R40, R44; 20_memory.md R67, R68;
60_exceptions.md R241, R251). -/
def Obligations.EveryStepKeepsTheStateSound : Prop := ∀ s t : State, s.Inv → step s = .next t → t.Inv

/-- What no command touches (10_state.md R24, R27, R38, R44, R46): the host's parameter registers and stream; every
buffer but the destination; every kernel store but the one a KGEN names; OFFSET but by TREC; the results of BER but
by BER and of DEC but by DEC; the random source but by GENB and AWGN. -/
def Obligations.CommandsWriteOnlyWhatTheirRulesName : Prop :=
  ∀ (i : Instr) (s t : State), exec i s = .next t →
    sameParameters s t ∧ t.pending = s.pending ∧
    (∀ n, destination i ≠ some n → buf t n = buf s n) ∧
    (∀ k, i ≠ .kgen k → kernel t k = kernel s k) ∧
    ((∀ d a, i ≠ .trec d a) → t.offset = s.offset) ∧
    ((∀ a b, i ≠ .ber a b) → sameBerResults s t) ∧
    ((∀ d a code, i ≠ .dec d a code) → sameDecResults s t) ∧
    ((∀ d, i ≠ .genb d) → (∀ d a, i ≠ .awgn d a) → t.rngState = s.rngState)

/-- A command's outcome and results depend on its source buffers, the registers it reads, the kernel store it names
and, for GENB and AWGN, the random source, and on nothing else (10_state.md R46): where it completes, all it writes
is the same, and where it faults, the error it records. -/
def Obligations.ResultsDependOnlyOnOperands : Prop :=
  ∀ (i : Instr) (s s' t t' : State), operandsAgree i s s' → exec i s = .next t → exec i s' = .next t' →
    t.seqState = t'.seqState ∧ t.response = t'.response ∧ (t.seqState = .idle → resultsAgree i t t') ∧
    (t.seqState = .faulted → t.err = t'.err ∧ t.errInfo = t'.errInfo ∧ t.errCmd = t'.errCmd)

/-- A kernel store changes only by a KGEN that names it, run in IDLE, or by RESET (10_state.md R43, R44). -/
def Obligations.KernelStoresChangeOnlyByKgenOrReset : Prop :=
  ∀ (s t : State) (k : KerNo), step s = .next t → kernel t k ≠ kernel s k →
    ∃ rest, s.pending = .reset :: rest ∨ ∃ w, s.pending = .cmd w :: rest ∧ s.seqState = .idle ∧ decode w = .ok (.kgen k)

/-- FAULTED is left only by ERRCLR or RESET (60_exceptions.md R250, R251). -/
def Obligations.FaultedIsLeftOnlyByErrclrOrReset : Prop :=
  ∀ s t : State, s.seqState = .faulted → step s = .next t → t.seqState ≠ .faulted →
    ∃ rest, s.pending = .reset :: rest ∨ ∃ v, s.pending = .regwr 0x01 v :: rest

/-- The command counter moves only by an accepted command, which is one handed over in IDLE, and then by one modulo
2^32, whether the command completes, faults or is illegal; or to 0 by RESET (10_state.md R26). -/
def Obligations.SeqCountsAcceptedCommands : Prop :=
  ∀ s t : State, s.seqState ≠ .busy → step s = .next t →
    (∀ w rest, s.pending = .cmd w :: rest → s.seqState = .idle → t.seq = s.seq + 1) ∧
    ((∀ rest, s.pending ≠ .reset :: rest) → (∀ w rest, s.pending = .cmd w :: rest → s.seqState = .faulted) →
      t.seq = s.seq) ∧
    (∀ rest, s.pending = .reset :: rest → t.seq = 0)
end

