-- ==== Sys2Proof/Laws/Binary64.lean ====
section
/-! SUPPORT. What the machine's number system does exactly: a value that binary64 holds is narrowed to itself. -/

-- One theorem after another: each waits on the kernel, and waiting side by side takes a thread each.
set_option Elab.async false

namespace Sys2Proof.Machine

theorem expField_lt (x : Scalar) : expField x < 2048 := (x.extractLsb' 52 11).isLt

theorem fracField_lt (x : Scalar) : fracField x < 2 ^ 52 := (x.extractLsb' 0 52).isLt

/-- A pattern is its sign, exponent and fraction put together. -/
theorem withSign_fields (x : Scalar) : withSign (signBit x) (expField x * 2 ^ 52 + fracField x) = x := by
  apply BitVec.eq_of_toNat_eq
  have hx := x.isLt
  have hm : signBit x = decide (2 ^ 63 ≤ x.toNat) := by simp [signBit, BitVec.msb_eq_decide]
  have he : expField x = x.toNat / 2 ^ 52 % 2 ^ 11 := by
    simp [expField, BitVec.extractLsb', Nat.shiftRight_eq_div_pow]
  have hf : fracField x = x.toNat % 2 ^ 52 := by simp [fracField, BitVec.extractLsb']
  rw [withSign, hm, he, hf, BitVec.toNat_ofNat]
  split <;> simp_all <;> omega

theorem toNat_withSign (sign : Bool) {low : Nat} (h : low < 2 ^ 63) :
    (withSign sign low).toNat = sign.toNat * 2 ^ 63 + low := by
  cases sign
  · simp only [withSign, BitVec.toNat_ofNat, Bool.false_eq_true, if_false, Bool.toNat_false]; omega
  · simp only [withSign, BitVec.toNat_ofNat, if_true, Bool.toNat_true]; omega

theorem expField_eq (x : Scalar) : expField x = x.toNat / 2 ^ 52 % 2 ^ 11 := by
  simp [expField, BitVec.extractLsb', Nat.shiftRight_eq_div_pow]

theorem fracField_eq (x : Scalar) : fracField x = x.toNat % 2 ^ 52 := by
  simp [fracField, BitVec.extractLsb']

theorem expField_withSign (sign : Bool) {e f : Nat} (he : e < 2048) (hf : f < 2 ^ 52) :
    expField (withSign sign (e * 2 ^ 52 + f)) = e := by
  rw [expField_eq, toNat_withSign sign (by omega)]
  cases sign <;> simp only [Bool.toNat_false, Bool.toNat_true] <;> omega

theorem fracField_withSign (sign : Bool) {e f : Nat} (he : e < 2048) (hf : f < 2 ^ 52) :
    fracField (withSign sign (e * 2 ^ 52 + f)) = f := by
  rw [fracField_eq, toNat_withSign sign (by omega)]
  cases sign <;> simp only [Bool.toNat_false, Bool.toNat_true] <;> omega

theorem signBit_withSign (sign : Bool) {low : Nat} (h : low < 2 ^ 63) : signBit (withSign sign low) = sign := by
  cases sign <;> simp [signBit, withSign, BitVec.msb_eq_decide] <;> omega

theorem magnitude_withSign (sign : Bool) (x : Scalar) :
    magnitude (withSign sign (expField x * 2 ^ 52 + fracField x)) = magnitude x := by
  simp only [magnitude, expField_withSign sign (expField_lt x) (fracField_lt x),
    fracField_withSign sign (expField_lt x) (fracField_lt x)]

/-- The magnitude of a finite value, in whatever unit it is counted, is narrowed to its own 63 bits. -/
theorem roundRatio_exact (sign : Bool) (x : Scalar) (h : isFinite x = true) {q : Nat} (hq : 0 < q) :
    roundRatio sign (q * magnitude x) q = withSign sign (expField x * 2 ^ 52 + fracField x) := by
  have hx : expField x ≤ 2046 := by
    have h1 := expField_lt x
    have h2 : expField x ≠ 2047 := by simpa [isFinite] using h
    omega
  have hf := fracField_lt x
  obtain ⟨shift, m, hlog, hmag, hlow⟩ : ∃ shift m, Nat.log2 (magnitude x) - 52 = shift ∧
      magnitude x = m * 2 ^ shift ∧ shift * 2 ^ 52 + m = expField x * 2 ^ 52 + fracField x := by
    by_cases h0 : expField x = 0
    · refine ⟨0, fracField x, ?_, ?_, ?_⟩
      · rw [magnitude, if_pos h0]
        by_cases hz : fracField x = 0
        · simp [hz]
        · have := (Nat.log2_lt hz).2 hf
          omega
      · simp [magnitude, h0]
      · simp [h0]
    · refine ⟨expField x - 1, 2 ^ 52 + fracField x, ?_, ?_, ?_⟩
      · rw [magnitude, if_neg h0]
        have hlo : 2 ^ (52 + (expField x - 1)) ≤ (2 ^ 52 + fracField x) * 2 ^ (expField x - 1) := by
          rw [pow_add]; exact Nat.mul_le_mul_right _ (by omega)
        have hhi : (2 ^ 52 + fracField x) * 2 ^ (expField x - 1) < 2 ^ (52 + (expField x - 1) + 1) := by
          rw [show 52 + (expField x - 1) + 1 = 53 + (expField x - 1) by omega, pow_add]
          exact Nat.mul_lt_mul_of_pos_right (by omega) (by positivity)
        have hne : (2 ^ 52 + fracField x) * 2 ^ (expField x - 1) ≠ 0 := by positivity
        have h1 := (Nat.le_log2 hne).2 hlo
        have h2 := (Nat.log2_lt hne).2 hhi
        omega
      · simp [magnitude, h0]
      · omega
  have hd : q * magnitude x / q = magnitude x := Nat.mul_div_cancel_left _ hq
  have hpos : 0 < q * 2 ^ shift := by positivity
  have hprod : q * magnitude x = q * 2 ^ shift * m := by rw [hmag]; ring
  have hdiv : q * magnitude x / (q * 2 ^ shift) = m := by rw [hprod, Nat.mul_div_cancel_left _ hpos]
  have hmod : q * magnitude x % (q * 2 ^ shift) = 0 := by rw [hprod, Nat.mul_mod_right]
  have hround : ¬ (q * 2 ^ shift < 2 * 0 ∨ (2 * 0 = q * 2 ^ shift ∧ m % 2 = 1)) := by omega
  simp only [roundRatio, hd, hlog, hdiv, hmod, hround, if_false, hlow]
  rw [Nat.min_eq_left (by rw [infinityBits]; omega)]

/-- A step of Newton's from a guess above the root stays at or above it and halves the distance to it. -/
theorem newton_step {n r guess : Nat} (hr : r * r ≤ n) (hr' : n < (r + 1) * (r + 1)) (hg : r < guess) :
    r ≤ (guess + n / guess) / 2 ∧ (guess + n / guess) / 2 - r ≤ (guess - r) / 2 ∧
      (guess + n / guess) / 2 < guess := by
  have hpos : 0 < guess := by omega
  have hle : n / guess ≤ r := by
    have : n / guess < r + 1 := (Nat.div_lt_iff_lt_mul hpos).2 (by nlinarith)
    omega
  have hlow : 2 * r ≤ guess + n / guess := by
    by_contra hc
    have h1 : n / guess < 2 * r - guess := by generalize n / guess = q at *; omega
    have h2 : n < (2 * r - guess) * guess := (Nat.div_lt_iff_lt_mul hpos).1 h1
    have h3 : guess ≤ 2 * r := by generalize n / guess = q at *; omega
    have h4 : (2 * r - guess) * guess ≤ r * r := by
      zify [h3]
      nlinarith [sq_nonneg ((r : Int) - guess)]
    omega
  generalize n / guess = q at *
  omega

theorem sqrtSteps_eq {n r : Nat} (hr : r * r ≤ n) (hr' : n < (r + 1) * (r + 1)) :
    ∀ (fuel guess : Nat), r ≤ guess → guess - r < 2 ^ fuel → sqrtSteps n (fuel + 1) guess = r
  | fuel, guess, hg, hf => by
    rw [sqrtSteps]
    by_cases h : r = guess
    · subst h
      have hge : ¬ (r + n / r) / 2 < r := by
        rcases Nat.eq_zero_or_pos r with rfl | hpos
        · simp
        · have := (Nat.le_div_iff_mul_le hpos).2 hr
          omega
      simp [hge]
    · obtain ⟨h1, h2, h3⟩ := newton_step hr hr' (lt_of_le_of_ne hg h)
      simp only [h3, if_true]
      cases fuel with
      | zero => omega
      | succ fuel => exact sqrtSteps_eq hr hr' fuel _ h1 (by rw [pow_succ] at hf; omega)

/-- The integer square root is the largest whose square does not exceed the number. -/
theorem intSqrt_spec (n : Nat) : intSqrt n * intSqrt n ≤ n ∧ n < (intSqrt n + 1) * (intSqrt n + 1) := by
  have hr := Nat.sqrt_le n
  have hr' := Nat.lt_succ_sqrt n
  have hup : Nat.sqrt n < 2 ^ (Nat.log2 n / 2 + 1) := by
    rw [Nat.sqrt_lt]
    have h1 : n < 2 ^ (Nat.log2 n + 1) := Nat.lt_log2_self
    refine lt_of_lt_of_le h1 ?_
    rw [← pow_add]
    exact Nat.pow_le_pow_right (by decide) (by omega)
  have h2 : (2 : Nat) ^ (Nat.log2 n / 2 + 1) < 2 ^ (Nat.log2 n / 2 + 2) :=
    Nat.pow_lt_pow_right (by decide) (by omega)
  have e : intSqrt n = Nat.sqrt n := sqrtSteps_eq hr hr' _ _ hup.le (lt_of_le_of_lt (Nat.sub_le _ _) h2)
  rw [e]
  exact ⟨hr, hr'⟩

/-- A finite pattern stays as it is where a finite one is asked for. -/
theorem finiteOf_of_finite {x : Scalar} (h : isFinite x = true) : finiteOf x = x := by simp [finiteOf, h]

/-- The machine's Gaussian draw is finite (10_state.md R38). -/
theorem isFinite_finiteOf (x : Scalar) : isFinite (finiteOf x) = true := by
  unfold finiteOf
  split
  · assumption
  · have h : (x &&& 0xFFEFFFFFFFFFFFFF).extractLsb' 52 11 = x.extractLsb' 52 11 &&& 0x7FE := by
      apply BitVec.eq_of_getLsbD_eq
      intro i hi
      simp only [BitVec.getLsbD_extractLsb', BitVec.getLsbD_and]
      interval_cases i <;> simp
    have h2 : ∀ y : BitVec 11, (y &&& 0x7FE).toNat ≠ 2047 := by decide
    simp only [isFinite, expField, h, bne_iff_ne]
    exact h2 _

/-! ### The elementary functions -/

theorem eitherOf_cases (op : NumOp) (x : Scalar) (bounds : Scalar × Scalar) :
    eitherOf op x bounds = bounds.1 ∨ eitherOf op x bounds = bounds.2 := by
  unfold eitherOf
  split
  · exact .inl rfl
  · split
    · exact .inr rfl
    · exact .inl rfl

/-- Everything `sin` of a finite value can answer. -/
theorem fSin_cases {x : Scalar} (h : isFinite x = true) : fSin x = (sinBounds x).1 ∨ fSin x = (sinBounds x).2 := by
  rw [fSin, if_pos h]
  exact eitherOf_cases ..

/-- Everything `cos` of a finite value can answer. -/
theorem fCos_cases {x : Scalar} (h : isFinite x = true) : fCos x = (cosBounds x).1 ∨ fCos x = (cosBounds x).2 := by
  rw [fCos, if_pos h]
  exact eitherOf_cases ..

/-- Everything `pow10` of a finite value can answer. -/
theorem fPow10_cases {x : Scalar} (h : isFinite x = true) :
    fPow10 x = (pow10Bounds x).1 ∨ fPow10 x = (pow10Bounds x).2 := by
  rw [fPow10, if_pos h]
  exact eitherOf_cases ..

theorem floorLow_le_ceilLow (p q : Nat) : floorLow p q ≤ ceilLow p q := by
  unfold floorLow ceilLow
  simp only
  exact min_le_min_right _ (Nat.add_le_add_left (Nat.div_le_div_right (Nat.le_add_right _ _)) _)

/-- A ratio of at most 1 is rounded up to at most 1. -/
theorem ceilLow_le_one {p q : Nat} (hq : 0 < q) (h : p ≤ q * unitsPerOne) : ceilLow p q ≤ 1023 * 2 ^ 52 := by
  unfold ceilLow
  simp only
  generalize hs : Nat.log2 (p / q) - 52 = shift
  have hpos : 0 < q * 2 ^ shift := by positivity
  refine (Nat.min_le_left _ _).trans ?_
  -- `p/q` is below `2^(k+1)`, with `k` its binary logarithm, or `p` is `q * 2^1074`
  have up : ∀ m, p ≤ q * 2 ^ shift * m → (p + (q * 2 ^ shift - 1)) / (q * 2 ^ shift) ≤ m := by
    intro m hm
    have : (p + (q * 2 ^ shift - 1)) / (q * 2 ^ shift) < m + 1 := by
      rw [Nat.div_lt_iff_lt_mul hpos, Nat.add_one_mul, Nat.mul_comm m]
      omega
    omega
  have hlt : p / q < 2 ^ (Nat.log2 (p / q) + 1) := Nat.lt_log2_self
  have hp : p ≤ q * 2 ^ (Nat.log2 (p / q) + 1) := by
    have := (Nat.div_lt_iff_lt_mul hq).1 hlt
    rw [Nat.mul_comm]
    exact this.le
  by_cases hk : Nat.log2 (p / q) < 1074
  · have : p ≤ q * 2 ^ shift * 2 ^ 53 := by
      refine hp.trans ?_
      rw [Nat.mul_assoc, ← pow_add]
      exact Nat.mul_le_mul_left _ (Nat.pow_le_pow_right (by decide) (by omega))
    have := up _ this
    have : shift ≤ 1021 := by omega
    omega
  · have hle : p / q ≤ 2 ^ 1074 := Nat.div_le_of_le_mul h
    have hne : p / q ≠ 0 := by
      intro e
      simp [e] at hk
    have hge : 2 ^ 1074 ≤ p / q :=
      (Nat.pow_le_pow_right (by decide) (Nat.le_of_not_lt hk)).trans (Nat.log2_self_le hne)
    have e : p / q = 2 ^ 1074 := Nat.le_antisymm hle hge
    have hshift : shift = 1022 := by
      rw [← hs, e, Nat.log2_two_pow]
    have : p ≤ q * 2 ^ shift * 2 ^ 52 := by
      rw [Nat.mul_assoc, ← pow_add, hshift]
      exact h
    have := up _ this
    omega

/-- A ratio of at least one unit is rounded down to a value above 0. -/
theorem floorLow_pos {p q : Nat} (hq : 0 < q) (h : q ≤ p) : 0 < floorLow p q := by
  unfold floorLow
  simp only
  rw [Nat.lt_min]
  refine ⟨?_, by rw [infinityBits]; omega⟩
  rcases Nat.eq_zero_or_pos (Nat.log2 (p / q) - 52) with e | hs
  · rw [e]
    simpa using Nat.div_pos h hq
  · exact Nat.add_pos_left (Nat.mul_pos hs (by decide)) _

theorem fixedOne_pos : 0 < fixedOne := by decide +kernel

theorem withinDecade_bounds (v : Nat) : fixedOne ≤ withinDecade v ∧ withinDecade v ≤ 10 * fixedOne := by
  unfold withinDecade
  generalize fixedOne = one
  omega

/-- The bounds of a fractional power of ten lie in [1, 10]. -/
theorem encloseFraction_bounds (f : Nat) :
    (fixedOne ≤ (encloseFraction f).low ∧ (encloseFraction f).low ≤ 10 * fixedOne) ∧
    (fixedOne ≤ (encloseFraction f).high ∧ (encloseFraction f).high ≤ 10 * fixedOne) := by
  unfold encloseFraction
  split
  · have h : fixedOne ≤ fixedOne ∧ fixedOne ≤ 10 * fixedOne := by
      generalize fixedOne = one
      omega
    exact ⟨h, h⟩
  · exact ⟨withinDecade_bounds _, withinDecade_bounds _⟩

/-- The magnitude of a pattern at or below that of 1. -/
theorem magnitude_le_one (sign : Bool) {low : Nat} (h : low ≤ 1023 * 2 ^ 52) : magnitude (withSign sign low) ≤ unitsPerOne := by
  have hlow : low = low / 2 ^ 52 * 2 ^ 52 + low % 2 ^ 52 := (Nat.div_add_mod' low _).symm
  have hf : low % 2 ^ 52 < 2 ^ 52 := Nat.mod_lt _ (by decide)
  have he : low / 2 ^ 52 ≤ 1023 := by omega
  have h1 : low / 2 ^ 52 = 1023 → low % 2 ^ 52 = 0 := by omega
  rw [hlow, magnitude, expField_withSign sign (by omega) hf, fracField_withSign sign (by omega) hf, unitsPerOne]
  generalize low / 2 ^ 52 = e at *
  generalize low % 2 ^ 52 = f at *
  split
  · exact hf.le.trans (Nat.pow_le_pow_right (by omega) (by omega))
  · rcases Nat.lt_or_ge e 1023 with hlt | hge
    · calc (2 ^ 52 + f) * 2 ^ (e - 1) ≤ 2 ^ 53 * 2 ^ 1021 :=
            Nat.mul_le_mul (by omega) (Nat.pow_le_pow_right (by decide) (by omega))
        _ = 2 ^ 1074 := by rw [← pow_add]
    · have e1 : e = 1023 := by omega
      rw [h1 e1, e1, Nat.add_zero, ← pow_add]

/-- A pattern above that of 0 is the pattern of a value that is not 0. -/
theorem magnitude_pos {low : Nat} (h0 : 0 < low) (h : low < 2 ^ 63) : 0 < magnitude (withSign false low) := by
  have hlow : low = low / 2 ^ 52 * 2 ^ 52 + low % 2 ^ 52 := (Nat.div_add_mod' low _).symm
  have hf : low % 2 ^ 52 < 2 ^ 52 := Nat.mod_lt _ (by decide)
  rw [hlow, magnitude, expField_withSign false (by omega) hf, fracField_withSign false (by omega) hf]
  split
  · omega
  · positivity

/-- A sine or cosine bound does not exceed 1. -/
theorem sineBounds_le_one (sign : Bool) {e : Enclosure} (h : e.high ≤ fixedOne) (hle : e.low ≤ fixedOne) :
    magnitude (sineBounds sign e).1 ≤ unitsPerOne ∧ magnitude (sineBounds sign e).2 ≤ unitsPerOne := by
  have hq : 0 < fixedPerUnit := by decide +kernel
  have hone : fixedOne = fixedPerUnit * unitsPerOne := by decide +kernel
  exact ⟨magnitude_le_one _ ((floorLow_le_ceilLow _ _).trans (ceilLow_le_one hq (hle.trans hone.le))),
    magnitude_le_one _ (ceilLow_le_one hq (h.trans hone.le))⟩

theorem encloseSine_le_one (x turns : Nat) :
    (encloseSine x turns).low ≤ fixedOne ∧ (encloseSine x turns).high ≤ fixedOne := by
  have hcap : (if turns = 0 then min x fixedOne else fixedOne) ≤ fixedOne := by
    split
    · exact Nat.min_le_right _ _
    · exact le_rfl
  exact ⟨(Nat.min_le_right _ _).trans hcap, (Nat.min_le_right _ _).trans hcap⟩

/-- A sine lies in [-1, 1] (00_scope.md R10). -/
theorem fSin_le_one {x : Scalar} (h : isFinite x = true) : magnitude (fSin x) ≤ unitsPerOne := by
  have hb : magnitude (sinBounds x).1 ≤ unitsPerOne ∧ magnitude (sinBounds x).2 ≤ unitsPerOne := by
    unfold sinBounds
    split
    · rename_i h0
      rw [h0]
      exact ⟨Nat.zero_le _, Nat.zero_le _⟩
    · exact sineBounds_le_one _ (encloseSine_le_one _ _).2 (encloseSine_le_one _ _).1
  rcases fSin_cases h with e | e <;> rw [e]
  exacts [hb.1, hb.2]

/-- A cosine lies in [-1, 1] (00_scope.md R10). -/
theorem fCos_le_one {x : Scalar} (h : isFinite x = true) : magnitude (fCos x) ≤ unitsPerOne := by
  have hb : magnitude (cosBounds x).1 ≤ unitsPerOne ∧ magnitude (cosBounds x).2 ≤ unitsPerOne := by
    unfold cosBounds
    split
    · have h1 : magnitude 0x3FF0000000000000 ≤ unitsPerOne := by decide +kernel
      exact ⟨h1, h1⟩
    · exact sineBounds_le_one _ (encloseSine_le_one _ _).2 (encloseSine_le_one _ _).1
  rcases fCos_cases h with e | e <;> rw [e]
  exacts [hb.1, hb.2]

/-- An SNR in decibels below 0 is a linear SNR of at most 1, so the noise is not weaker than the signal
(44_channel_noise.md R174; it is 1 only where binary64 has no value between the exact one and 1). -/
theorem fPow10_le_one {x : Scalar} (hf : isFinite x = true) (hs : signBit x = true) :
    magnitude (fPow10 x) ≤ unitsPerOne ∧ signBit (fPow10 x) = false := by
  have key : ∀ low, low ≤ 1023 * 2 ^ 52 →
      magnitude (withSign false low) ≤ unitsPerOne ∧ signBit (withSign false low) = false :=
    fun low h => ⟨magnitude_le_one false h, signBit_withSign false (by omega)⟩
  have le_one : ∀ n bound, fixedOne ≤ bound → ceilLow (fixedOne * unitsPerOne) (bound * 10 ^ n) ≤ 1023 * 2 ^ 52 := by
    intro n bound hb
    have hpow : 0 < 10 ^ n := by positivity
    exact ceilLow_le_one (Nat.mul_pos (fixedOne_pos.trans_le hb) hpow)
      (Nat.mul_le_mul_right _ (hb.trans (Nat.le_mul_of_pos_right _ hpow)))
  rcases fPow10_cases hf with e | e <;> rw [e, pow10Bounds, powerBounds, if_pos hs] <;> apply key
  · exact (floorLow_le_ceilLow _ _).trans (le_one _ _ (encloseFraction_bounds _).2.1)
  · exact le_one _ _ (encloseFraction_bounds _).1.1

/-- `10^x` is positive for a magnitude below 300 (93_implementation_defined.md U4: for SNR_DB between -3000 and
3000). -/
theorem fPow10_pos {x : Scalar} (hf : isFinite x = true) (hx : magnitude x < 300 * unitsPerOne) :
    0 < magnitude (fPow10 x) := by
  have hn : min (magnitude x * fixedPerUnit) (400 * fixedOne) / fixedOne ≤ 299 := by
    have h1 : magnitude x * fixedPerUnit < 300 * fixedOne := by
      have hone : fixedOne = unitsPerOne * fixedPerUnit := by decide +kernel
      rw [hone, ← Nat.mul_assoc]
      exact Nat.mul_lt_mul_of_pos_right hx (by decide +kernel)
    have h2 := (Nat.div_lt_iff_lt_mul fixedOne_pos).2 ((Nat.min_le_left _ (400 * fixedOne)).trans_lt h1)
    generalize min (magnitude x * fixedPerUnit) (400 * fixedOne) / fixedOne = n at *
    omega
  have low : ∀ p q, 0 < q → q ≤ p → 0 < magnitude (withSign false (floorLow p q)) := fun p q hq h =>
    magnitude_pos (floorLow_pos hq h) ((Nat.min_le_right _ _).trans_lt (by decide))
  have high : ∀ p q, 0 < q → q ≤ p → 0 < magnitude (withSign false (ceilLow p q)) := fun p q hq h =>
    magnitude_pos ((floorLow_pos hq h).trans_le (floorLow_le_ceilLow p q)) ((Nat.min_le_right _ _).trans_lt (by decide))
  -- a bound in [1, 10] times `10^n` lies between 1 and `10^300`, which is below `2^1074`
  have scaled : ∀ n v, n ≤ 299 → fixedOne ≤ v ∧ v ≤ 10 * fixedOne →
      (0 < v * 10 ^ n ∧ v * 10 ^ n ≤ fixedOne * unitsPerOne) ∧ fixedOne ≤ v * 10 ^ n * unitsPerOne := by
    intro n v hn hv
    have hp : 0 < 10 ^ n := by positivity
    have hten : 10 ^ (n + 1) ≤ unitsPerOne :=
      (Nat.pow_le_pow_right (by decide) (by omega : n + 1 ≤ 300)).trans (by decide +kernel)
    have h1 : fixedOne ≤ v * 10 ^ n := hv.1.trans (Nat.le_mul_of_pos_right _ hp)
    refine ⟨⟨fixedOne_pos.trans_le h1, ?_⟩, h1.trans (Nat.le_mul_of_pos_right _ (by decide +kernel))⟩
    calc v * 10 ^ n ≤ 10 * fixedOne * 10 ^ n := Nat.mul_le_mul_right _ hv.2
      _ = fixedOne * 10 ^ (n + 1) := by ring
      _ ≤ fixedOne * unitsPerOne := Nat.mul_le_mul_left _ hten
  have hb := encloseFraction_bounds (min (magnitude x * fixedPerUnit) (400 * fixedOne) % fixedOne)
  have sl := scaled _ _ hn hb.1
  have sh := scaled _ _ hn hb.2
  rcases fPow10_cases hf with e | e <;> rw [e, pow10Bounds, powerBounds] <;> split
  · exact low _ _ sh.1.1 sh.1.2
  · exact low _ _ fixedOne_pos sl.2
  · exact high _ _ sl.1.1 sl.1.2
  · exact high _ _ fixedOne_pos sh.2

end Sys2Proof.Machine
end

