-- ==== Sys2Proof/Laws/State.lean ====
section
/-! SUPPORT. The small lemmas of the state's updates: for each update, what each field is after it. -/

namespace Sys2Proof.Machine

@[simp] theorem params_bufcap : params.bufcap = Config.bufcap := rfl
@[simp] theorem params_kcap : params.kcap = Config.kcap := rfl
@[simp] theorem params_num : params.num = num := rfl
@[simp] theorem params_finite : params.finite = isFinite := rfl
@[simp] theorem params_rng : params.rng = rng := rfl
@[simp] theorem phaseRegister_params : phaseRegister params = 0 := rfl

variable {R S : Type} (P : Params R S) (s : State R S)

@[simp] theorem setBuf_seqState (n : BufNo) (b : Buffer R) : (setBuf s n b).seqState = s.seqState := rfl
@[simp] theorem setBuf_degen (n : BufNo) (b : Buffer R) : (setBuf s n b).degen = s.degen := rfl
@[simp] theorem setBuf_ambig (n : BufNo) (b : Buffer R) : (setBuf s n b).ambig = s.ambig := rfl
@[simp] theorem setBuf_err (n : BufNo) (b : Buffer R) : (setBuf s n b).err = s.err := rfl
@[simp] theorem setBuf_errInfo (n : BufNo) (b : Buffer R) : (setBuf s n b).errInfo = s.errInfo := rfl
@[simp] theorem setBuf_errSeq (n : BufNo) (b : Buffer R) : (setBuf s n b).errSeq = s.errSeq := rfl
@[simp] theorem setBuf_errCmd (n : BufNo) (b : Buffer R) : (setBuf s n b).errCmd = s.errCmd := rfl
@[simp] theorem setBuf_seq (n : BufNo) (b : Buffer R) : (setBuf s n b).seq = s.seq := rfl
@[simp] theorem setBuf_sps (n : BufNo) (b : Buffer R) : (setBuf s n b).sps = s.sps := rfl
@[simp] theorem setBuf_span (n : BufNo) (b : Buffer R) : (setBuf s n b).span = s.span := rfl
@[simp] theorem setBuf_nbits (n : BufNo) (b : Buffer R) : (setBuf s n b).nbits = s.nbits := rfl
@[simp] theorem setBuf_seed (n : BufNo) (b : Buffer R) : (setBuf s n b).seed = s.seed := rfl
@[simp] theorem setBuf_beta (n : BufNo) (b : Buffer R) : (setBuf s n b).beta = s.beta := rfl
@[simp] theorem setBuf_fc (n : BufNo) (b : Buffer R) : (setBuf s n b).fc = s.fc := rfl
@[simp] theorem setBuf_snrDb (n : BufNo) (b : Buffer R) : (setBuf s n b).snrDb = s.snrDb := rfl
@[simp] theorem setBuf_offset (n : BufNo) (b : Buffer R) : (setBuf s n b).offset = s.offset := rfl
@[simp] theorem setBuf_bitErrs (n : BufNo) (b : Buffer R) : (setBuf s n b).bitErrs = s.bitErrs := rfl
@[simp] theorem setBuf_cmpLen (n : BufNo) (b : Buffer R) : (setBuf s n b).cmpLen = s.cmpLen := rfl
@[simp] theorem setBuf_berVal (n : BufNo) (b : Buffer R) : (setBuf s n b).berVal = s.berVal := rfl
@[simp] theorem setBuf_ambigCnt (n : BufNo) (b : Buffer R) : (setBuf s n b).ambigCnt = s.ambigCnt := rfl
@[simp] theorem setBuf_buffers (n : BufNo) (b : Buffer R) : (setBuf s n b).buffers = s.buffers.set n b := rfl
@[simp] theorem setBuf_kernels (n : BufNo) (b : Buffer R) : (setBuf s n b).kernels = s.kernels := rfl
@[simp] theorem setBuf_rngState (n : BufNo) (b : Buffer R) : (setBuf s n b).rngState = s.rngState := rfl
@[simp] theorem setBuf_pending (n : BufNo) (b : Buffer R) : (setBuf s n b).pending = s.pending := rfl
@[simp] theorem setBuf_response (n : BufNo) (b : Buffer R) : (setBuf s n b).response = s.response := rfl

@[simp] theorem setKernel_seqState (k : KerNo) (h : KernelStore R) : (setKernel s k h).seqState = s.seqState := rfl
@[simp] theorem setKernel_degen (k : KerNo) (h : KernelStore R) : (setKernel s k h).degen = s.degen := rfl
@[simp] theorem setKernel_ambig (k : KerNo) (h : KernelStore R) : (setKernel s k h).ambig = s.ambig := rfl
@[simp] theorem setKernel_err (k : KerNo) (h : KernelStore R) : (setKernel s k h).err = s.err := rfl
@[simp] theorem setKernel_errInfo (k : KerNo) (h : KernelStore R) : (setKernel s k h).errInfo = s.errInfo := rfl
@[simp] theorem setKernel_errSeq (k : KerNo) (h : KernelStore R) : (setKernel s k h).errSeq = s.errSeq := rfl
@[simp] theorem setKernel_errCmd (k : KerNo) (h : KernelStore R) : (setKernel s k h).errCmd = s.errCmd := rfl
@[simp] theorem setKernel_seq (k : KerNo) (h : KernelStore R) : (setKernel s k h).seq = s.seq := rfl
@[simp] theorem setKernel_sps (k : KerNo) (h : KernelStore R) : (setKernel s k h).sps = s.sps := rfl
@[simp] theorem setKernel_span (k : KerNo) (h : KernelStore R) : (setKernel s k h).span = s.span := rfl
@[simp] theorem setKernel_nbits (k : KerNo) (h : KernelStore R) : (setKernel s k h).nbits = s.nbits := rfl
@[simp] theorem setKernel_seed (k : KerNo) (h : KernelStore R) : (setKernel s k h).seed = s.seed := rfl
@[simp] theorem setKernel_beta (k : KerNo) (h : KernelStore R) : (setKernel s k h).beta = s.beta := rfl
@[simp] theorem setKernel_fc (k : KerNo) (h : KernelStore R) : (setKernel s k h).fc = s.fc := rfl
@[simp] theorem setKernel_snrDb (k : KerNo) (h : KernelStore R) : (setKernel s k h).snrDb = s.snrDb := rfl
@[simp] theorem setKernel_offset (k : KerNo) (h : KernelStore R) : (setKernel s k h).offset = s.offset := rfl
@[simp] theorem setKernel_bitErrs (k : KerNo) (h : KernelStore R) : (setKernel s k h).bitErrs = s.bitErrs := rfl
@[simp] theorem setKernel_cmpLen (k : KerNo) (h : KernelStore R) : (setKernel s k h).cmpLen = s.cmpLen := rfl
@[simp] theorem setKernel_berVal (k : KerNo) (h : KernelStore R) : (setKernel s k h).berVal = s.berVal := rfl
@[simp] theorem setKernel_ambigCnt (k : KerNo) (h : KernelStore R) : (setKernel s k h).ambigCnt = s.ambigCnt := rfl
@[simp] theorem setKernel_buffers (k : KerNo) (h : KernelStore R) : (setKernel s k h).buffers = s.buffers := rfl
@[simp] theorem setKernel_kernels (k : KerNo) (h : KernelStore R) : (setKernel s k h).kernels = s.kernels.set k h := rfl
@[simp] theorem setKernel_rngState (k : KerNo) (h : KernelStore R) : (setKernel s k h).rngState = s.rngState := rfl
@[simp] theorem setKernel_pending (k : KerNo) (h : KernelStore R) : (setKernel s k h).pending = s.pending := rfl
@[simp] theorem setKernel_response (k : KerNo) (h : KernelStore R) : (setKernel s k h).response = s.response := rfl

@[simp] theorem raise_seqState (sub : SubCause) (w : Word) : (raise sub w s).seqState = .faulted := rfl
@[simp] theorem raise_degen (sub : SubCause) (w : Word) : (raise sub w s).degen = s.degen := rfl
@[simp] theorem raise_ambig (sub : SubCause) (w : Word) : (raise sub w s).ambig = s.ambig := rfl
@[simp] theorem raise_err (sub : SubCause) (w : Word) : (raise sub w s).err = errCode (subKind sub) := rfl
@[simp] theorem raise_errInfo (sub : SubCause) (w : Word) : (raise sub w s).errInfo = subCode sub := rfl
@[simp] theorem raise_errSeq (sub : SubCause) (w : Word) : (raise sub w s).errSeq = s.seq := rfl
@[simp] theorem raise_errCmd (sub : SubCause) (w : Word) : (raise sub w s).errCmd = w := rfl
@[simp] theorem raise_seq (sub : SubCause) (w : Word) : (raise sub w s).seq = s.seq + 1 := rfl
@[simp] theorem raise_sps (sub : SubCause) (w : Word) : (raise sub w s).sps = s.sps := rfl
@[simp] theorem raise_span (sub : SubCause) (w : Word) : (raise sub w s).span = s.span := rfl
@[simp] theorem raise_nbits (sub : SubCause) (w : Word) : (raise sub w s).nbits = s.nbits := rfl
@[simp] theorem raise_seed (sub : SubCause) (w : Word) : (raise sub w s).seed = s.seed := rfl
@[simp] theorem raise_beta (sub : SubCause) (w : Word) : (raise sub w s).beta = s.beta := rfl
@[simp] theorem raise_fc (sub : SubCause) (w : Word) : (raise sub w s).fc = s.fc := rfl
@[simp] theorem raise_snrDb (sub : SubCause) (w : Word) : (raise sub w s).snrDb = s.snrDb := rfl
@[simp] theorem raise_offset (sub : SubCause) (w : Word) : (raise sub w s).offset = s.offset := rfl
@[simp] theorem raise_bitErrs (sub : SubCause) (w : Word) : (raise sub w s).bitErrs = s.bitErrs := rfl
@[simp] theorem raise_cmpLen (sub : SubCause) (w : Word) : (raise sub w s).cmpLen = s.cmpLen := rfl
@[simp] theorem raise_berVal (sub : SubCause) (w : Word) : (raise sub w s).berVal = s.berVal := rfl
@[simp] theorem raise_ambigCnt (sub : SubCause) (w : Word) : (raise sub w s).ambigCnt = s.ambigCnt := rfl
@[simp] theorem raise_buffers (sub : SubCause) (w : Word) : (raise sub w s).buffers = s.buffers := rfl
@[simp] theorem raise_kernels (sub : SubCause) (w : Word) : (raise sub w s).kernels = s.kernels := rfl
@[simp] theorem raise_rngState (sub : SubCause) (w : Word) : (raise sub w s).rngState = s.rngState := rfl
@[simp] theorem raise_pending (sub : SubCause) (w : Word) : (raise sub w s).pending = s.pending := rfl
@[simp] theorem raise_response (sub : SubCause) (w : Word) : (raise sub w s).response = some (.command (.error (subKind sub))) := rfl

@[simp] theorem complete_seqState : (complete s).seqState = .idle := rfl
@[simp] theorem complete_degen : (complete s).degen = s.degen := rfl
@[simp] theorem complete_ambig : (complete s).ambig = s.ambig := rfl
@[simp] theorem complete_err : (complete s).err = s.err := rfl
@[simp] theorem complete_errInfo : (complete s).errInfo = s.errInfo := rfl
@[simp] theorem complete_errSeq : (complete s).errSeq = s.errSeq := rfl
@[simp] theorem complete_errCmd : (complete s).errCmd = s.errCmd := rfl
@[simp] theorem complete_seq : (complete s).seq = s.seq + 1 := rfl
@[simp] theorem complete_sps : (complete s).sps = s.sps := rfl
@[simp] theorem complete_span : (complete s).span = s.span := rfl
@[simp] theorem complete_nbits : (complete s).nbits = s.nbits := rfl
@[simp] theorem complete_seed : (complete s).seed = s.seed := rfl
@[simp] theorem complete_beta : (complete s).beta = s.beta := rfl
@[simp] theorem complete_fc : (complete s).fc = s.fc := rfl
@[simp] theorem complete_snrDb : (complete s).snrDb = s.snrDb := rfl
@[simp] theorem complete_offset : (complete s).offset = s.offset := rfl
@[simp] theorem complete_bitErrs : (complete s).bitErrs = s.bitErrs := rfl
@[simp] theorem complete_cmpLen : (complete s).cmpLen = s.cmpLen := rfl
@[simp] theorem complete_berVal : (complete s).berVal = s.berVal := rfl
@[simp] theorem complete_ambigCnt : (complete s).ambigCnt = s.ambigCnt := rfl
@[simp] theorem complete_buffers : (complete s).buffers = s.buffers := rfl
@[simp] theorem complete_kernels : (complete s).kernels = s.kernels := rfl
@[simp] theorem complete_rngState : (complete s).rngState = s.rngState := rfl
@[simp] theorem complete_pending : (complete s).pending = s.pending := rfl
@[simp] theorem complete_response : (complete s).response = some (.command .ok) := rfl

@[simp] theorem errClr_seqState : (errClr s).seqState = .idle := rfl
@[simp] theorem errClr_degen : (errClr s).degen = s.degen := rfl
@[simp] theorem errClr_ambig : (errClr s).ambig = s.ambig := rfl
@[simp] theorem errClr_err : (errClr s).err = 0 := rfl
@[simp] theorem errClr_errInfo : (errClr s).errInfo = 0 := rfl
@[simp] theorem errClr_errSeq : (errClr s).errSeq = s.errSeq := rfl
@[simp] theorem errClr_errCmd : (errClr s).errCmd = s.errCmd := rfl
@[simp] theorem errClr_seq : (errClr s).seq = s.seq := rfl
@[simp] theorem errClr_sps : (errClr s).sps = s.sps := rfl
@[simp] theorem errClr_span : (errClr s).span = s.span := rfl
@[simp] theorem errClr_nbits : (errClr s).nbits = s.nbits := rfl
@[simp] theorem errClr_seed : (errClr s).seed = s.seed := rfl
@[simp] theorem errClr_beta : (errClr s).beta = s.beta := rfl
@[simp] theorem errClr_fc : (errClr s).fc = s.fc := rfl
@[simp] theorem errClr_snrDb : (errClr s).snrDb = s.snrDb := rfl
@[simp] theorem errClr_offset : (errClr s).offset = s.offset := rfl
@[simp] theorem errClr_bitErrs : (errClr s).bitErrs = s.bitErrs := rfl
@[simp] theorem errClr_cmpLen : (errClr s).cmpLen = s.cmpLen := rfl
@[simp] theorem errClr_berVal : (errClr s).berVal = s.berVal := rfl
@[simp] theorem errClr_ambigCnt : (errClr s).ambigCnt = s.ambigCnt := rfl
@[simp] theorem errClr_buffers : (errClr s).buffers = s.buffers := rfl
@[simp] theorem errClr_kernels : (errClr s).kernels = s.kernels := rfl
@[simp] theorem errClr_rngState : (errClr s).rngState = s.rngState := rfl
@[simp] theorem errClr_pending : (errClr s).pending = s.pending := rfl
@[simp] theorem errClr_response : (errClr s).response = some .ok := rfl

@[simp] theorem writeSeed_seqState (v : DWord) : (writeSeed P s v).seqState = s.seqState := rfl
@[simp] theorem writeSeed_degen (v : DWord) : (writeSeed P s v).degen = s.degen := rfl
@[simp] theorem writeSeed_ambig (v : DWord) : (writeSeed P s v).ambig = s.ambig := rfl
@[simp] theorem writeSeed_err (v : DWord) : (writeSeed P s v).err = s.err := rfl
@[simp] theorem writeSeed_errInfo (v : DWord) : (writeSeed P s v).errInfo = s.errInfo := rfl
@[simp] theorem writeSeed_errSeq (v : DWord) : (writeSeed P s v).errSeq = s.errSeq := rfl
@[simp] theorem writeSeed_errCmd (v : DWord) : (writeSeed P s v).errCmd = s.errCmd := rfl
@[simp] theorem writeSeed_seq (v : DWord) : (writeSeed P s v).seq = s.seq := rfl
@[simp] theorem writeSeed_sps (v : DWord) : (writeSeed P s v).sps = s.sps := rfl
@[simp] theorem writeSeed_span (v : DWord) : (writeSeed P s v).span = s.span := rfl
@[simp] theorem writeSeed_nbits (v : DWord) : (writeSeed P s v).nbits = s.nbits := rfl
@[simp] theorem writeSeed_seed (v : DWord) : (writeSeed P s v).seed = v := rfl
@[simp] theorem writeSeed_beta (v : DWord) : (writeSeed P s v).beta = s.beta := rfl
@[simp] theorem writeSeed_fc (v : DWord) : (writeSeed P s v).fc = s.fc := rfl
@[simp] theorem writeSeed_snrDb (v : DWord) : (writeSeed P s v).snrDb = s.snrDb := rfl
@[simp] theorem writeSeed_offset (v : DWord) : (writeSeed P s v).offset = s.offset := rfl
@[simp] theorem writeSeed_bitErrs (v : DWord) : (writeSeed P s v).bitErrs = s.bitErrs := rfl
@[simp] theorem writeSeed_cmpLen (v : DWord) : (writeSeed P s v).cmpLen = s.cmpLen := rfl
@[simp] theorem writeSeed_berVal (v : DWord) : (writeSeed P s v).berVal = s.berVal := rfl
@[simp] theorem writeSeed_ambigCnt (v : DWord) : (writeSeed P s v).ambigCnt = s.ambigCnt := rfl
@[simp] theorem writeSeed_buffers (v : DWord) : (writeSeed P s v).buffers = s.buffers := rfl
@[simp] theorem writeSeed_kernels (v : DWord) : (writeSeed P s v).kernels = s.kernels := rfl
@[simp] theorem writeSeed_rngState (v : DWord) : (writeSeed P s v).rngState = P.rng.seed v := rfl
@[simp] theorem writeSeed_pending (v : DWord) : (writeSeed P s v).pending = s.pending := rfl
@[simp] theorem writeSeed_response (v : DWord) : (writeSeed P s v).response = s.response := rfl

@[simp] theorem answer_seqState (r : Response R) : (answer r s).seqState = s.seqState := rfl
@[simp] theorem answer_degen (r : Response R) : (answer r s).degen = s.degen := rfl
@[simp] theorem answer_ambig (r : Response R) : (answer r s).ambig = s.ambig := rfl
@[simp] theorem answer_err (r : Response R) : (answer r s).err = s.err := rfl
@[simp] theorem answer_errInfo (r : Response R) : (answer r s).errInfo = s.errInfo := rfl
@[simp] theorem answer_errSeq (r : Response R) : (answer r s).errSeq = s.errSeq := rfl
@[simp] theorem answer_errCmd (r : Response R) : (answer r s).errCmd = s.errCmd := rfl
@[simp] theorem answer_seq (r : Response R) : (answer r s).seq = s.seq := rfl
@[simp] theorem answer_sps (r : Response R) : (answer r s).sps = s.sps := rfl
@[simp] theorem answer_span (r : Response R) : (answer r s).span = s.span := rfl
@[simp] theorem answer_nbits (r : Response R) : (answer r s).nbits = s.nbits := rfl
@[simp] theorem answer_seed (r : Response R) : (answer r s).seed = s.seed := rfl
@[simp] theorem answer_beta (r : Response R) : (answer r s).beta = s.beta := rfl
@[simp] theorem answer_fc (r : Response R) : (answer r s).fc = s.fc := rfl
@[simp] theorem answer_snrDb (r : Response R) : (answer r s).snrDb = s.snrDb := rfl
@[simp] theorem answer_offset (r : Response R) : (answer r s).offset = s.offset := rfl
@[simp] theorem answer_bitErrs (r : Response R) : (answer r s).bitErrs = s.bitErrs := rfl
@[simp] theorem answer_cmpLen (r : Response R) : (answer r s).cmpLen = s.cmpLen := rfl
@[simp] theorem answer_berVal (r : Response R) : (answer r s).berVal = s.berVal := rfl
@[simp] theorem answer_ambigCnt (r : Response R) : (answer r s).ambigCnt = s.ambigCnt := rfl
@[simp] theorem answer_buffers (r : Response R) : (answer r s).buffers = s.buffers := rfl
@[simp] theorem answer_kernels (r : Response R) : (answer r s).kernels = s.kernels := rfl
@[simp] theorem answer_rngState (r : Response R) : (answer r s).rngState = s.rngState := rfl
@[simp] theorem answer_pending (r : Response R) : (answer r s).pending = s.pending := rfl
@[simp] theorem answer_response (r : Response R) : (answer r s).response = some r := rfl

section Reset

variable (zero : R) (seeded : S)

@[simp] theorem resetWith_seqState : (resetWith zero seeded).seqState = .idle := rfl
@[simp] theorem resetWith_degen : (resetWith zero seeded).degen = false := rfl
@[simp] theorem resetWith_ambig : (resetWith zero seeded).ambig = false := rfl
@[simp] theorem resetWith_err : (resetWith zero seeded).err = 0 := rfl
@[simp] theorem resetWith_errInfo : (resetWith zero seeded).errInfo = 0 := rfl
@[simp] theorem resetWith_errSeq : (resetWith zero seeded).errSeq = 0 := rfl
@[simp] theorem resetWith_errCmd : (resetWith zero seeded).errCmd = 0 := rfl
@[simp] theorem resetWith_seq : (resetWith zero seeded).seq = 0 := rfl
@[simp] theorem resetWith_sps : (resetWith zero seeded).sps = 0 := rfl
@[simp] theorem resetWith_span : (resetWith zero seeded).span = 0 := rfl
@[simp] theorem resetWith_nbits : (resetWith zero seeded).nbits = 0 := rfl
@[simp] theorem resetWith_seed : (resetWith zero seeded).seed = 0 := rfl
@[simp] theorem resetWith_beta : (resetWith zero seeded).beta = zero := rfl
@[simp] theorem resetWith_fc : (resetWith zero seeded).fc = zero := rfl
@[simp] theorem resetWith_snrDb : (resetWith zero seeded).snrDb = zero := rfl
@[simp] theorem resetWith_offset : (resetWith zero seeded).offset = 0 := rfl
@[simp] theorem resetWith_bitErrs : (resetWith zero seeded).bitErrs = 0 := rfl
@[simp] theorem resetWith_cmpLen : (resetWith zero seeded).cmpLen = 0 := rfl
@[simp] theorem resetWith_berVal : (resetWith zero seeded).berVal = zero := rfl
@[simp] theorem resetWith_ambigCnt : (resetWith zero seeded).ambigCnt = 0 := rfl
@[simp] theorem resetWith_buffers : (resetWith zero seeded).buffers = Vector.replicate 16 .empty := rfl
@[simp] theorem resetWith_kernels : (resetWith zero seeded).kernels = Vector.replicate 2 (KernelStore.invalid zero) := rfl
@[simp] theorem resetWith_rngState : (resetWith zero seeded).rngState = seeded := rfl
@[simp] theorem resetWith_pending : (resetWith zero seeded).pending = [] := rfl
@[simp] theorem resetWith_response : (resetWith zero seeded).response = none := rfl

end Reset

@[simp] theorem reset_seqState : State.reset.seqState = .idle := rfl
@[simp] theorem reset_degen : State.reset.degen = false := rfl
@[simp] theorem reset_ambig : State.reset.ambig = false := rfl
@[simp] theorem reset_err : State.reset.err = 0 := rfl
@[simp] theorem reset_errInfo : State.reset.errInfo = 0 := rfl
@[simp] theorem reset_errSeq : State.reset.errSeq = 0 := rfl
@[simp] theorem reset_errCmd : State.reset.errCmd = 0 := rfl
@[simp] theorem reset_seq : State.reset.seq = 0 := rfl
@[simp] theorem reset_sps : State.reset.sps = 0 := rfl
@[simp] theorem reset_span : State.reset.span = 0 := rfl
@[simp] theorem reset_nbits : State.reset.nbits = 0 := rfl
@[simp] theorem reset_seed : State.reset.seed = 0 := rfl
@[simp] theorem reset_beta : State.reset.beta = 0 := rfl
@[simp] theorem reset_fc : State.reset.fc = 0 := rfl
@[simp] theorem reset_snrDb : State.reset.snrDb = 0 := rfl
@[simp] theorem reset_offset : State.reset.offset = 0 := rfl
@[simp] theorem reset_bitErrs : State.reset.bitErrs = 0 := rfl
@[simp] theorem reset_cmpLen : State.reset.cmpLen = 0 := rfl
@[simp] theorem reset_berVal : State.reset.berVal = 0 := rfl
@[simp] theorem reset_ambigCnt : State.reset.ambigCnt = 0 := rfl
@[simp] theorem reset_buffers : State.reset.buffers = Vector.replicate 16 .empty := rfl
@[simp] theorem reset_kernels : State.reset.kernels = Vector.replicate 2 (KernelStore.invalid 0) := rfl
@[simp] theorem reset_rngState : State.reset.rngState = Config.rngSeed 0 := rfl
@[simp] theorem reset_pending : State.reset.pending = [] := rfl
@[simp] theorem reset_response : State.reset.response = none := rfl

end Sys2Proof.Machine
end

