-- ==== Sys2Proof/Laws/Ops.lean ====
section
/-! SUPPORT. What the shared operations do: reading back a replaced buffer or kernel store, the first failing check,
the life of a command, and the three ways a transaction can answer. -/

namespace Sys2Proof.Machine

section Generic

variable {R S : Type} (P : Params R S) (s : State R S)

@[simp] theorem buf_setBuf_same (n : BufNo) (b : Buffer R) : buf (setBuf s n b) n = b := by
  simp [buf, setBuf]

theorem buf_setBuf_ne {n m : BufNo} (h : m ≠ n) (b : Buffer R) : buf (setBuf s n b) m = buf s m := by
  have h' : (n : Nat) ≠ (m : Nat) := fun e => h (Fin.ext e.symm)
  simp [buf, setBuf, Vector.getElem_set_ne, h']

theorem buf_setBuf (n m : BufNo) (b : Buffer R) : buf (setBuf s n b) m = if m = n then b else buf s m := by
  by_cases h : m = n
  · subst h; simp
  · simp [h, buf_setBuf_ne]

@[simp] theorem kernel_setKernel_same (k : KerNo) (h : KernelStore R) : kernel (setKernel s k h) k = h := by
  simp [kernel, setKernel]

theorem kernel_setKernel_ne {k j : KerNo} (hj : j ≠ k) (h : KernelStore R) : kernel (setKernel s k h) j = kernel s j := by
  have h' : (k : Nat) ≠ (j : Nat) := fun e => hj (Fin.ext e.symm)
  simp [kernel, setKernel, Vector.getElem_set_ne, h']

theorem kernel_setKernel (k j : KerNo) (h : KernelStore R) :
    kernel (setKernel s k h) j = if j = k then h else kernel s j := by
  by_cases e : j = k
  · subst e; simp
  · simp [e, kernel_setKernel_ne]

@[simp] theorem kernel_setBuf (n : BufNo) (b : Buffer R) (k : KerNo) : kernel (setBuf s n b) k = kernel s k := rfl
@[simp] theorem buf_setKernel (k : KerNo) (h : KernelStore R) (n : BufNo) : buf (setKernel s k h) n = buf s n := rfl
@[simp] theorem buf_complete (n : BufNo) : buf (complete s) n = buf s n := rfl
@[simp] theorem kernel_complete (k : KerNo) : kernel (complete s) k = kernel s k := rfl
@[simp] theorem buf_raise (sub : SubCause) (w : Word) (n : BufNo) : buf (raise sub w s) n = buf s n := rfl
@[simp] theorem kernel_raise (sub : SubCause) (w : Word) (k : KerNo) : kernel (raise sub w s) k = kernel s k := rfl
@[simp] theorem buf_answer (r : Response R) (n : BufNo) : buf (answer r s) n = buf s n := rfl
@[simp] theorem kernel_answer (r : Response R) (k : KerNo) : kernel (answer r s) k = kernel s k := rfl
@[simp] theorem buf_errClr (n : BufNo) : buf (errClr s) n = buf s n := rfl
@[simp] theorem kernel_errClr (k : KerNo) : kernel (errClr s) k = kernel s k := rfl
@[simp] theorem buf_writeSeed (v : DWord) (n : BufNo) : buf (writeSeed P s v) n = buf s n := rfl
@[simp] theorem kernel_writeSeed (v : DWord) (k : KerNo) : kernel (writeSeed P s v) k = kernel s k := rfl

@[simp] theorem buf_resetWith (zero : R) (seeded : S) (n : BufNo) : buf (resetWith zero seeded) n = .empty := by
  simp [buf, resetWith]

@[simp] theorem kernel_resetWith (zero : R) (seeded : S) (k : KerNo) :
    kernel (resetWith zero seeded) k = KernelStore.invalid zero := by simp [kernel, resetWith]

@[simp] theorem buf_reset (n : BufNo) : buf State.reset n = .empty := buf_resetWith _ _ n

@[simp] theorem kernel_reset (k : KerNo) : kernel State.reset k = KernelStore.invalid 0 := kernel_resetWith _ _ k

@[simp] theorem firstFailure_nil : firstFailure [] = none := rfl

theorem firstFailure_cons (c : Bool × SubCause) (rest : List (Bool × SubCause)) :
    firstFailure (c :: rest) = if c.1 = true then some c.2 else firstFailure rest := rfl

/-- No check fails exactly when each of them passes. -/
theorem firstFailure_eq_none (checks : List (Bool × SubCause)) :
    firstFailure checks = none ↔ ∀ c ∈ checks, c.1 = false := by
  induction checks with
  | nil => simp
  | cons c rest ih =>
    rw [firstFailure_cons]
    by_cases h : c.1 = true <;> simp [h, ih]

/-- Everything the life of a command can do: it faults with the first failing check's sub-cause, or every check
passes and it completes with its result (60_exceptions.md R244). -/
theorem runCommand_cases (i : Instr) (checks : List (Bool × SubCause)) (result : State R S) :
    (∃ sub, firstFailure checks = some sub ∧ runCommand i checks result s = .next (raise sub (encode i) s)) ∨
    (firstFailure checks = none ∧ runCommand i checks result s = .next (complete result)) := by
  unfold runCommand
  cases h : firstFailure checks with
  | none => exact .inr ⟨rfl, rfl⟩
  | some sub => exact .inl ⟨sub, rfl, rfl⟩

theorem runCommand_fault {i : Instr} {checks : List (Bool × SubCause)} {result : State R S} {sub : SubCause}
    (h : firstFailure checks = some sub) : runCommand i checks result s = .next (raise sub (encode i) s) := by
  simp [runCommand, h]

theorem runCommand_complete {i : Instr} {checks : List (Bool × SubCause)} {result : State R S}
    (h : firstFailure checks = none) : runCommand i checks result s = .next (complete result) := by
  simp [runCommand, h]

/-- The checks of each command, in one place. -/
def commandChecksWith (i : Instr) (s : State R S) : List (Bool × SubCause) :=
  match i with
  | .kgen _ => kgenChecks P s
  | .genb _ => genbChecks P s
  | .enc d a code => encChecks P d a code s
  | .shape d a k => shapeChecks P d a k s
  | .mix d a => mixChecks d a s
  | .awgn d a => awgnChecks d a s
  | .mf d a k => mfChecks d a k s
  | .trec d a => trecChecks d a s
  | .dec d a code => decChecks d a code s
  | .ber a b => berChecks a b s

/-- What each command writes beside the counter and the sequencer state. -/
def commandResultWith (i : Instr) (s : State R S) : State R S :=
  match i with
  | .kgen k => setKernel s k (kgenStore P s)
  | .genb d => genbResult P d s
  | .enc d a code => setBuf s d (.samples (encodeBits P.num code (bitsIn s a)))
  | .shape d a k => setBuf s d (.samples (shapeSamples P.num (spsOf s) (kernel s k).h (samplesIn s a)))
  | .mix d a => setBuf s d (.samples (mixSamples P.num s.fc (spsOf s) (phaseRegister P) (samplesIn s a)))
  | .awgn d a => awgnResult P d a s
  | .mf d a k => setBuf s d (.samples (convSame P.num (samplesIn s a) (kernel s k).h))
  | .trec d a => trecResult P d a s
  | .dec d a code => decResult P d a code s
  | .ber a b => berResult P a b s

/-- A command is the life of R244 with its checks and its result. -/
theorem execWith_eq_runCommand (i : Instr) :
    execWith P i s = runCommand i (commandChecksWith P i s) (commandResultWith P i s) s := by
  cases i <;> rfl

/-- Everything a command can do, over any open parameters: take the fault of its first failing check, or complete. -/
theorem execWith_cases (i : Instr) :
    (∃ sub, firstFailure (commandChecksWith P i s) = some sub ∧ execWith P i s = .next (raise sub (encode i) s)) ∨
    (firstFailure (commandChecksWith P i s) = none ∧ execWith P i s = .next (complete (commandResultWith P i s))) := by
  rw [execWith_eq_runCommand]
  exact runCommand_cases s i _ _

end Generic

/-! ### The machine's own parameters -/

variable (s : State)

/-- The machine the host runs is the machine over any open parameters, at its own. -/
theorem exec_eq_execWith : exec = execWith params := by
  funext i s
  cases i <;> rfl

theorem step_eq_stepWith : step = stepWith params := by
  funext s
  rw [step, stepWith, exec_eq_execWith]

/-- The checks of each command on the machine's own parameters. -/
abbrev commandChecks (i : Instr) (s : State) : List (Bool × SubCause) := commandChecksWith params i s

/-- What each command writes on the machine's own parameters. -/
abbrev commandResult (i : Instr) (s : State) : State := commandResultWith params i s

theorem exec_eq_runCommand (i : Instr) : exec i s = runCommand i (commandChecks i s) (commandResult i s) s := by
  rw [exec_eq_execWith, execWith_eq_runCommand]

/-- Everything a command can do: take the fault of its first failing check, or complete. -/
theorem exec_cases (i : Instr) :
    (∃ sub, firstFailure (commandChecks i s) = some sub ∧ exec i s = .next (raise sub (encode i) s)) ∨
    (firstFailure (commandChecks i s) = none ∧ exec i s = .next (complete (commandResult i s))) := by
  rw [exec_eq_execWith]
  exact execWith_cases params s i

end Sys2Proof.Machine
end

