-- ==== Sys2Proof/Laws/Checks.lean ====
section
/-! SUPPORT. When each check fails and what it raises, as propositions, and the fault a command takes. -/

namespace Sys2Proof.Machine

variable (s : State)

@[simp] theorem checkCode_fails (code : LineCode) :
    (checkCode code).1 = true ↔ code = .code2 ∨ code = .code3 := by cases code <;> simp [checkCode]
@[simp] theorem checkCode_sub (code : LineCode) : (checkCode code).2 = .code := rfl

theorem isBits_iff (b : Buffer) : isBits b = true ↔ ∃ xs, b = .bits xs := by cases b <;> simp [isBits]
theorem isSamples_iff (b : Buffer) : isSamples b = true ↔ ∃ xs, b = .samples xs := by cases b <;> simp [isSamples]

@[simp] theorem checkBits_fails (n : BufNo) : (checkBits s n).1 = true ↔ ∀ xs, buf s n ≠ .bits xs := by
  cases h : buf s n <;> simp [checkBits, isBits, h]
@[simp] theorem checkBits_sub (n : BufNo) : (checkBits s n).2 = .kind := rfl

@[simp] theorem checkSamples_fails (n : BufNo) : (checkSamples s n).1 = true ↔ ∀ xs, buf s n ≠ .samples xs := by
  cases h : buf s n <;> simp [checkSamples, isSamples, h]
@[simp] theorem checkSamples_sub (n : BufNo) : (checkSamples s n).2 = .kind := rfl

@[simp] theorem checkAlias_fails (d a : BufNo) : (checkAlias d a).1 = true ↔ d = a := by simp [checkAlias]
@[simp] theorem checkAlias_sub (d a : BufNo) : (checkAlias d a).2 = .aliasing := rfl

@[simp] theorem checkSps_fails : (checkSps s).1 = true ↔ s.sps = 0 := by simp [checkSps]
@[simp] theorem checkSps_sub : (checkSps s).2 = .paramSps := rfl

@[simp] theorem checkSpan_fails : (checkSpan s).1 = true ↔ s.span = 0 := by simp [checkSpan]
@[simp] theorem checkSpan_sub : (checkSpan s).2 = .paramSpan := rfl

@[simp] theorem checkBeta_fails : (checkBeta params s).1 = true ↔ ¬ betaInRange s := by
  simp only [checkBeta, params_num, betaInRange, numLe, Bool.not_eq_true', ← Bool.not_eq_true, Bool.and_eq_true, Bool.or_eq_true]
@[simp] theorem checkBeta_sub : (checkBeta params s).2 = .paramBeta := rfl

@[simp] theorem checkParity_fails : (checkParity s).1 = true ↔ s.span.toNat * s.sps.toNat % 2 = 1 := by
  simp [checkParity, spanOf, spsOf]
@[simp] theorem checkParity_sub : (checkParity s).2 = .paramParity := rfl

@[simp] theorem checkKernel_fails (k : KerNo) : (checkKernel s k).1 = true ↔ (kernel s k).valid = false := by
  simp [checkKernel]
@[simp] theorem checkKernel_sub (k : KerNo) : (checkKernel s k).2 = .kernel := rfl

@[simp] theorem checkBufcap_fails (n : Nat) : (checkBufcap params n).1 = true ↔ Config.bufcap < n := decide_eq_true_iff
@[simp] theorem checkBufcap_sub (n : Nat) : (checkBufcap params n).2 = .capacity := rfl

@[simp] theorem checkKcap_fails (n : Nat) : (checkKcap params n).1 = true ↔ Config.kcap < n := decide_eq_true_iff
@[simp] theorem checkKcap_sub (n : Nat) : (checkKcap params n).2 = .capacity := rfl

@[simp] theorem checkShort_fails (n : BufNo) :
    (checkShort s n).1 = true ↔ (samplesIn s n).length < 10 * s.sps.toNat := decide_eq_true_iff
@[simp] theorem checkShort_sub (n : BufNo) : (checkShort s n).2 = .short := rfl

variable {s}

theorem bitsIn_of_bits {n : BufNo} {xs : List Bool} (h : buf s n = .bits xs) : bitsIn s n = xs := by
  simp [bitsIn, bitsOf, h]

theorem samplesIn_of_samples {n : BufNo} {xs : List Sample} (h : buf s n = .samples xs) : samplesIn s n = xs := by
  simp [samplesIn, samplesOf, h]

/-- A command whose first failing check has a sub-cause takes the fault of that sub-cause's codes. -/
theorem faults_of_firstFailure {i : Instr} {sub : SubCause} (h : firstFailure (commandChecks i s) = some sub) :
    faults i s (errCode (subKind sub)) (subCode sub) := by
  refine ⟨.error (subKind sub), rfl, ?_⟩
  rw [exec_eq_runCommand, runCommand_fault s h]
  rfl

/-- A command whose checks pass completes with its result. -/
theorem exec_complete_of_checks {i : Instr} (h : firstFailure (commandChecks i s) = none) :
    exec i s = .next (complete (commandResult i s)) := by
  rw [exec_eq_runCommand, runCommand_complete s h]

end Sys2Proof.Machine
end

