-- ==== Sys2Proof/Laws/Decode.lean ====
section
/-! SUPPORT. A command word as its seven fields: every word is the joining of its fields, masking works field by
field, and so what each row of the opcode map admits is a statement about fields. -/

namespace Sys2Proof

/-- The word with the seven fields of 30_encoding.md R91, the must-be-zero one included. -/
def joinFields (opc d a b : BitVec 4) (code : BitVec 2) (k : BitVec 1) (low : BitVec 13) : Word :=
  opc ++ d ++ a ++ b ++ code ++ k ++ low

/-- A word is the joining of its fields. -/
theorem joinFields_of_word (w : Word) :
    joinFields (w.extractLsb' 28 4) (w.extractLsb' 24 4) (w.extractLsb' 20 4) (w.extractLsb' 16 4)
      (w.extractLsb' 14 2) (w.extractLsb' 13 1) (w.extractLsb' 0 13) = w := by
  unfold joinFields
  apply BitVec.eq_of_getLsbD_eq
  intro i hi
  simp only [BitVec.getLsbD_append, BitVec.getLsbD_extractLsb']
  interval_cases i <;> simp

/-- Every word is the joining of some fields. -/
theorem exists_joinFields (w : Word) : ∃ opc d a b code k low, w = joinFields opc d a b code k low :=
  ⟨_, _, _, _, _, _, _, (joinFields_of_word w).symm⟩

/-- Masking works field by field. -/
theorem joinFields_and (opc d a b : BitVec 4) (code : BitVec 2) (k : BitVec 1) (low : BitVec 13)
    (opc' d' a' b' : BitVec 4) (code' : BitVec 2) (k' : BitVec 1) (low' : BitVec 13) :
    joinFields opc d a b code k low &&& joinFields opc' d' a' b' code' k' low' =
      joinFields (opc &&& opc') (d &&& d') (a &&& a') (b &&& b') (code &&& code') (k &&& k') (low &&& low') := by
  apply BitVec.eq_of_getLsbD_eq
  intro i hi
  simp only [joinFields, BitVec.getLsbD_and, BitVec.getLsbD_append]
  interval_cases i <;> simp

section
variable (opc d a b : BitVec 4) (code : BitVec 2) (k : BitVec 1) (low : BitVec 13)

@[simp] theorem extract_opc : (joinFields opc d a b code k low).extractLsb' 28 4 = opc := by
  apply BitVec.eq_of_getLsbD_eq
  intro i hi
  simp only [joinFields, BitVec.getLsbD_append, BitVec.getLsbD_extractLsb']
  interval_cases i <;> simp

@[simp] theorem extract_d : (joinFields opc d a b code k low).extractLsb' 24 4 = d := by
  apply BitVec.eq_of_getLsbD_eq
  intro i hi
  simp only [joinFields, BitVec.getLsbD_append, BitVec.getLsbD_extractLsb']
  interval_cases i <;> simp

@[simp] theorem extract_a : (joinFields opc d a b code k low).extractLsb' 20 4 = a := by
  apply BitVec.eq_of_getLsbD_eq
  intro i hi
  simp only [joinFields, BitVec.getLsbD_append, BitVec.getLsbD_extractLsb']
  interval_cases i <;> simp

@[simp] theorem extract_b : (joinFields opc d a b code k low).extractLsb' 16 4 = b := by
  apply BitVec.eq_of_getLsbD_eq
  intro i hi
  simp only [joinFields, BitVec.getLsbD_append, BitVec.getLsbD_extractLsb']
  interval_cases i <;> simp

@[simp] theorem extract_code : (joinFields opc d a b code k low).extractLsb' 14 2 = code := by
  apply BitVec.eq_of_getLsbD_eq
  intro i hi
  simp only [joinFields, BitVec.getLsbD_append, BitVec.getLsbD_extractLsb']
  interval_cases i <;> simp

@[simp] theorem extract_k : (joinFields opc d a b code k low).extractLsb' 13 1 = k := by
  apply BitVec.eq_of_getLsbD_eq
  intro i hi
  simp only [joinFields, BitVec.getLsbD_append, BitVec.getLsbD_extractLsb']
  interval_cases i; simp

@[simp] theorem extract_low : (joinFields opc d a b code k low).extractLsb' 0 13 = low := by
  apply BitVec.eq_of_getLsbD_eq
  intro i hi
  simp only [joinFields, BitVec.getLsbD_append, BitVec.getLsbD_extractLsb']
  interval_cases i <;> simp

end

/-- Two joinings are equal exactly when their fields are. -/
theorem joinFields_inj {opc d a b : BitVec 4} {code : BitVec 2} {k : BitVec 1} {low : BitVec 13}
    {opc' d' a' b' : BitVec 4} {code' : BitVec 2} {k' : BitVec 1} {low' : BitVec 13} :
    joinFields opc d a b code k low = joinFields opc' d' a' b' code' k' low' ↔
      opc = opc' ∧ d = d' ∧ a = a' ∧ b = b' ∧ code = code' ∧ k = k' ∧ low = low' := by
  constructor
  · intro h
    have e1 := congrArg (BitVec.extractLsb' 28 4) h
    have e2 := congrArg (BitVec.extractLsb' 24 4) h
    have e3 := congrArg (BitVec.extractLsb' 20 4) h
    have e4 := congrArg (BitVec.extractLsb' 16 4) h
    have e5 := congrArg (BitVec.extractLsb' 14 2) h
    have e6 := congrArg (BitVec.extractLsb' 13 1) h
    have e7 := congrArg (BitVec.extractLsb' 0 13) h
    simp only [extract_opc, extract_d, extract_a, extract_b, extract_code, extract_k, extract_low] at e1 e2 e3 e4 e5 e6 e7
    exact ⟨e1, e2, e3, e4, e5, e6, e7⟩
  · rintro ⟨rfl, rfl, rfl, rfl, rfl, rfl, rfl⟩; rfl

/-- The encoder's assembly is a joining with 0 below. -/
theorem assemble_eq (opc d a b : BitVec 4) (code : BitVec 2) (k : BitVec 1) :
    assemble opc d a b code k = joinFields opc d a b code k 0 := rfl

/-- A masked word equals a pattern exactly when it does so field by field. -/
theorem joinFields_admits (opc d a b : BitVec 4) (code : BitVec 2) (k : BitVec 1) (low : BitVec 13) (mask pattern : Word) :
    joinFields opc d a b code k low &&& mask = pattern ↔
      opc &&& mask.extractLsb' 28 4 = pattern.extractLsb' 28 4 ∧ d &&& mask.extractLsb' 24 4 = pattern.extractLsb' 24 4 ∧
      a &&& mask.extractLsb' 20 4 = pattern.extractLsb' 20 4 ∧ b &&& mask.extractLsb' 16 4 = pattern.extractLsb' 16 4 ∧
      code &&& mask.extractLsb' 14 2 = pattern.extractLsb' 14 2 ∧ k &&& mask.extractLsb' 13 1 = pattern.extractLsb' 13 1 ∧
      low &&& mask.extractLsb' 0 13 = pattern.extractLsb' 0 13 := by
  conv_lhs => rw [← joinFields_of_word mask, ← joinFields_of_word pattern, joinFields_and, joinFields_inj]

section
variable (opc d a b : BitVec 4) (code : BitVec 2) (k : BitVec 1) (low : BitVec 13)

@[simp] theorem opcField_join : opcField (joinFields opc d a b code k low) = opc := extract_opc ..

@[simp] theorem dField_join : dField (joinFields opc d a b code k low) = d.toFin :=
  congrArg BitVec.toFin (extract_d opc d a b code k low)

@[simp] theorem aField_join : aField (joinFields opc d a b code k low) = a.toFin :=
  congrArg BitVec.toFin (extract_a opc d a b code k low)

@[simp] theorem bField_join : bField (joinFields opc d a b code k low) = b.toFin :=
  congrArg BitVec.toFin (extract_b opc d a b code k low)

@[simp] theorem codeField_join : codeField (joinFields opc d a b code k low) = lineCodeOfField code :=
  congrArg lineCodeOfField (extract_code opc d a b code k low)

@[simp] theorem kField_join : kField (joinFields opc d a b code k low) = k.toFin :=
  congrArg BitVec.toFin (extract_k opc d a b code k low)

end

theorem and_ones4 (x : BitVec 4) : x &&& 15#4 = x := by revert x; decide
theorem and_ones2 (x : BitVec 2) : x &&& 3#2 = x := by revert x; decide
theorem and_ones1 (x : BitVec 1) : x &&& 1#1 = x := by revert x; decide
theorem and_ones13 (x : BitVec 13) : x &&& 8191#13 = x := by
  have h : (8191#13) = BitVec.allOnes 13 := by decide
  rw [h, BitVec.and_allOnes]

/-- The decoder, field by field: for each opcode the fields that must be 0 and the command read. -/
theorem decode_joinFields (opc d a b : BitVec 4) (code : BitVec 2) (k : BitVec 1) (low : BitVec 13) :
    decode (joinFields opc d a b code k low) =
     match opc.toNat with
     | 1 => if d = 0 ∧ a = 0 ∧ b = 0 ∧ code = 0 ∧ low = 0 then .ok (.kgen k.toFin) else .error .field
     | 2 => if a = 0 ∧ b = 0 ∧ code = 0 ∧ k = 0 ∧ low = 0 then .ok (.genb d.toFin) else .error .field
     | 3 => if b = 0 ∧ k = 0 ∧ low = 0 then .ok (.enc d.toFin a.toFin (lineCodeOfField code)) else .error .field
     | 4 => if b = 0 ∧ code = 0 ∧ low = 0 then .ok (.shape d.toFin a.toFin k.toFin) else .error .field
     | 5 => if b = 0 ∧ code = 0 ∧ k = 0 ∧ low = 0 then .ok (.mix d.toFin a.toFin) else .error .field
     | 6 => if b = 0 ∧ code = 0 ∧ k = 0 ∧ low = 0 then .ok (.awgn d.toFin a.toFin) else .error .field
     | 7 => if b = 0 ∧ code = 0 ∧ low = 0 then .ok (.mf d.toFin a.toFin k.toFin) else .error .field
     | 8 => if b = 0 ∧ code = 0 ∧ k = 0 ∧ low = 0 then .ok (.trec d.toFin a.toFin) else .error .field
     | 9 => if b = 0 ∧ k = 0 ∧ low = 0 then .ok (.dec d.toFin a.toFin (lineCodeOfField code)) else .error .field
     | 10 => if d = 0 ∧ code = 0 ∧ k = 0 ∧ low = 0 then .ok (.ber a.toFin b.toFin) else .error .field
     | _ => .error .opcode := by
  have h : opc = 0 ∨ opc = 1 ∨ opc = 2 ∨ opc = 3 ∨ opc = 4 ∨ opc = 5 ∨ opc = 6 ∨ opc = 7 ∨ opc = 8 ∨ opc = 9 ∨
    opc = 10 ∨ opc = 11 ∨ opc = 12 ∨ opc = 13 ∨ opc = 14 ∨ opc = 15 := by revert opc; decide
  rcases h with h | h | h | h | h | h | h | h | h | h | h | h | h | h | h | h <;> subst h <;>
    simp [decode, rowOf, opcodeTable, OpRow.admits, joinFields_admits, and_ones4, and_ones2, and_ones1, and_ones13]

end Sys2Proof
end

