-- ==== Sys2Proof/Laws/Elementary.lean ====
section
/-! SUPPORT. Where the two constants of the enclosures come from: their series, summed by integer arithmetic. -/

-- One theorem after another: each waits on the kernel, and waiting side by side takes a thread each.
set_option Elab.async false

namespace Sys2Proof.Machine

/-- `p/n - p/(q^2*(n+2)) + ...`: from `p = 1/q` and `n = 1` the series of `arctan (1/q)`, nested. -/
def arctanSeries (q : Nat) : Nat → Nat → Nat → Nat
  | 0, _, _ => 0
  | fuel + 1, n, p => p / n - arctanSeries q fuel (n + 2) (p / (q * q))

/-- `p/n + p/(q^2*(n+2)) + ...`: from `p = 1/q` and `n = 1` the series of `artanh (1/q)`, nested. -/
def artanhSeries (q : Nat) : Nat → Nat → Nat → Nat
  | 0, _, _ => 0
  | fuel + 1, n, p => p / n + artanhSeries q fuel (n + 2) (p / (q * q))

/-- `pi / 2 = 8 * arctan (1/5) - 2 * arctan (1/239)` (Machin). -/
theorem halfPi_eq :
    halfPi = 8 * arctanSeries 5 270 1 (fixedOne / 5) - 2 * arctanSeries 239 270 1 (fixedOne / 239) := by decide +kernel

/-- `log 10 = 6 * artanh (1/3) + 2 * artanh (1/9)`: three times `log 2` and `log (5/4)`. -/
theorem logTen_eq :
    logTen = 6 * artanhSeries 3 400 1 (fixedOne / 3) + 2 * artanhSeries 9 400 1 (fixedOne / 9) := by decide +kernel

end Sys2Proof.Machine
end

