-- ==== Sys2Proof/Laws/Formulas.lean ====
section
/-! SUPPORT. What each formula gives, element by element: its length and its elements. -/

namespace Sys2Proof.Machine

section Generic

variable {R : Type} (N : NumSystem R)

@[simp] theorem rawTaps_length (sps span : Nat) (beta : R) : (rawTaps N sps span beta).length = span * sps + 1 := by
  simp [rawTaps, kernelLength]

@[simp] theorem normalise_length (g : List R) : (normalise N g).length = g.length := by simp [normalise]

@[simp] theorem kernelTaps_length (sps span : Nat) (beta : R) :
    (kernelTaps N sps span beta).length = span * sps + 1 := by simp [kernelTaps]

theorem rawTaps_getElem? (sps span : Nat) (beta : R) {i : Nat} (h : i < span * sps + 1) :
    (rawTaps N sps span beta)[i]? = some (rawTap N sps span beta i) := by
  simp [rawTaps, kernelLength, h]

theorem indexDistance_eq (i c : Nat) : indexDistance i c = ((i : Int) - (c : Int)).natAbs := by
  unfold indexDistance; omega

/-- The three branches of the tap formula in one text. Stated over any NUM: the machine's own operations are better
not compared by evaluation. -/
theorem rawTap_eq {R : Type} (N : NumSystem R) (sps span : Nat) (beta : R) (i : Nat) :
    rawTap N sps span beta i =
      (let c := span * sps / 2
       let four := N.ofNat 4
       let t := N.div (N.sub (N.ofNat i) (N.ofNat c)) (N.ofNat sps)
       let u := N.mul (N.mul four beta) t
       let v := N.div N.pi (N.mul four beta)
       let p := N.div (N.ofNat 2) N.pi
       if i = c then N.add (N.sub N.one beta) (N.div (N.mul four beta) N.pi)
       else if N.eq (N.mul (N.mul four beta) (N.ofNat ((i : Int) - (c : Int)).natAbs)) (N.ofNat sps) then
         N.mul (N.div beta (N.sqrt (N.ofNat 2)))
           (N.add (N.mul (N.add N.one p) (N.sin v)) (N.mul (N.sub N.one p) (N.cos v)))
       else
         N.div (N.add (N.sin (N.mul (N.mul N.pi t) (N.sub N.one beta)))
             (N.mul u (N.cos (N.mul (N.mul N.pi t) (N.add N.one beta)))))
           (N.mul (N.mul N.pi t) (N.sub N.one (N.mul u u)))) := by
  simp only [rawTap, indexDistance_eq, centreTap, singularTap, generalTap, tapTime, numSquare, centreIndex]

@[simp] theorem convSame_length (x : List (Cplx R)) (h : List R) : (convSame N x h).length = x.length := by
  simp [convSame]

theorem convSame_getElem? (x : List (Cplx R)) (h : List R) {n : Nat} (hn : n < x.length) :
    (convSame N x h)[n]? = some (convAt N x h n) := by simp [convSame, hn]

/-- The loop of `convAt` is the sum over the taps that have a partner. -/
theorem convAt_eq_centredSum (x : List (Cplx R)) (h : List R) (n : Nat) : convAt N x h n = centredSum N x h n := by
  simp only [convAt, centredSum, List.foldl_filter]
  congr 1
  funext acc m
  simp [convStep, kernelCentre]

@[simp] theorem upsample_length (sps : Nat) (sym : List (Cplx R)) :
    (upsample N sps sym).length = sym.length * sps := by simp [upsample]

theorem upsample_getElem? (sps : Nat) (sym : List (Cplx R)) {n : Nat} (hn : n < sym.length * sps) :
    (upsample N sps sym)[n]? = some (if n % sps = 0 then sym.getD (n / sps) (cplxZero N) else cplxZero N) := by
  simp [upsample, hn]

@[simp] theorem shapeSamples_length (sps : Nat) (h : List R) (sym : List (Cplx R)) :
    (shapeSamples N sps h sym).length = sym.length * sps := by simp [shapeSamples]

@[simp] theorem mixSamples_length (fc : R) (sps : Nat) (phase : R) (x : List (Cplx R)) :
    (mixSamples N fc sps phase x).length = x.length := by simp [mixSamples]

theorem mixSamples_getElem? (fc : R) (sps : Nat) (phase : R) (x : List (Cplx R)) {t : Nat} {z : Cplx R}
    (h : x[t]? = some z) :
    (mixSamples N fc sps phase x)[t]? = some (cplxScale N (carrierAt N fc sps phase t) z) := by
  have ht : t < x.length := (List.getElem?_eq_some_iff.mp h).1
  have hz : x[t] = z := (List.getElem?_eq_some_iff.mp h).2
  simp [mixSamples, ht, hz]

@[simp] theorem downsample_length (sps off : Nat) (x : List (Cplx R)) :
    (downsample N sps off x).length = downsampleCount x.length off sps := by simp [downsample]

theorem downsample_getElem? (sps off : Nat) (x : List (Cplx R)) {q : Nat}
    (hq : q < downsampleCount x.length off sps) (hx : off + q * sps < x.length) :
    (downsample N sps off x)[q]? = x[off + q * sps]? := by
  simp [downsample, hq, hx]

@[simp] theorem encodeBits_length_nrz (bits : List Bool) : (encodeBits N .nrz bits).length = bits.length := by
  simp [encodeBits]

theorem manchesterSymbols_length (b : Bool) : (manchesterSymbols N b).length = 2 := by
  cases b <;> rfl

@[simp] theorem encodeBits_length_manchester (bits : List Bool) :
    (encodeBits N .manchester bits).length = 2 * bits.length := by
  induction bits with
  | nil => rfl
  | cons b rest ih =>
    have : encodeBits N .manchester (b :: rest) = manchesterSymbols N b ++ encodeBits N .manchester rest := rfl
    rw [this, List.length_append, ih, manchesterSymbols_length, List.length_cons]
    omega

/-- The length of an encoded sequence is the one its capacity check uses. -/
theorem encodeBits_length_le (code : LineCode) (bits : List Bool) :
    (encodeBits N code bits).length ≤ encodedLength code bits.length := by
  cases code <;> simp [encodedLength] <;> simp [encodeBits]

theorem manchesterPairs_length : ∀ x : List (Cplx R), (manchesterPairs N x).length = x.length / 2
  | [] => by simp [manchesterPairs]
  | [_] => by simp [manchesterPairs]
  | _ :: _ :: rest => by
    have ih := manchesterPairs_length rest
    simp only [manchesterPairs, List.length_cons, ih]
    omega

/-- Pair `p` is samples 2p and 2p+1. -/
theorem manchesterPairs_eq_map : ∀ x : List (Cplx R), manchesterPairs N x =
    (List.range (x.length / 2)).map
      (fun p => manchesterDecide N (x.getD (2 * p) (cplxZero N)) (x.getD (2 * p + 1) (cplxZero N)))
  | [] => by simp [manchesterPairs]
  | [_] => by simp [manchesterPairs]
  | z0 :: z1 :: rest => by
    have ih := manchesterPairs_eq_map rest
    have hl : (z0 :: z1 :: rest).length / 2 = rest.length / 2 + 1 := by simp only [List.length_cons]; omega
    rw [hl, List.range_succ_eq_map, List.map_cons, List.map_map]
    simp only [manchesterPairs, ih]
    refine congrArg₂ List.cons rfl ?_
    apply List.map_congr_left
    intro p _
    have e1 : 2 * (p + 1) = 2 * p + 1 + 1 := by omega
    have e2 : 2 * (p + 1) + 1 = 2 * p + 1 + 1 + 1 := by omega
    simp [Function.comp, Nat.succ_eq_add_one, e1]

@[simp] theorem decideBits_length_nrz (x : List (Cplx R)) : (decideBits N .nrz x).length = x.length := by
  simp [decideBits]

@[simp] theorem decideBits_length_manchester (x : List (Cplx R)) :
    (decideBits N .manchester x).length = x.length / 2 := by simp [decideBits, manchesterPairs_length]

theorem decideBits_length_le (code : LineCode) (x : List (Cplx R)) : (decideBits N code x).length ≤ x.length := by
  cases code
  · simp
  · simp; omega
  all_goals simp [decideBits]

theorem ambiguousCount_le (code : LineCode) (x : List (Cplx R)) : ambiguousCount N code x ≤ x.length := by
  cases code
  case manchester =>
    refine (List.length_filter_le ..).trans ?_
    rw [manchesterPairs_length]
    omega
  all_goals simp [ambiguousCount]

@[simp] theorem addNoise_length {S : Type} (G : RandomSource S R) (sigma : R) :
    ∀ (x : List (Cplx R)) (st : S), (addNoise N G sigma x st).1.length = x.length
  | [], _ => rfl
  | _ :: rest, st => by simp [addNoise, addNoise_length G sigma rest]

@[simp] theorem awgnSamples_length {S : Type} (G : RandomSource S R) (snrDb : R) (x : List (Cplx R)) (st : S) :
    (awgnSamples N G snrDb x st).1.length = x.length := by
  cases x <;> simp [awgnSamples]

end Generic

@[simp] theorem drawBits_length {S R : Type} (G : RandomSource S R) :
    ∀ (n : Nat) (st : S), (drawBits G n st).1.length = n
  | 0, _ => rfl
  | n + 1, st => by simp [drawBits, drawBits_length G n]

/-- The state after one draw and `n` more is the state after `n + 1`. -/
theorem bitState_shift (st : RngState) : ∀ n, bitState (rng.bit st).2 n = bitState st (n + 1)
  | 0 => rfl
  | n + 1 => by
    show (rng.bit (bitState (rng.bit st).2 n)).2 = (rng.bit (bitState st (n + 1))).2
    rw [bitState_shift st n]

theorem bitDraw_shift (st : RngState) (n : Nat) : bitDraw (rng.bit st).2 n = bitDraw st (n + 1) := by
  simp only [bitDraw, bitState_shift]

/-- `n` draws in order. -/
theorem drawBits_eq : ∀ (n : Nat) (st : RngState),
    drawBits rng n st = ((List.range n).map (bitDraw st), bitState st n)
  | 0, _ => rfl
  | n + 1, st => by
    have hmap : List.map (bitDraw (rng.bit st).2) (List.range n) =
        List.map (bitDraw st ∘ Nat.succ) (List.range n) :=
      List.map_congr_left (fun i _ => bitDraw_shift st i)
    rw [drawBits, drawBits_eq n, bitState_shift, hmap, List.range_succ_eq_map, List.map_cons, List.map_map]
    rfl

theorem gaussState_shift (st : RngState) : ∀ n, gaussState (rng.gauss st).2 n = gaussState st (n + 1)
  | 0 => rfl
  | n + 1 => by
    show (rng.gauss (gaussState (rng.gauss st).2 n)).2 = (rng.gauss (gaussState st (n + 1))).2
    rw [gaussState_shift st n]

theorem gaussDraw_shift (st : RngState) (n : Nat) : gaussDraw (rng.gauss st).2 n = gaussDraw st (n + 1) := by
  simp only [gaussDraw, gaussState_shift]

/-- Each sample takes two draws, the real part's first. -/
theorem addNoise_getElem? (sigma : Scalar) : ∀ (x : List Sample) (st : RngState) (t : Nat) (z : Sample),
    x[t]? = some z → (addNoise num rng sigma x st).1[t]? =
      some ⟨num.add z.re (num.mul sigma (gaussDraw st (2 * t))), num.add z.im (num.mul sigma (gaussDraw st (2 * t + 1)))⟩
  | [], _, _, _, h => by simp at h
  | z0 :: rest, st, 0, z, h => by
    simp only [List.getElem?_cons_zero, Option.some.injEq] at h
    subst h
    rfl
  | z0 :: rest, st, t + 1, z, h => by
    have ih := addNoise_getElem? sigma rest (rng.gauss (rng.gauss st).2).2 t z (by simpa using h)
    simp only [addNoise, List.getElem?_cons_succ, ih, gaussDraw_shift]
    rfl

theorem addNoise_state (sigma : Scalar) : ∀ (x : List Sample) (st : RngState),
    (addNoise num rng sigma x st).2 = gaussState st (2 * x.length)
  | [], _ => rfl
  | z0 :: rest, st => by
    have e : 2 * (z0 :: rest).length = 2 * rest.length + 1 + 1 := by simp only [List.length_cons]; omega
    rw [addNoise, addNoise_state sigma rest, gaussState_shift, gaussState_shift, e]

/-- The positions that differ, counted by index. -/
theorem bitErrorCount_eq (xs ys : List Bool) : bitErrorCount xs ys =
    ((List.range (min xs.length ys.length)).filter (fun i => xs.getD i false != ys.getD i false)).length := by
  have hz : xs.zip ys = (List.range (min xs.length ys.length)).map (fun i => (xs.getD i false, ys.getD i false)) := by
    apply List.ext_getElem
    · simp
    · intro i h1 h2
      have hx : i < xs.length := by simp at h1; omega
      have hy : i < ys.length := by simp at h1; omega
      simp [hx, hy]
  rw [bitErrorCount, hz, List.filter_map, List.length_map]
  rfl

theorem bitErrorCount_le (xs ys : List Bool) : bitErrorCount xs ys ≤ compareLength xs ys := by
  refine (List.length_filter_le ..).trans ?_
  simp [compareLength]

end Sys2Proof.Machine
end

