-- ==== Sys2Proof/Laws/PerInstr.lean ====
section
/-! SUPPORT. For each command: the encoder writes a well-formed word, by the formats of 30_encoding.md R92 and the
must-be-zero rule R93. -/

namespace Sys2Proof.Laws.EncodeWellFormed

/-- The word of a command is well-formed (30_encoding.md R92, R93). -/
def Statement (i : Instr) : Prop := wellFormedWord (encode i) = true

theorem kgen (k : KerNo) : Statement (.kgen k) := by
  simp [Statement, encode, assemble_eq, wellFormedWord, formatOf, mustBeZeroHolds, Format.usesK]

theorem genb (d : BufNo) : Statement (.genb d) := by
  simp [Statement, encode, assemble_eq, wellFormedWord, formatOf, mustBeZeroHolds, Format.usesD]

theorem enc (d a : BufNo) (code : LineCode) : Statement (.enc d a code) := by
  simp [Statement, encode, assemble_eq, wellFormedWord, formatOf, mustBeZeroHolds, Format.usesD, Format.usesA,
    Format.usesCode]

theorem shape (d a : BufNo) (k : KerNo) : Statement (.shape d a k) := by
  simp [Statement, encode, assemble_eq, wellFormedWord, formatOf, mustBeZeroHolds, Format.usesD, Format.usesA,
    Format.usesK]

theorem mix (d a : BufNo) : Statement (.mix d a) := by
  simp [Statement, encode, assemble_eq, wellFormedWord, formatOf, mustBeZeroHolds, Format.usesD, Format.usesA]

theorem awgn (d a : BufNo) : Statement (.awgn d a) := by
  simp [Statement, encode, assemble_eq, wellFormedWord, formatOf, mustBeZeroHolds, Format.usesD, Format.usesA]

theorem mf (d a : BufNo) (k : KerNo) : Statement (.mf d a k) := by
  simp [Statement, encode, assemble_eq, wellFormedWord, formatOf, mustBeZeroHolds, Format.usesD, Format.usesA,
    Format.usesK]

theorem trec (d a : BufNo) : Statement (.trec d a) := by
  simp [Statement, encode, assemble_eq, wellFormedWord, formatOf, mustBeZeroHolds, Format.usesD, Format.usesA]

theorem dec (d a : BufNo) (code : LineCode) : Statement (.dec d a code) := by
  simp [Statement, encode, assemble_eq, wellFormedWord, formatOf, mustBeZeroHolds, Format.usesD, Format.usesA,
    Format.usesCode]

theorem ber (a b : BufNo) : Statement (.ber a b) := by
  simp [Statement, encode, assemble_eq, wellFormedWord, formatOf, mustBeZeroHolds, Format.usesA, Format.usesB]

end Sys2Proof.Laws.EncodeWellFormed
end

