-- ==== Sys2Proof/Laws/Transactions.lean ====
section
/-! SUPPORT. Everything a transaction can do: one inversion lemma for each, and the one for the step. -/

namespace Sys2Proof.Machine

variable {s t : State}

@[simp] theorem isReset_eq_false {R : Type} (tr : Transaction R) : tr.isReset = false ↔ tr ≠ .reset := by
  cases tr <;> simp [Transaction.isReset]

/-- RESET leaves the reset state and the host's stream (20_memory.md R75; log 8). -/
theorem resetCore_params (s : State) : resetCore params s = { State.reset with pending := s.pending } := rfl

theorem step_of_no_pending (h : s.pending = []) : step s = .next s := by simp [step, hostStep, h]

theorem step_of_pending {tr : Transaction} {rest : List Transaction} (h : s.pending = tr :: rest) :
    step s = transact params exec tr { s with pending := rest } := by simp [step, hostStep, h]

theorem transact_of_not_busy {tr : Transaction} (h : s.seqState ≠ .busy) : transact params exec tr s = respond params exec tr s := by
  simp [transact, h]

theorem transact_reset : transact params exec .reset s = .next (resetCore params s) := by simp [transact, respond]

/-- A register write in IDLE that is taken puts a value of the register's type into one of the seven parameter
registers, and reseeds with `SEED` (20_memory.md R68; 10_state.md R31). -/
theorem writeReg_cases {n : BitVec 8} {v : HostValue} (h : writeReg params s n v = some t) :
    (∃ w, t = { s with sps := w }) ∨ (∃ w, t = { s with span := w }) ∨ (∃ w, t = { s with nbits := w }) ∨
    (∃ w, t = writeSeed params s w) ∨ (∃ x, isFinite x = true ∧ t = { s with beta := x }) ∨
    (∃ x, isFinite x = true ∧ t = { s with fc := x }) ∨ (∃ x, isFinite x = true ∧ t = { s with snrDb := x }) := by
  have hreal : ∀ x, hostReal params v = some x → isFinite x = true := by
    intro x hx
    cases v with
    | int => cases hx
    | real y =>
      simp only [hostReal, Option.ite_none_right_eq_some, Option.some.injEq] at hx
      exact hx.2 ▸ hx.1
  unfold writeReg at h
  split at h <;> simp only [Option.map_eq_some_iff, reduceCtorEq] at h
  · obtain ⟨w, _, rfl⟩ := h; exact .inl ⟨w, rfl⟩
  · obtain ⟨w, _, rfl⟩ := h; exact .inr (.inl ⟨w, rfl⟩)
  · obtain ⟨w, _, rfl⟩ := h; exact .inr (.inr (.inl ⟨w, rfl⟩))
  · obtain ⟨w, _, rfl⟩ := h; exact .inr (.inr (.inr (.inl ⟨w, rfl⟩)))
  · obtain ⟨x, hx, rfl⟩ := h; exact .inr (.inr (.inr (.inr (.inl ⟨x, hreal x hx, rfl⟩))))
  · obtain ⟨x, hx, rfl⟩ := h; exact .inr (.inr (.inr (.inr (.inr (.inl ⟨x, hreal x hx, rfl⟩)))))
  · obtain ⟨x, hx, rfl⟩ := h; exact .inr (.inr (.inr (.inr (.inr (.inr ⟨x, hreal x hx, rfl⟩)))))

/-- A buffer that can be loaded fits (20_memory.md R70, R71). -/
theorem loadedBuffer_fits {data : LoadData} {b : Buffer} (h : loadedBuffer params data = some b) :
    bufLen b ≤ Config.bufcap := by
  cases data <;>
    simp only [loadedBuffer, Option.ite_none_right_eq_some, Option.some.injEq, Bool.and_eq_true,
      decide_eq_true_eq] at h <;>
    obtain ⟨⟨_, hl⟩, rfl⟩ := h <;> simpa [bufLen] using hl

/-- The fields of `STATUS` (10_state.md R36). -/
theorem statusWord_fields (st : SeqState) (degen ambig : Bool) :
    (statusWord st degen ambig).extractLsb' 0 2 = stateCode st ∧ (statusWord st degen ambig).getLsbD 2 = degen ∧
    (statusWord st degen ambig).getLsbD 3 = ambig ∧ (statusWord st degen ambig).extractLsb' 4 28 = 0 := by
  cases st <;> cases degen <;> cases ambig <;> decide

/-- `BnKIND` (10_state.md R27, R45). -/
theorem readReg_kind (s : State) (n : BufNo) :
    readReg params s (BitVec.ofNat 8 (0x40 + 2 * n.val)) = some (.u32 (kindCode (buf s n))) := by
  fin_cases n <;> simp [readReg, bufferDescriptor]
  rfl

/-- `BnLEN` (10_state.md R27, R45; log 12). -/
theorem readReg_length (s : State) (n : BufNo) :
    readReg params s (BitVec.ofNat 8 (0x41 + 2 * n.val)) = some (.u32 (BitVec.ofNat 32 (bufLen (buf s n)))) := by
  fin_cases n <;> simp [readReg, bufferDescriptor]
  rfl

/-- Everything a register read can do: answer. -/
theorem regRead_eq (n : BitVec 8) (s : State) : ∃ r, regRead params n s = answer r s := by
  unfold regRead; split <;> exact ⟨_, rfl⟩

/-- Everything a register write can do: ERRCLR in FAULTED, a parameter write outside it, or an answer alone. -/
theorem regWrite_cases (n : BitVec 8) (v : HostValue) (s : State) :
    (s.seqState = .faulted ∧ n = errNumber ∧ regWrite params n v s = errClr s) ∨
    (s.seqState ≠ .faulted ∧ ∃ s', writeReg params s n v = some s' ∧ regWrite params n v s = answer .ok s') ∨
    regWrite params n v s = answer .refused s := by
  unfold regWrite
  split
  · split
    · exact .inl ⟨‹_›, ‹_›, rfl⟩
    · exact .inr (.inr rfl)
  · cases h : writeReg params s n v with
    | none => exact .inr (.inr rfl)
    | some s' => exact .inr (.inl ⟨‹_›, s', rfl, rfl⟩)

/-- Everything a buffer load can do: replace the buffer outside FAULTED, or an answer alone. -/
theorem bufLoad_cases (n : BufNo) (data : LoadData) (s : State) :
    (s.seqState ≠ .faulted ∧ ∃ b, loadedBuffer params data = some b ∧ bufLoad params n data s = answer .ok (setBuf s n b)) ∨
    bufLoad params n data s = answer .refused s := by
  unfold bufLoad
  split
  · exact .inr rfl
  · cases h : loadedBuffer params data with
    | none => exact .inr rfl
    | some b => exact .inl ⟨‹_›, b, rfl, rfl⟩

/-- Everything a CMD can do: REJECTED in FAULTED, IllegalCommand, or the command it decodes to
(60_exceptions.md R244). -/
theorem command_cases (w : Word) (s : State) :
    (s.seqState = .faulted ∧ command exec w s = .next (answer (.command .rejected) s)) ∨
    (s.seqState ≠ .faulted ∧ ∃ e, decode w = .error e ∧ command exec w s = .next (raise (illegalSub e) w s)) ∨
    (s.seqState ≠ .faulted ∧ ∃ i, decode w = .ok i ∧ command exec w s = exec i s) := by
  unfold command
  split
  · exact .inl ⟨‹_›, rfl⟩
  · cases h : decode w with
    | error e => exact .inr (.inl ⟨‹_›, e, rfl, rfl⟩)
    | ok i => exact .inr (.inr ⟨‹_›, i, rfl, rfl⟩)

/-- Everything a step to a next state can do: wait, answer alone, ERRCLR, a parameter write, a buffer load, a fault,
a command that completes, RESET. `u` is the state with the transaction taken off the host's stream. -/
theorem step_cases (h : step s = .next t) :
    (s.pending = [] ∧ t = s) ∨
    ∃ tr rest, s.pending = tr :: rest ∧ ∃ u : State, u = { s with pending := rest } ∧
      ((∃ r, t = answer r u) ∨
       (s.seqState = .faulted ∧ (∃ v, tr = .regwr errNumber v) ∧ t = errClr u) ∨
       (s.seqState = .idle ∧ ∃ n v u', tr = .regwr n v ∧ writeReg params u n v = some u' ∧ t = answer .ok u') ∨
       (s.seqState = .idle ∧ ∃ n data b, tr = .bufld n data ∧ loadedBuffer params data = some b ∧
          t = answer .ok (setBuf u n b)) ∨
       (s.seqState = .idle ∧ ∃ sub w w', tr = .cmd w ∧ t = raise sub w' u) ∨
       (s.seqState = .idle ∧ ∃ w i, tr = .cmd w ∧ decode w = .ok i ∧
          firstFailure (commandChecks i u) = none ∧ t = complete (commandResult i u)) ∨
       (tr = .reset ∧ t = resetCore params u)) := by
  cases hp : s.pending with
  | nil =>
    rw [step_of_no_pending hp] at h
    cases h
    exact .inl ⟨rfl, rfl⟩
  | cons tr rest =>
    refine .inr ⟨tr, rest, rfl, _, rfl, ?_⟩
    rw [step_of_pending hp] at h
    by_cases hb : s.seqState = .busy ∧ tr ≠ .reset
    · simp [transact, hb] at h
    · have h' : respond params exec tr { s with pending := rest } = .next t := by
        simpa only [transact, isReset_eq_false, hb, if_false] using h
      have hnb : tr ≠ .reset → s.seqState ≠ .busy := fun hr hs => hb ⟨hs, hr⟩
      have idle : tr ≠ .reset → s.seqState ≠ .faulted → s.seqState = .idle := by
        intro hr hf
        have := hnb hr
        cases e : s.seqState <;> simp_all
      clear h
      cases tr with
      | regrd n =>
        obtain ⟨r, e⟩ := regRead_eq n { s with pending := rest }
        simp only [respond, e, Host.Outcome.next.injEq] at h'
        exact .inl ⟨r, h'.symm⟩
      | regwr n v =>
        simp only [respond, Host.Outcome.next.injEq] at h'
        rcases regWrite_cases n v { s with pending := rest } with ⟨hf, rfl, e⟩ | ⟨hf, u', hw, e⟩ | e <;> rw [e] at h'
        · exact .inr (.inl ⟨hf, ⟨v, rfl⟩, h'.symm⟩)
        · exact .inr (.inr (.inl ⟨idle (by simp) hf, n, v, u', rfl, hw, h'.symm⟩))
        · exact .inl ⟨_, h'.symm⟩
      | bufld n data =>
        simp only [respond, Host.Outcome.next.injEq] at h'
        rcases bufLoad_cases n data { s with pending := rest } with ⟨hf, b, hb', e⟩ | e <;> rw [e] at h'
        · exact .inr (.inr (.inr (.inl ⟨idle (by simp) hf, n, data, b, rfl, hb', h'.symm⟩)))
        · exact .inl ⟨_, h'.symm⟩
      | bufrd n =>
        simp only [respond, bufRead, Host.Outcome.next.injEq] at h'
        exact .inl ⟨_, h'.symm⟩
      | kerrd k =>
        simp only [respond, kerRead, Host.Outcome.next.injEq] at h'
        exact .inl ⟨_, h'.symm⟩
      | cmd w =>
        simp only [respond] at h'
        rcases command_cases w { s with pending := rest } with ⟨_, e⟩ | ⟨hf, e', _, e⟩ | ⟨hf, i, hd, e⟩ <;> rw [e] at h'
        · simp only [Host.Outcome.next.injEq] at h'
          exact .inl ⟨_, h'.symm⟩
        · simp only [Host.Outcome.next.injEq] at h'
          exact .inr (.inr (.inr (.inr (.inl ⟨idle (by simp) hf, _, w, _, rfl, h'.symm⟩))))
        · rcases exec_cases { s with pending := rest } i with ⟨sub, _, e2⟩ | ⟨hn, e2⟩ <;> rw [e2] at h' <;>
            simp only [Host.Outcome.next.injEq] at h'
          · exact .inr (.inr (.inr (.inr (.inl ⟨idle (by simp) hf, sub, w, _, rfl, h'.symm⟩))))
          · exact .inr (.inr (.inr (.inr (.inr (.inl ⟨idle (by simp) hf, w, i, rfl, hd, hn, h'.symm⟩)))))
      | reset =>
        simp only [respond, Host.Outcome.next.injEq] at h'
        exact .inr (.inr (.inr (.inr (.inr (.inr ⟨rfl, h'.symm⟩)))))

end Sys2Proof.Machine
end

