-- ==== Sys2Proof/Tests/Slice0.lean ====
section
/-! SUPPORT. Small tests, each against the spec's own encodings and vectors (30_encoding.md R106;
95_test_vectors.md) or a calculation by hand, and for every statement with hypotheses a witness that meets them. -/

-- One theorem after another: each waits on the kernel, and waiting side by side takes a thread each.
set_option Elab.async false

namespace Sys2Proof.Tests

open Sys2Proof.Machine

/-! ### Words -/

/-- A word with a bit at 1 outside its format is turned down: one test for each check of R93 and R95. -/
theorem test_illFormed_opcode : wellFormedWord 0x00000000 = false ∧ wellFormedWord 0xB0000000 = false := by decide
theorem test_illFormed_low : wellFormedWord 0x53200001 = false := by decide
theorem test_illFormed_d : wellFormedWord 0x11000000 = false := by decide
theorem test_illFormed_a : wellFormedWord 0x10100000 = false := by decide
theorem test_illFormed_b : wellFormedWord 0x53210000 = false := by decide
theorem test_illFormed_code : wellFormedWord 0x53204000 = false := by decide
theorem test_illFormed_k : wellFormedWord 0x53202000 = false := by decide

/-- Each opcode's word, its bits written out field by field from R91 and R94: opc d a b code k zero. -/
theorem test_decode_kgen : decode 0b0001_0000_0000_0000_00_1_0000000000000 = .ok (.kgen 1) := by decide
theorem test_decode_genb : decode 0b0010_1001_0000_0000_00_0_0000000000000 = .ok (.genb 9) := by decide
theorem test_decode_enc : decode 0b0011_0001_0110_0000_01_0_0000000000000 = .ok (.enc 1 6 .manchester) := by decide
theorem test_decode_shape : decode 0b0100_0010_1000_0000_00_1_0000000000000 = .ok (.shape 2 8 1) := by decide
theorem test_decode_mix : decode 0b0101_0011_0010_0000_00_0_0000000000000 = .ok (.mix 3 2) := by decide
theorem test_decode_awgn : decode 0b0110_0100_0011_0000_00_0_0000000000000 = .ok (.awgn 4 3) := by decide
theorem test_decode_mf : decode 0b0111_0110_0101_0000_00_1_0000000000000 = .ok (.mf 6 5 1) := by decide
theorem test_decode_trec : decode 0b1000_0111_1110_0000_00_0_0000000000000 = .ok (.trec 7 14) := by decide
theorem test_decode_dec : decode 0b1001_1000_0111_0000_10_0_0000000000000 = .ok (.dec 8 7 .code2) := by decide
theorem test_decode_ber : decode 0b1010_0000_0100_1000_00_0_0000000000000 = .ok (.ber 4 8) := by decide

/-- 30_encoding.md R106. -/
theorem test_encode : encode (.enc 1 0 .manchester) = 0x31004000 ∧ encode (.mf 6 5 1) = 0x76502000 ∧
    encode (.ber 0 8) = 0xA0080000 := by decide

/-- 30_encoding.md R102. -/
theorem test_assembly : Instr.assembly (.enc 1 0 .nrz) = "ENC B1, B0, NRZ" := by decide

theorem test_tableWord : decodeTableWord 32 0x42102000 = some (.shape 2 1 1) := by decide

/-! ### Arithmetic: the results of IEEE 754 binary64 -/

/-- 0.1 + 0.2, 0.1 - 0.1 and -0.1 + 0.1. -/
theorem test_add : num.add 0x3FB999999999999A 0x3FC999999999999A = 0x3FD3333333333334 ∧
    num.sub 0x3FB999999999999A 0x3FB999999999999A = 0 ∧ num.add 0xBFB999999999999A 0x3FB999999999999A = 0 := by
  decide +kernel

/-- 2 / 5, 1 / 3 and 1 / -0. -/
theorem test_div : num.div (num.ofNat 2) (num.ofNat 5) = 0x3FD999999999999A ∧
    num.div num.one (num.ofNat 3) = 0x3FD5555555555555 ∧ num.div num.one 0x8000000000000000 = 0xFFF0000000000000 := by
  decide +kernel

/-- The square roots of 2 and of 9. -/
theorem test_sqrt : num.sqrt (num.ofNat 2) = 0x3FF6A09E667F3BCD ∧ num.sqrt (num.ofNat 9) = num.ofNat 3 := by
  decide +kernel

/-- 2^53 + 1 lies half way and goes to the even 2^53; half the least subnormal goes to 0; an overflow to infinity. -/
theorem test_rounding : num.ofNat 9007199254740993 = 0x4340000000000000 ∧ num.mul 1 0x3FE0000000000000 = 0 ∧
    num.mul 0x7FEFFFFFFFFFFFFF (num.ofNat 2) = 0x7FF0000000000000 := by decide +kernel

theorem test_compare : num.lt 0xBFF0000000000000 0 = true ∧ num.lt 0 0x8000000000000000 = false ∧
    num.eq 0 0x8000000000000000 = true ∧ num.eq 0x7FF8000000000000 0x7FF8000000000000 = false := by decide +kernel

/-! ### Commands -/

/-- The next state, where there is one. -/
def nextState (o : Host.Outcome State Fault Refusal) : Option State :=
  match o with
  | .next s => some s
  | _ => none

/-- The reset state with one buffer filled. -/
def withBuf (n : BufNo) (b : Buffer) : State := setBuf State.reset n b

/-- The reset state with KGEN's parameters. -/
def withParameters (sps span : Word) (beta : Scalar) : State :=
  { State.reset with sps := sps, span := span, beta := beta }

/-- A real sample. -/
def real (x : Scalar) : Sample := ⟨x, 0⟩

/-- The binary64 values -3, -2, -1, 0, 1, 2, 3, 4, 5 and 1/2. -/
def m3 : Scalar := 0xC008000000000000
def m2 : Scalar := 0xC000000000000000
def m1 : Scalar := 0xBFF0000000000000
def p1 : Scalar := 0x3FF0000000000000
def p2 : Scalar := 0x4000000000000000
def p3 : Scalar := 0x4008000000000000
def p4 : Scalar := 0x4010000000000000
def p5 : Scalar := 0x4014000000000000
def half : Scalar := 0x3FE0000000000000

/-- A built kernel with coefficients 1, 2, 3, at SPS 2. -/
def store123 : KernelStore := { valid := true, sps := 2, span := 1, beta := half, h := [p1, p2, p3] }

/-- The reset state with that kernel in both stores, SPS 2, and one buffer filled. -/
def withKernel (n : BufNo) (b : Buffer) : State :=
  { withBuf n b with sps := 2, kernels := Vector.replicate 2 store123 }

/-- The codes ERR and ERRINFO of the state after. -/
def faultCodes (o : Host.Outcome State Fault Refusal) : Option (Word × Word) :=
  (nextState o).map (fun t => (t.err, t.errInfo))

/-- The buffer after. -/
def bufAfter (o : Host.Outcome State Fault Refusal) (n : BufNo) : Option Buffer := (nextState o).map (fun t => buf t n)

/-- The centre tap of 95_test_vectors.md V40.5, 1.1366197723675815, and the length of its kernel. -/
theorem test_kgen_centre : rawTap num 1 2 half 1 = 0x3FF22F9836E4E442 := by decide +kernel

/-- 95_test_vectors.md V40.11. -/
theorem test_kgen_parity : faultCodes (exec (.kgen 0) (withParameters 3 3 half)) = some (1, 7) := by decide +kernel

/-- A random source that answers a list in order, for vectors that give the draws. -/
def scripted : RandomSource (List (Bool × Scalar)) Scalar where
  seed := fun _ => []
  bit := fun st => (st.headD (false, 0) |>.1, st.tail)
  gauss := fun st => (st.headD (false, 0) |>.2, st.tail)

/-- 95_test_vectors.md V48.1. -/
theorem test_genb_draws : (drawBits scripted 5 [(true, 0), (false, 0), (false, 0), (true, 0), (true, 0)]) =
    ([true, false, false, true, true], []) := by decide

/-- 95_test_vectors.md V48.2. -/
theorem test_genb_none : bufAfter (exec (.genb 0) State.reset) 0 = some (.bits []) := by decide

/-- 95_test_vectors.md V41.1. -/
theorem test_enc_nrz : bufAfter (exec (.enc 1 0 .nrz) (withBuf 0 (.bits [false, true, true]))) 1 =
    some (.samples [real m1, real p1, real p1]) := by decide +kernel

/-- 95_test_vectors.md V41.4. -/
theorem test_enc_manchester : bufAfter (exec (.enc 1 0 .manchester) (withBuf 0 (.bits [true, false]))) 1 =
    some (.samples [real m1, real p1, real p1, real m1]) := by decide +kernel

/-- By hand from 42_pulse_shaper.md R146 and R147: up = [1, 0, -1, 0], h = [1, 2, 3], c = 1. -/
theorem test_shape : bufAfter (exec (.shape 1 0 1) (withKernel 0 (.samples [real p1, real m1]))) 1 =
    some (.samples [real p2, real p2, real m2, real m3]) := by decide +kernel

/-- 95_test_vectors.md V60.6: ALIAS before PARAM_SPS and KERNEL. -/
theorem test_shape_order : faultCodes (exec (.shape 1 1 0) (withBuf 1 (.samples [real p1]))) = some (1, 3) := by
  decide +kernel

/-- 95_test_vectors.md V43.6: FC = 0 gives the source back. -/
theorem test_mix_zero : bufAfter (exec (.mix 1 0)
    { withBuf 0 (.samples [⟨p3, m1⟩, ⟨half, p5⟩]) with sps := 7 }) 1 = some (.samples [⟨p3, m1⟩, ⟨half, p5⟩]) := by
  decide +kernel

/-- 95_test_vectors.md V43.9. -/
theorem test_mix_order : faultCodes (exec (.mix 2 2) State.reset) = some (1, 2) := by decide

/-- 95_test_vectors.md V44.3: sigma 0.25 and the draws 1, 1, -1, 2. -/
theorem test_awgn_draws : addNoise num scripted 0x3FD0000000000000 [⟨p3, p4⟩, ⟨0, 0⟩]
    [(false, p1), (false, p1), (false, m1), (false, p2)] =
    ([⟨0x400A000000000000, 0x4011000000000000⟩, ⟨0xBFD0000000000000, half⟩], []) := by decide +kernel

/-- 95_test_vectors.md V44.6: an empty waveform takes no draw. -/
theorem test_awgn_empty (st : RngState) : awgnSamples num rng p1 [] st = ([], st) := rfl

/-- The kernel centred on an impulse, as in 95_test_vectors.md V45.3. -/
theorem test_mf_impulse : bufAfter (exec (.mf 1 0 0) (withKernel 0 (.samples [real 0, real p1, real 0]))) 1 =
    some (.samples [real p1, real p2, real p3]) := by decide +kernel

/-- The triple of 95_test_vectors.md V46.3, ten times. -/
def triples : List Sample := (List.replicate 10 [real 0, ⟨p3, p4⟩, ⟨0, m1⟩]).flatten

/-- 95_test_vectors.md V46.3. -/
theorem test_trec : timingOffset num 3 triples = 1 ∧ downsample num 3 1 triples = List.replicate 10 ⟨p3, p4⟩ := by
  decide +kernel

/-- 95_test_vectors.md V46.8. -/
theorem test_trec_short : (checkShort { withBuf 0 (.samples (List.replicate 19 (real p1))) with sps := 2 } 0).1 = true ∧
    (checkShort { withBuf 0 (.samples (List.replicate 20 (real p1))) with sps := 2 } 0).1 = false := by decide +kernel

/-- 95_test_vectors.md V47.1. -/
theorem test_dec_nrz : bufAfter (exec (.dec 8 7 .nrz) (withBuf 7 (.samples [real 0x3FD3333333333333,
    real 0xBFC999999999999A, real 0, ⟨0x3FB999999999999A, 0xC022000000000000⟩,
    ⟨0xBFB999999999999A, 0x4022000000000000⟩]))) 8 = some (.bits [true, false, false, true, false]) := by
  decide +kernel

/-- 95_test_vectors.md V47.2, with half for 0.4, 0.5 and 0.7 (only signs count). -/
theorem test_dec_manchester : (nextState (exec (.dec 8 7 .manchester) (withBuf 7 (.samples [real p1, real m1, real m1,
    real half, real half, real half, real m1, real m1, real 0, real p1, real half])))).map
    (fun t => (buf t 8, t.ambigCnt, t.ambig)) = some (.bits [false, true, false, false, false], 3, true) := by
  decide +kernel

/-- 95_test_vectors.md V48.3: BERVAL is 0.4. -/
theorem test_ber : (nextState (exec (.ber 0 8)
    (setBuf (withBuf 0 (.bits [false, true, false, true, true, false, true, false])) 8
      (.bits [false, true, true, true, false])))).map (fun t => (t.bitErrs, t.cmpLen, t.berVal, t.degen)) =
    some (2, 5, 0x3FD999999999999A, false) := by decide +kernel

/-- 95_test_vectors.md V48.4. -/
theorem test_ber_degenerate : (nextState (exec (.ber 0 8) (setBuf (withBuf 0 (.bits [true])) 8 (.bits [])))).map
    (fun t => (t.bitErrs, t.berVal, statusWord t.seqState t.degen t.ambig)) = some (0, 0, 4) := by decide +kernel

/-! ### Transactions -/

/-- The reset state with one transaction to make. -/
def withTransaction (t : Transaction) : State := { State.reset with pending := [t] }

/-- The answer to one transaction made at reset. -/
def answerTo (t : Transaction) : Option Response := (nextState (step (withTransaction t))).bind (fun s => s.response)

/-- 95_test_vectors.md V20.2, V20.3, V20.5 and V20.10: no host write there. -/
theorem test_regwr_refused : answerTo (.regwr 0x10 (.int 1)) = some .refused ∧
    answerTo (.regwr 0x15 (.int 0)) = some .refused ∧ answerTo (.regwr 0x0F (.real p1)) = some .refused ∧
    answerTo (.regwr 0x01 (.int 0)) = some .refused := by decide +kernel

/-- 95_test_vectors.md V20.12, and the top of the range of SPS (20_memory.md R68). -/
theorem test_regwr_ok : answerTo (.regwr 0x0C (.real 0xC00C000000000000)) = some .ok ∧
    answerTo (.regwr 0x08 (.int 4294967295)) = some .ok ∧ answerTo (.regwr 0x08 (.int 4294967296)) = some .refused ∧
    answerTo (.regwr 0x08 (.int (-1))) = some .refused := by decide +kernel

/-- 95_test_vectors.md V20.6 and V20.7. -/
theorem test_bufld : answerTo (.bufld 0 (.bits [0, 1, 2])) = some .refused ∧
    answerTo (.bufld 0 (.bits [])) = some .ok := by decide +kernel

/-- 95_test_vectors.md V20.3, V20.11, V20.13 and 20_memory.md R73. -/
theorem test_reads : answerTo (.regrd 0x06) = some .refused ∧ answerTo (.regrd 0x00) = some (.value (.u32 0)) ∧
    answerTo (.regrd 0x5F) = some (.value (.u32 0)) ∧ answerTo (.kerrd 0) = some (.kernel (KernelStore.invalid 0)) := by
  decide +kernel

/-- 95_test_vectors.md V60.1. -/
theorem test_illegal : (nextState (step (withTransaction (.cmd 0xB0000000)))).map
    (fun t => (t.err, t.errInfo, t.errSeq, t.errCmd, t.seq, statusWord t.seqState t.degen t.ambig)) =
    some (3, 11, 0, 0xB0000000, 1, 2) := by decide +kernel

/-- 95_test_vectors.md V60.2 and V60.4: a command is rejected until ERRCLR. -/
def faulted : State := { State.reset with seqState := .faulted, err := 3, errInfo := 11, seq := 1 }

theorem test_rejected : (nextState (step { faulted with pending := [.cmd 0x10000000] })).map
    (fun t => (t.response, t.seq)) = some (some (.command .rejected), 1) := by decide +kernel

theorem test_errclr : (nextState (step { faulted with pending := [.regwr 0x01 (.int 0)] })).map
    (fun t => (t.response, t.err, t.errInfo, t.seqState)) = some (some .ok, 0, 0, .idle) := by decide +kernel

/-- The next step runs the word placed (10_state.md R26). -/
theorem test_fetch : (nextState (step (State.reset.withFetchWord 32 0x20000000))).map (fun t => (t.seq, buf t 0)) =
    some (1, .bits []) := by decide +kernel

/-! ### Witnesses: for each statement with hypotheses, values that meet them, clause by clause. Obligations.X has
witness_X. -/

/-- A BITS buffer of `n` zeros, and a SAMPLES buffer of `n` ones. -/
def zeros (n : Nat) : Buffer := .bits (List.replicate n false)
def ones (n : Nat) : Buffer := .samples (List.replicate n (real p1))

theorem buf_withBuf (n : BufNo) (b : Buffer) : buf (withBuf n b) n = b := buf_setBuf_same _ _ _

theorem witness_EncodeRestoresEveryDecodedWord : decode 0xA0480000 = .ok (.ber 4 8) := by decide

theorem witness_NoWordMatchesTwoRows : ∃ r ∈ opcodeTable, r.admits 0x53200000 = true := by
  refine ⟨opcodeTable[4], List.getElem_mem _, by decide⟩

theorem witness_StepRunsTheDecodedCommand :
    (withTransaction (.cmd 0x20000000)).pending = .cmd 0x20000000 :: [] ∧
    (withTransaction (.cmd 0x20000000)).seqState = .idle ∧ decode 0x20000000 = .ok (.genb 0) := by decide

theorem witness_ReservedOpcodeTakesIllegalCommand :
    (withTransaction (.cmd 0xB0000000)).pending = .cmd 0xB0000000 :: [] ∧
    (withTransaction (.cmd 0xB0000000)).seqState = .idle ∧ 0xB ≤ ((0xB0000000 : Word).extractLsb' 28 4).toNat ∧
    ((0x0FFFFFFF : Word).extractLsb' 28 4).toNat = 0 := by decide

theorem witness_MustBeZeroBitTakesIllegalCommand :
    (withTransaction (.cmd 0x53200001)).pending = .cmd 0x53200001 :: [] ∧
    (withTransaction (.cmd 0x53200001)).seqState = .idle ∧
    formatOf ((0x53200001 : Word).extractLsb' 28 4).toNat = some .U ∧ mustBeZeroHolds .U 0x53200001 = false := by decide

/-- The faulted state with one transaction to make. -/
def faultedWith (t : Transaction) : State := { faulted with pending := [t] }

theorem witness_FaultedIsSticky : faulted.seqState = .faulted ∧
    (∀ t, (faultedWith t).seqState = .faulted ∧ (faultedWith t).pending = t :: []) ∧
    (0x00 : BitVec 8) ≠ 0x01 ∧ (0x08 : BitVec 8) ≠ 0x01 ∧
    ((0x01, .u32 3) : BitVec 8 × RegValue) ∈ registerMap (faultedWith (.regrd 0x01)) ∧
    ((0x5F, .u32 0) : BitVec 8 × RegValue) ∈ registerMap (faultedWith (.regrd 0x5F)) :=
  ⟨rfl, fun _ => ⟨rfl, rfl⟩, by decide, by decide, by decide +kernel, by decide +kernel⟩

theorem witness_ErrclrReturnsFromAFault : (faultedWith (.regwr 0x01 (.int 0))).seqState = .faulted ∧
    (faultedWith (.regwr 0x01 (.int 0))).pending = .regwr 0x01 (.int 0) :: [] ∧
    (faultedWith .reset).pending = .reset :: [] ∧ (faultedWith .reset).seqState = .faulted ∧
    (withTransaction (.regwr 0x01 (.int 0))).seqState = .idle ∧
    (withTransaction (.regwr 0x01 (.int 0))).pending = .regwr 0x01 (.int 0) :: [] := by decide

/-- MIX on an EMPTY buffer faults. -/
theorem mix_at_reset : exec (.mix 2 2) State.reset = .next (raise .kind (encode (.mix 2 2)) State.reset) :=
  (exec_cases State.reset (.mix 2 2)).elim
    (fun ⟨sub, h, e⟩ => by
      have hs : sub = .kind := by
        simp [commandChecksWith, mixChecks, firstFailure_cons] at h
        exact h.symm
      rw [e, hs])
    (fun ⟨h, _⟩ => by simp [commandChecksWith, mixChecks, firstFailure_cons] at h)

theorem witness_FaultsArePrecise :
    ∃ t, exec (.mix 2 2) State.reset = .next t ∧ t.seqState = .faulted := ⟨_, mix_at_reset, rfl⟩

/-- KGEN: SPS 0; SPAN 0; BETA 0, above 1 (the next value) and -1; SPAN*SPS 1; SPAN*SPS + 1 = 4099, the least odd
length above KCAP. -/
theorem witness_KgenFaultsInOrder :
    (withParameters 0 2 half).sps = 0 ∧ (withParameters 1 0 half).sps ≠ 0 ∧ (withParameters 1 0 half).span = 0 ∧
    ¬ betaInRange (withParameters 1 1 0) ∧ ¬ betaInRange (withParameters 1 1 0x3FF0000000000001) ∧
    ¬ betaInRange (withParameters 1 1 m1) ∧ betaInRange (withParameters 1 1 p1) ∧
    (withParameters 1 1 p1).span.toNat * (withParameters 1 1 p1).sps.toNat % 2 = 1 ∧
    betaInRange (withParameters 2049 2 p1) ∧
    (withParameters 2049 2 p1).span.toNat * (withParameters 2049 2 p1).sps.toNat % 2 = 0 ∧
    Config.kcap < (withParameters 2049 2 p1).span.toNat * (withParameters 2049 2 p1).sps.toNat + 1 := by
  unfold betaInRange
  decide +kernel

theorem witness_GenbFaultsPastCapacity : Config.bufcap < ({ State.reset with nbits := 1048577 } : State).nbits.toNat := by
  simp [Config.bufcap]

theorem witness_EncFaultsInOrder : (∀ xs, buf State.reset 0 ≠ .bits xs) ∧
    (∀ xs, buf (withBuf 0 (.samples [])) 0 ≠ .bits xs) ∧ buf (withBuf 0 (.bits [false])) 0 = .bits [false] ∧
    (1 : BufNo) ≠ 0 ∧ buf (withBuf 0 (zeros 1048577)) 0 = .bits (List.replicate 1048577 false) ∧
    Config.bufcap < (List.replicate 1048577 false).length ∧
    buf (withBuf 0 (zeros 524289)) 0 = .bits (List.replicate 524289 false) ∧
    Config.bufcap < 2 * (List.replicate 524289 false).length := by
  simp only [buf_withBuf, buf_reset, List.length_replicate, zeros]
  simp [Config.bufcap]

theorem witness_DecFaultsInOrder : (∀ xs, buf State.reset 7 ≠ .samples xs) ∧
    (∀ xs, buf (withBuf 7 (.bits [])) 7 ≠ .samples xs) ∧ buf (withBuf 7 (.samples [])) 7 = .samples [] := by
  simp [buf_withBuf]

theorem witness_ShapeAndMfFaultInOrder : (∀ xs, buf State.reset 0 ≠ .samples xs) ∧ (1 : BufNo) ≠ 0 ∧
    buf (withBuf 0 (.samples [real p1])) 0 = .samples [real p1] ∧ (withBuf 0 (.samples [real p1])).sps = 0 ∧
    buf ({ withBuf 0 (.samples [real p1]) with sps := 2 } : State) 0 = .samples [real p1] ∧
    ({ withBuf 0 (.samples [real p1]) with sps := 2 } : State).sps ≠ 0 ∧
    (kernel ({ withBuf 0 (.samples [real p1]) with sps := 2 } : State) 0).valid = false ∧
    buf (withKernel 0 (ones 524289)) 0 = .samples (List.replicate 524289 (real p1)) ∧
    (withKernel 0 (ones 524289)).sps ≠ 0 ∧ (kernel (withKernel 0 (ones 524289)) 0).valid = true ∧
    Config.bufcap < (List.replicate 524289 (real p1)).length * (withKernel 0 (ones 524289)).sps.toNat := by
  refine ⟨?_, by decide, rfl, rfl, rfl, by decide, rfl, rfl, by simp [withKernel], rfl, ?_⟩
  · simp
  · rw [List.length_replicate]; simp [withKernel, Config.bufcap]

theorem witness_MixAwgnAndTrecFaultInOrder : (∀ xs, buf State.reset 0 ≠ .samples xs) ∧ (1 : BufNo) ≠ 0 ∧
    buf (withBuf 0 (.samples [])) 0 = .samples [] ∧ (withBuf 0 (.samples [])).sps = 0 ∧
    buf ({ withBuf 0 (ones 19) with sps := 2 } : State) 0 = .samples (List.replicate 19 (real p1)) ∧
    ({ withBuf 0 (ones 19) with sps := 2 } : State).sps ≠ 0 ∧
    (List.replicate 19 (real p1)).length < 10 * ({ withBuf 0 (ones 19) with sps := 2 } : State).sps.toNat := by
  refine ⟨by simp, by decide, rfl, rfl, rfl, by decide, by decide⟩

theorem witness_BerFaultsOnKind : (∀ xs, buf State.reset 0 ≠ .bits xs) ∧
    (∀ xs, buf (withBuf 0 (.bits [true])) 8 ≠ .bits xs) ∧ buf (withBuf 0 (.bits [true])) 0 = .bits [true] := by
  refine ⟨by simp, ?_, rfl⟩
  rw [withBuf, buf_setBuf_ne _ (by decide), buf_reset]
  simp

/-- KGEN at beta 1 and the longest kernel of R29's parities, 4097. -/
theorem witness_KgenStoresTheNormalisedTaps : (withParameters 1024 4 p1).sps ≠ 0 ∧
    (withParameters 1024 4 p1).span ≠ 0 ∧ betaInRange (withParameters 1024 4 p1) ∧
    (withParameters 1024 4 p1).span.toNat * (withParameters 1024 4 p1).sps.toNat % 2 = 0 ∧
    (withParameters 1024 4 p1).span.toNat * (withParameters 1024 4 p1).sps.toNat + 1 ≤ Config.kcap := by
  unfold betaInRange
  decide +kernel

theorem witness_GenbStoresTheNextDraws :
    ({ State.reset with nbits := 1048576 } : State).nbits.toNat ≤ Config.bufcap := by simp [Config.bufcap]

theorem witness_EncNrzMapsEachBit : buf (withBuf 0 (zeros 1048576)) 0 = .bits (List.replicate 1048576 false) ∧
    (1 : BufNo) ≠ 0 ∧ (List.replicate 1048576 false).length ≤ Config.bufcap := by
  refine ⟨rfl, by decide, ?_⟩
  rw [List.length_replicate]; decide

theorem witness_EncManchesterMapsEachBitToTwo :
    buf (withBuf 0 (zeros 524288)) 0 = .bits (List.replicate 524288 false) ∧
    (1 : BufNo) ≠ 0 ∧ 2 * (List.replicate 524288 false).length ≤ Config.bufcap ∧
    ([false, true] : List Bool)[1]? = some true := by
  refine ⟨rfl, by decide, ?_, rfl⟩
  rw [List.length_replicate]; decide

theorem witness_ShapeUpsamplesAndFilters :
    buf (withKernel 0 (ones 524288)) 0 = .samples (List.replicate 524288 (real p1)) ∧ (1 : BufNo) ≠ 0 ∧
    (withKernel 0 (ones 524288)).sps ≠ 0 ∧ (kernel (withKernel 0 (ones 524288)) 1).valid = true ∧
    (List.replicate 524288 (real p1)).length * (withKernel 0 (ones 524288)).sps.toNat ≤ Config.bufcap := by
  refine ⟨rfl, by decide, by simp [withKernel], rfl, ?_⟩
  rw [List.length_replicate]; simp [withKernel, Config.bufcap]

theorem witness_MixMultipliesByTheCarrier :
    buf ({ withBuf 0 (ones 3) with sps := 1 } : State) 0 = .samples (List.replicate 3 (real p1)) ∧ (1 : BufNo) ≠ 0 ∧
    ({ withBuf 0 (ones 3) with sps := 1 } : State).sps ≠ 0 ∧ (List.replicate 3 (real p1))[2]? = some (real p1) :=
  ⟨rfl, by decide, by decide, rfl⟩

theorem witness_AwgnAddsScaledDraws : buf (withBuf 0 (ones 3)) 0 = .samples (List.replicate 3 (real p1)) ∧
    buf (withBuf 0 (.samples [])) 0 = .samples [] ∧ (1 : BufNo) ≠ 0 ∧
    (List.replicate 3 (real p1))[2]? = some (real p1) := ⟨rfl, rfl, by decide, rfl⟩

theorem witness_MfFiltersWithTheNamedKernel :
    buf (withKernel 0 (ones 2)) 0 = .samples (List.replicate 2 (real p1)) ∧ (1 : BufNo) ≠ 0 ∧
    (kernel (withKernel 0 (ones 2)) 0).valid = true := ⟨rfl, by decide, rfl⟩

theorem witness_TrecSamplesAtTheLargestMetric :
    buf ({ withBuf 0 (ones 20) with sps := 2 } : State) 0 = .samples (List.replicate 20 (real p1)) ∧ (1 : BufNo) ≠ 0 ∧
    ({ withBuf 0 (ones 20) with sps := 2 } : State).sps ≠ 0 ∧
    10 * ({ withBuf 0 (ones 20) with sps := 2 } : State).sps.toNat ≤ (List.replicate 20 (real p1)).length :=
  ⟨rfl, by decide, by decide, by decide⟩

theorem witness_DecNrzSlicesAtZero : buf (withBuf 7 (ones 3)) 7 = .samples (List.replicate 3 (real p1)) ∧
    (8 : BufNo) ≠ 7 := ⟨rfl, by decide⟩

theorem witness_DecManchesterDecidesPairs : buf (withBuf 7 (ones 3)) 7 = .samples (List.replicate 3 (real p1)) ∧
    (8 : BufNo) ≠ 7 := ⟨rfl, by decide⟩

theorem witness_BerCountsDifferences :
    buf (setBuf (withBuf 0 (.bits [true, false])) 8 (.bits [])) 0 = .bits [true, false] ∧
    buf (setBuf (withBuf 0 (.bits [true, false])) 8 (.bits [])) 8 = .bits [] := by decide

theorem witness_KernelHasOddLengthAndUnitEnergy :
    0 < 1 ∧ 0 < 2 ∧ (0 : ℝ) < 1 ∧ (1 : ℝ) ≤ 1 ∧ 2 * 1 % 2 = 0 := by norm_num

theorem witness_KernelIsEvenSymmetric : 0 < 1 ∧ 2 * 1 % 2 = 0 ∧ 2 ≤ 2 * 1 ∧ 0 ≤ 2 * 1 := by decide

/-- SPS 4, SPAN 2, beta 1: the third branch at index 0, where `4*beta*4` is not 4. -/
theorem witness_KernelNeverDividesByZero : 0 < 4 ∧ 0 < 2 ∧ (0 : ℝ) < 1 ∧ (1 : ℝ) ≤ 1 ∧ 2 * 4 % 2 = 0 ∧
    0 ≤ 2 * 4 ∧ 0 ≠ 2 * 4 / 2 ∧ 4 * (1 : ℝ) * |((0 : Nat) : ℝ) - ((2 * 4 / 2 : Nat) : ℝ)| ≠ ((4 : Nat) : ℝ) := by
  norm_num

theorem witness_ConvSameIsTheCentredPartOfTheFullConvolution :
    ([1, 2, 3] : List ℝ).length % 2 = 1 ∧ 1 < ([⟨1, 0⟩, ⟨0, 1⟩] : List (Cplx ℝ)).length := by simp

theorem witness_SymmetricConvolutionIsCorrelation : ([1, 2, 1] : List ℝ).length = 2 * 1 + 1 ∧
    (∀ i, i ≤ 2 * 1 → ([1, 2, 1] : List ℝ).getD (2 * 1 - i) 0 = ([1, 2, 1] : List ℝ).getD i 0) ∧
    1 < ([⟨1, 0⟩, ⟨0, 1⟩] : List (Cplx ℝ)).length := by
  refine ⟨rfl, ?_, by simp⟩
  intro i hi
  interval_cases i <;> simp

theorem witness_ShapedWaveformIsASumOfPulses :
    0 < 2 ∧ ([1, 2, 3] : List ℝ).length % 2 = 1 ∧ 1 < ([⟨1, 0⟩] : List (Cplx ℝ)).length * 2 := by simp

theorem witness_DemodulationGivesTheHalfAmplitudeBaseband :
    0 < 1 ∧ ([⟨1, 0⟩, ⟨0, 1⟩] : List (Cplx ℝ))[1]? = some ⟨0, 1⟩ := by simp

theorem witness_NoisePowerFollowsTheSnr : ([⟨1, 0⟩] : List (Cplx ℝ)) ≠ [] := by simp

theorem witness_TimingOffsetIsTheLeastMaximum : 0 < 1 := by decide

theorem witness_DownsamplingGivesOneSampleAPerSymbol : 1 < 2 ∧ [real p1, real m1].length = 1 * 2 ∧
    ([] : List Sample).length = 0 * 2 := by decide

theorem witness_RealWaveformsStayReal : isRealWaveform [⟨1, 0⟩, ⟨-1, 0⟩] := by simp [isRealWaveform]

theorem witness_MachineNumHasTheRequiredProperties : isFinite p1 = true ∧ isFinite 0x8000000000000000 = true := by
  decide

/-- The integers, with the operations no line code uses left trivial. -/
def intNum : NumSystem Int where
  zero := 0
  one := 1
  pi := 3
  ofNat := fun n => n
  add := fun x y => x + y
  sub := fun x y => x - y
  mul := fun x y => x * y
  div := fun x _ => x
  neg := fun x => -x
  abs := fun x => x.natAbs
  sqrt := fun x => x
  sin := fun x => x
  cos := fun x => x
  pow10 := fun x => x
  lt := fun x y => decide (x < y)
  eq := fun x y => decide (x = y)

theorem witness_LineCodesRoundTripInEveryNum : NumProperties intNum (fun _ => True) := by
  constructor <;> simp [intNum] <;> omega

theorem witness_EncThenDecRestoresTheBits : buf (withBuf 0 (zeros 524288)) 0 = .bits (List.replicate 524288 false) ∧
    (1 : BufNo) ≠ 0 ∧ (2 : BufNo) ≠ 1 ∧ (List.replicate 524288 false).length ≤ Config.bufcap ∧
    2 * (List.replicate 524288 false).length ≤ Config.bufcap := by
  refine ⟨rfl, by decide, by decide, ?_, ?_⟩ <;> rw [List.length_replicate] <;> decide

theorem witness_RegisterReadAnswersTheMap :
    (withTransaction (.regrd 0x5F)).pending = .regrd 0x5F :: [] ∧ (withTransaction (.regrd 0x5F)).seqState ≠ .busy ∧
    ((0x5F, .u32 0) : BitVec 8 × RegValue) ∈ registerMap (withTransaction (.regrd 0x5F)) ∧
    ((0x00, .u32 0) : BitVec 8 × RegValue) ∈ registerMap (withTransaction (.regrd 0x00)) ∧
    ((0x00, .u32 14) : BitVec 8 × RegValue) ∈
      registerMap { faultedWith (.regrd 0x00) with degen := true, ambig := true } ∧
    ({ faultedWith (.regrd 0x00) with degen := true, ambig := true } : State).pending = .regrd 0x00 :: [] ∧
    ((0x40, .u32 1) : BitVec 8 × RegValue) ∈ registerMap (withBuf 0 (.bits [true])) ∧
    ((0x5E, .u32 2) : BitVec 8 × RegValue) ∈ registerMap (withBuf 15 (.samples [])) ∧
    ∀ v, ((0x06, v) : BitVec 8 × RegValue) ∉ registerMap (withTransaction (.regrd 0x06)) := by
  refine ⟨rfl, by decide, by decide +kernel, by decide +kernel, by decide +kernel, rfl, by decide +kernel,
    by decide +kernel, fun v h => ?_⟩
  have hn : (0x06 : BitVec 8) ∉ (registerMap (withTransaction (.regrd 0x06))).map Prod.fst := by decide +kernel
  exact hn (List.mem_map.2 ⟨_, h, rfl⟩)

/-- A write of any number and value may be pending; the ends of the ranges, and a value of the wrong type each. -/
theorem witness_RegisterWriteChecksTypeAndAccess :
    (∀ n v, (withTransaction (.regwr n v)).pending = .regwr n v :: [] ∧
      (withTransaction (.regwr n v)).seqState = .idle) ∧
    (∀ n v, (faultedWith (.regwr n v)).pending = .regwr n v :: [] ∧
      (faultedWith (.regwr n v)).seqState = .faulted) ∧
    0 < 2 ^ 32 ∧ 4294967295 < 2 ^ 32 ∧ 18446744073709551615 < 2 ^ 64 ∧ isFinite 0x7FEFFFFFFFFFFFFF = true ∧
    (∀ m : Nat, m < 2 ^ 32 → (HostValue.int 4294967296 : HostValue) ≠ .int m) ∧ (∀ m : Nat, m < 2 ^ 64 → (HostValue.int (-1) : HostValue) ≠ .int m) ∧
    (∀ x : Scalar, isFinite x = true → HostValue.real 0x7FF0000000000000 ≠ .real x) := by
  refine ⟨fun _ _ => ⟨rfl, rfl⟩, fun _ _ => ⟨rfl, rfl⟩, by decide, by decide, by decide, by decide, ?_, ?_, ?_⟩
  · intro m hm h
    injection h with h
    omega
  · intro m _ h
    injection h with h
    omega
  · intro x hx h
    injection h with h
    subst h
    revert hx
    decide

theorem witness_BufferLoadTakesOnlyWellTypedData :
    (∀ n data, (withTransaction (.bufld n data)).pending = .bufld n data :: [] ∧
      (withTransaction (.bufld n data)).seqState = .idle) ∧
    (List.replicate 1048576 true).length ≤ Config.bufcap ∧
    (∃ v ∈ ([0, 1, 2] : List Int), v ≠ 0 ∧ v ≠ 1) ∧ Config.bufcap < (List.replicate 1048577 (0 : Int)).length ∧
    (∀ z ∈ [real p1], isFinite z.re = true ∧ isFinite z.im = true) ∧
    (∃ z ∈ [real 0x7FF8000000000000], isFinite z.re = false ∨ isFinite z.im = false) ∧
    Config.bufcap < (List.replicate 1048577 (real p1)).length := by
  refine ⟨fun _ _ => ⟨rfl, rfl⟩, ?_, by decide, ?_, by decide, by decide, ?_⟩ <;> rw [List.length_replicate] <;> decide

theorem witness_BufferAndKernelReadsDoNotConsume : State.reset.seqState ≠ .busy ∧
    (∀ n, (withTransaction (.bufrd n)).pending = .bufrd n :: []) ∧
    (∀ k, (withTransaction (.kerrd k)).pending = .kerrd k :: []) := ⟨by decide, fun _ => rfl, fun _ => rfl⟩

theorem witness_ReseedingReproducesTheBits : 18446744073709551615 < 2 ^ 64 ∧
    (withTransaction (.regwr 0x0B (.int 7))).seqState = .idle ∧
    (withTransaction (.regwr 0x0B (.int 7))).pending = .regwr 0x0B (.int (7 : Nat)) :: [] ∧
    ({ withTransaction (.regwr 0x0B (.int 7)) with seq := 3 } : State).pending = .regwr 0x0B (.int (7 : Nat)) :: [] ∧
    (withTransaction (.regwr 0x0B (.int 7))).nbits.toNat ≤ Config.bufcap := by decide

theorem witness_ResetTransactionGivesTheResetState :
    ({ State.reset with seqState := .busy, pending := [.reset] } : State).pending = .reset :: [] := rfl

theorem witness_OnTheResetStateAllCommandsButGenbFault :
    LineCode.manchester = .nrz ∨ LineCode.manchester = .manchester := by decide

/-- A faulted state with the invariant, and a step from it. -/
theorem witness_EveryStepKeepsTheStateSound : faulted.Inv ∧ step faulted = .next faulted := by
  refine ⟨?_, by simp [step, hostStep, faulted, State.reset]⟩
  refine ⟨by decide, (by intro h; cases h), fun _ => ⟨.opcode, rfl, rfl⟩, ?_, ?_, rfl, (by intro h; cases h),
    by decide, by decide, by decide⟩
  · intro n
    have : buf faulted n = .empty := buf_reset n
    simp [this, bufLen]
  · intro k
    have : kernel faulted k = KernelStore.invalid 0 := kernel_reset k
    rw [this]
    refine ⟨fun _ => rfl, ?_, ?_, by decide, ?_, ?_, ?_⟩ <;> (intro h; cases h)

theorem witness_CommandsWriteOnlyWhatTheirRulesName : ∃ t, exec (.mix 2 2) State.reset = .next t :=
  ⟨_, mix_at_reset⟩

/-- A GENB run with another SEQ and another SPS. -/
theorem witness_ResultsDependOnlyOnOperands : ∃ t t',
    operandsAgree (.genb 0) State.reset { State.reset with seq := 5, sps := 2 } ∧
    exec (.genb 0) State.reset = .next t ∧ exec (.genb 0) { State.reset with seq := 5, sps := 2 } = .next t' ∧
    t.seqState = .idle := by
  refine ⟨_, _, ⟨rfl, rfl⟩, exec_complete_of_checks ?_, exec_complete_of_checks ?_, rfl⟩ <;>
    simp [commandChecksWith, genbChecks, firstFailure_cons, State.reset]

/-- A KGEN in IDLE, and a RESET that clears a built kernel. -/
theorem witness_KernelStoresChangeOnlyByKgenOrReset :
    (∃ t, step { withParameters 1 2 p1 with pending := [.cmd 0x10000000] } = .next t ∧
      kernel t 0 ≠ kernel (withParameters 1 2 p1) 0) ∧
    ∃ t, step { withKernel 0 .empty with pending := [.reset] } = .next t ∧ kernel t 0 ≠ kernel (withKernel 0 .empty) 0 := by
  constructor
  · have hc : firstFailure (commandChecks (.kgen 0) { withParameters 1 2 p1 with pending := [] }) = none := by
      decide +kernel
    have hd : decode 0x10000000#32 = .ok (.kgen 0) := by decide
    refine ⟨complete (commandResult (.kgen 0) { withParameters 1 2 p1 with pending := [] }), ?_, ?_⟩
    · rw [← exec_complete_of_checks hc]
      simp [step, hostStep, transact, respond, command, hd, withParameters, State.reset]
    · intro h
      have := congrArg KernelStore.valid h
      rw [kernel_complete, commandResult, commandResultWith, kernel_setKernel_same] at this
      revert this
      decide
  · refine ⟨_, rfl, ?_⟩
    intro h
    have := congrArg KernelStore.valid h
    revert this
    decide

theorem witness_FaultedIsLeftOnlyByErrclrOrReset : faulted.seqState = .faulted ∧
    (∃ t, step (faultedWith (.regwr 0x01 (.int 0))) = .next t ∧ t.seqState ≠ .faulted) ∧
    ∃ t, step (faultedWith .reset) = .next t ∧ t.seqState ≠ .faulted :=
  ⟨rfl, ⟨_, rfl, by decide⟩, ⟨_, rfl, by decide⟩⟩

theorem witness_SeqCountsAcceptedCommands :
    (withTransaction (.cmd 0xB0000000)).seqState = .idle ∧
    (∃ t, step (withTransaction (.cmd 0xB0000000)) = .next t) ∧ (faultedWith (.cmd 0x10000000)).seqState = .faulted ∧
    (∃ t, step (faultedWith (.cmd 0x10000000)) = .next t) ∧ (∃ t, step (withTransaction .reset) = .next t) ∧
    (withTransaction .reset).pending = .reset :: [] :=
  ⟨rfl, ⟨_, rfl⟩, rfl, ⟨_, rfl⟩, ⟨_, rfl⟩, rfl⟩

/-! ### Worked examples on the machine's binary64, whichever of its two nearest values each sine, cosine or power of
ten answers -/

/-- Rounded to 12 decimals the value is `d` millionths of a millionth. -/
def near (x : Scalar) (d : Int) : Bool :=
  isFinite x && decide (2 * (signedUnits x * 10 ^ 12 - d * unitsPerOne).natAbs ≤ unitsPerOne)

/-- The third branch of 40_filter_design.md R123 with its sine and its cosine as arguments. -/
def outerTap {R : Type} (N : NumSystem R) (beta t sine cosine : R) : R :=
  N.div (N.add sine (N.mul (N.mul (N.mul (N.ofNat 4) beta) t) cosine))
    (N.mul (N.mul N.pi t) (N.sub N.one (numSquare N (N.mul (N.mul (N.ofNat 4) beta) t))))

/-- The second branch with its sine and its cosine as arguments. -/
def innerTap {R : Type} (N : NumSystem R) (beta sine cosine : R) : R :=
  N.mul (N.div beta (N.sqrt (N.ofNat 2)))
    (N.add (N.mul (N.add N.one (N.div (N.ofNat 2) N.pi)) sine) (N.mul (N.sub N.one (N.div (N.ofNat 2) N.pi)) cosine))

theorem generalTap_eq {R : Type} (N : NumSystem R) (beta t : R) : generalTap N beta t =
    outerTap N beta t (N.sin (N.mul (N.mul N.pi t) (N.sub N.one beta)))
      (N.cos (N.mul (N.mul N.pi t) (N.add N.one beta))) := rfl

theorem singularTap_eq {R : Type} (N : NumSystem R) (beta : R) : singularTap N beta =
    innerTap N beta (N.sin (N.div N.pi (N.mul (N.ofNat 4) beta))) (N.cos (N.div N.pi (N.mul (N.ofNat 4) beta))) := rfl

/-- The binary64 values of `g[0]` and `g[4]`, and of `g[1]` and `g[3]`, that the roundings can give. -/
def outerTaps : List Scalar := [0xBFBB2995E7B7B600, 0xBFBB2995E7B7B601]
def innerTaps : List Scalar := [0x3FE284283DAF376E, 0x3FE284283DAF376F]

theorem sin_cases {x : Scalar} (h : isFinite x = true) : num.sin x = (sinBounds x).1 ∨ num.sin x = (sinBounds x).2 :=
  fSin_cases h

theorem cos_cases {x : Scalar} (h : isFinite x = true) : num.cos x = (cosBounds x).1 ∨ num.cos x = (cosBounds x).2 :=
  fCos_cases h

/-- What a formula gives for both values of a sine and both of a cosine. -/
theorem mem_of_bounds (f : Scalar → Scalar → Scalar) (x y : Scalar) (l : List Scalar) (hx : isFinite x = true)
    (hy : isFinite y = true)
    (h : f (sinBounds x).1 (cosBounds y).1 ∈ l ∧ f (sinBounds x).1 (cosBounds y).2 ∈ l ∧
      f (sinBounds x).2 (cosBounds y).1 ∈ l ∧ f (sinBounds x).2 (cosBounds y).2 ∈ l) :
    f (num.sin x) (num.cos y) ∈ l := by
  rcases sin_cases hx with e | e <;> rcases cos_cases hy with e' | e' <;> rw [e, e']
  exacts [h.1, h.2.1, h.2.2.1, h.2.2.2]

/-- The angles of the third branch at t = -1 and at t = 1, and of the second. -/
def sineAngle (t : Scalar) : Scalar := num.mul (num.mul num.pi t) (num.sub num.one half)
def cosineAngle (t : Scalar) : Scalar := num.mul (num.mul num.pi t) (num.add num.one half)
def innerAngle : Scalar := num.div num.pi (num.mul (num.ofNat 4) half)

theorem generalTap_mem {t : Scalar} (ht : t = m1 ∨ t = p1) : generalTap num half t ∈ outerTaps := by
  have h : outerTap num half t (num.sin (sineAngle t)) (num.cos (cosineAngle t)) ∈ outerTaps := by
    rcases ht with rfl | rfl
    · exact mem_of_bounds (outerTap num half m1) (sineAngle m1) (cosineAngle m1) outerTaps (by decide +kernel)
        (by decide +kernel) (by decide +kernel)
    · exact mem_of_bounds (outerTap num half p1) (sineAngle p1) (cosineAngle p1) outerTaps (by decide +kernel)
        (by decide +kernel) (by decide +kernel)
  rw [generalTap_eq]
  exact h

theorem singularTap_mem : singularTap num half ∈ innerTaps := by
  have h := mem_of_bounds (innerTap num half) innerAngle innerAngle innerTaps (by decide +kernel) (by decide +kernel)
    (by decide +kernel)
  rw [singularTap_eq]
  exact h

theorem rawTap_two {R : Type} (N : NumSystem R) (b : R) (i : Nat) : rawTap N 2 2 b i =
    if i = 2 then centreTap N b
    else if N.eq (N.mul (N.mul (N.ofNat 4) b) (N.ofNat (indexDistance i 2))) (N.ofNat 2) then singularTap N b
    else generalTap N b (tapTime N 2 2 i) := rfl

theorem rawTaps_two {R : Type} (N : NumSystem R) (b : R) : rawTaps N 2 2 b =
    [rawTap N 2 2 b 0, rawTap N 2 2 b 1, rawTap N 2 2 b 2, rawTap N 2 2 b 3, rawTap N 2 2 b 4] := rfl

/-- `|i-c| = 1` is the singular time, `|i-c| = 2` is not. -/
theorem singular_times :
    num.eq (num.mul (num.mul (num.ofNat 4) half) (num.ofNat (indexDistance 0 2))) (num.ofNat 2) = false ∧
    num.eq (num.mul (num.mul (num.ofNat 4) half) (num.ofNat (indexDistance 1 2))) (num.ofNat 2) = true ∧
    num.eq (num.mul (num.mul (num.ofNat 4) half) (num.ofNat (indexDistance 3 2))) (num.ofNat 2) = true ∧
    num.eq (num.mul (num.mul (num.ofNat 4) half) (num.ofNat (indexDistance 4 2))) (num.ofNat 2) = false ∧
    tapTime num 2 2 0 = m1 ∧ tapTime num 2 2 4 = p1 := by decide +kernel

/-- The taps of 40_filter_design.md R128 in order. -/
theorem rawTaps_R128 : ∃ g0 ∈ outerTaps, ∃ g4 ∈ outerTaps, ∃ g1 ∈ innerTaps,
    rawTaps num 2 2 half = [g0, g1, 0x3FF22F9836E4E442, g1, g4] := by
  obtain ⟨n0, n1, n3, n4, t0, t4⟩ := singular_times
  have e0 : rawTap num 2 2 half 0 = generalTap num half m1 := by
    rw [rawTap_two, n0, t0, if_neg (by decide), if_neg (by decide)]
  have e1 : rawTap num 2 2 half 1 = singularTap num half := by rw [rawTap_two, n1, if_neg (by decide), if_pos rfl]
  have e2 : rawTap num 2 2 half 2 = 0x3FF22F9836E4E442 := by decide +kernel
  have e3 : rawTap num 2 2 half 3 = singularTap num half := by rw [rawTap_two, n3, if_neg (by decide), if_pos rfl]
  have e4 : rawTap num 2 2 half 4 = generalTap num half p1 := by
    rw [rawTap_two, n4, t4, if_neg (by decide), if_neg (by decide)]
  exact ⟨_, generalTap_mem (.inl rfl), _, generalTap_mem (.inr rfl), _, singularTap_mem,
    by rw [rawTaps_two, e0, e1, e2, e3, e4]⟩

/-- The binary64 values of the energy and of its root that the roundings can give. -/
def energies : List Scalar := [0x3FFFBEACAD09CCB6, 0x3FFFBEACAD09CCB7]
def roots : List Scalar := [0x3FF68979FA601357, 0x3FF68979FA601358]

/-- What a boolean check finds of every element of a list. -/
theorem of_all {l : List Scalar} {p : Scalar → Bool} (h : l.all p = true) : ∀ x ∈ l, p x = true := List.all_eq_true.1 h

theorem energy_mem {g0 g4 g1 : Scalar} (m0 : g0 ∈ outerTaps) (m4 : g4 ∈ outerTaps) (m1 : g1 ∈ innerTaps) :
    energies.contains (energy num [g0, g1, 0x3FF22F9836E4E442, g1, g4]) = true := by
  have h : outerTaps.all (fun g0 => outerTaps.all (fun g4 => innerTaps.all (fun g1 =>
      energies.contains (energy num [g0, g1, 0x3FF22F9836E4E442, g1, g4])))) = true := by decide +kernel
  exact of_all (of_all (of_all h g0 m0) g4 m4) g1 m1

theorem root_mem : energies.all (fun e => roots.contains (num.sqrt e)) = true := by decide +kernel

theorem outer_near : outerTaps.all (fun g => near g (-106103295395)) = true := by decide +kernel
theorem inner_near : innerTaps.all (fun g => near g 578632469633) = true := by decide +kernel
theorem centre_near : near 0x3FF22F9836E4E442 1136619772368 = true := by decide +kernel
theorem energy_near : energies.all (fun e => near e 1984051395350) = true := by decide +kernel
theorem root_near : roots.all (fun r => near r 1408563592938) = true := by decide +kernel

theorem coefficients_near : roots.all (fun r => outerTaps.all (fun g => near (num.div g r) (-75327302173)) &&
    innerTaps.all (fun g => near (num.div g r) 410796127724) &&
    near (num.div 0x3FF22F9836E4E442 r) 806935361716) = true := by decide +kernel

theorem normalise_five {R : Type} (N : NumSystem R) (a b c d e : R) : normalise N [a, b, c, d, e] =
    [N.div a (N.sqrt (energy N [a, b, c, d, e])), N.div b (N.sqrt (energy N [a, b, c, d, e])),
     N.div c (N.sqrt (energy N [a, b, c, d, e])), N.div d (N.sqrt (energy N [a, b, c, d, e])),
     N.div e (N.sqrt (energy N [a, b, c, d, e]))] := rfl

/-- Each value rounds to the decimal beside it. -/
def allNear (xs : List Scalar) (ds : List Int) : Prop := List.Forall₂ (fun x d => near x d = true) xs ds

/-- 40_filter_design.md R128: the unnormalised taps, the energy, its root and the stored coefficients. -/
theorem test_kgen_R128 :
    allNear (rawTaps num 2 2 half) [-106103295395, 578632469633, 1136619772368, 578632469633, -106103295395] ∧
    near (energy num (rawTaps num 2 2 half)) 1984051395350 = true ∧
    near (num.sqrt (energy num (rawTaps num 2 2 half))) 1408563592938 = true ∧
    allNear (kernelTaps num 2 2 half) [-75327302173, 410796127724, 806935361716, 410796127724, -75327302173] := by
  obtain ⟨g0, m0, g4, m4, g1, m1, e⟩ := rawTaps_R128
  have me := List.contains_iff_mem.1 (energy_mem m0 m4 m1)
  have mr := List.contains_iff_mem.1 (of_all root_mem _ me)
  have hc := of_all coefficients_near _ mr
  simp only [Bool.and_eq_true] at hc
  obtain ⟨⟨co, ci⟩, cc⟩ := hc
  rw [kernelTaps, e, normalise_five]
  exact ⟨.cons (of_all outer_near _ m0) (.cons (of_all inner_near _ m1) (.cons centre_near
      (.cons (of_all inner_near _ m1) (.cons (of_all outer_near _ m4) .nil)))),
    of_all energy_near _ me, of_all root_near _ mr, .cons (of_all co _ m0) (.cons (of_all ci _ m1) (.cons cc
      (.cons (of_all ci _ m1) (.cons (of_all co _ m4) .nil))))⟩

/-- The angle of the carrier (43_carrier_mixer.md R160). -/
def carrierAngle {R : Type} (N : NumSystem R) (fc : R) (sps : Nat) (phase : R) (t : Nat) : R :=
  N.add (N.div (N.mul (N.mul (N.mul (N.ofNat 2) N.pi) fc) (N.ofNat t)) (N.ofNat sps)) phase

theorem carrierAt_eq {R : Type} (N : NumSystem R) (fc : R) (sps : Nat) (phase : R) (t : Nat) :
    carrierAt N fc sps phase t = N.cos (carrierAngle N fc sps phase t) := rfl

/-- What holds of the mixed real samples under both roundings of their carriers holds of them. -/
theorem mix_samples (fc x : Scalar) (sps : Nat) (ok : Nat → Scalar → Bool)
    (h : (List.range 8).all (fun t => isFinite (carrierAngle num fc sps 0 t) &&
      ok t (num.mul (cosBounds (carrierAngle num fc sps 0 t)).1 x) &&
      ok t (num.mul (cosBounds (carrierAngle num fc sps 0 t)).2 x)) = true) :
    ∀ t < 8, ok t (num.mul (carrierAt num fc sps 0 t) x) = true := by
  intro t ht
  have h' := List.all_eq_true.1 h t (List.mem_range.2 ht)
  simp only [Bool.and_eq_true] at h'
  obtain ⟨⟨hf, h1⟩, h2⟩ := h'
  rw [carrierAt_eq]
  rcases cos_cases hf with e | e <;> rw [e]
  exacts [h1, h2]

/-- Of magnitude below 1e-15. -/
def tiny (x : Scalar) : Bool := decide (magnitude x * 10 ^ 15 < unitsPerOne)

/-- The samples 1, 0, -1, 0, 1, 0, -1, 0 to 12 decimals, with magnitudes below 1e-15 in place of the zeros. -/
def alternates (t : Nat) (y : Scalar) : Bool :=
  if t % 2 = 1 then tiny y else near y (if t % 4 = 0 then 1000000000000 else -1000000000000)

/-- 43_carrier_mixer.md R164, FC = 1, SPS = 4, source 1. -/
theorem test_mix_R164_one : ∀ t < 8, alternates t (num.mul (carrierAt num p1 4 0 t) p1) = true :=
  mix_samples p1 p1 4 alternates (by decide +kernel)

/-- The samples 2, sqrt 2, 0, -sqrt 2, -2, -sqrt 2, 0, sqrt 2 to 12 decimals. -/
def octant (t : Nat) (y : Scalar) : Bool :=
  near y ([2000000000000, 1414213562373, 0, -1414213562373, -2000000000000, -1414213562373, 0, 1414213562373].getD t 0)

/-- 43_carrier_mixer.md R164, FC = 0.5, SPS = 4, source 2. -/
theorem test_mix_R164_half : ∀ t < 8, octant t (num.mul (carrierAt num half 4 0 t) p2) = true :=
  mix_samples half p2 4 octant (by decide +kernel)

/-- 44_channel_noise.md R176: the linear SNR of 10 and of 20 decibels. -/
theorem test_pow10_R176 : num.pow10 (num.ofNat 1) = num.ofNat 10 ∧ num.pow10 (num.ofNat 2) = num.ofNat 100 := by
  decide +kernel

/-- 44_channel_noise.md R176: sigma in its two cases. -/
theorem test_sigma_R176 : near (noiseSigma num (num.ofNat 10) [real p1, real m1, real p1, real m1]) 223606797750 = true ∧
    near (noiseSigma num (num.ofNat 20) [real p2, real p2]) 141421356237 = true := by decide +kernel

/-- 44_channel_noise.md R176: the four noisy samples to 12 decimals, the eight draws consumed. -/
theorem test_awgn_R176 :
    (let y := awgnSamples num scripted (num.ofNat 10) [real p1, real m1, real p1, real m1]
       [(false, p1), (false, 0), (false, 0), (false, m1), (false, m2), (false, half), (false, half), (false, p2)]
     (y.1.zip [(1223606797750, 0), (-1000000000000, -223606797750), (552786404500, 111803398875),
        (-888196601125, 447213595500)]).all (fun q : Sample × Int × Int => near q.1.re q.2.1 && near q.1.im q.2.2) &&
     y.1.length == 4 && y.2.isEmpty) = true := by decide +kernel

end Sys2Proof.Tests
end

section
/-! PROOF. The machine's NUM and the reference NUM have the properties of 00_scope.md R11. -/

namespace Sys2Proof.Machine

/-! ### Finite patterns and their signed values -/

theorem isNan_of_finite {x : Scalar} (h : isFinite x = true) : isNan x = false := by
  have hne : expField x ≠ 2047 := by simpa [isFinite] using h
  simp [isNan, hne]

theorem isInfinite_of_finite {x : Scalar} (h : isFinite x = true) : isInfinite x = false := by
  have hne : expField x ≠ 2047 := by simpa [isFinite] using h
  simp [isInfinite, hne]

theorem isFinite_zero : isFinite 0 = true := by decide

theorem isFinite_one : isFinite 0x3FF0000000000000 = true := by decide

theorem signBit_zero : signBit 0 = false := by decide

theorem magnitude_zero : magnitude 0 = 0 := by decide

theorem signedUnits_zero : signedUnits 0 = 0 := by decide

theorem magnitude_one : magnitude 0x3FF0000000000000 = unitsPerOne := by decide +kernel

theorem signBit_one : signBit 0x3FF0000000000000 = false := by decide

theorem unitsPerOne_pos : 0 < unitsPerOne := by decide +kernel

theorem natAbs_signedUnits (x : Scalar) : (signedUnits x).natAbs = magnitude x := by
  unfold signedUnits
  split <;> omega

theorem signedUnits_nonneg {x : Scalar} (h : signBit x = false) : 0 ≤ signedUnits x := by
  simp [signedUnits, h]

/-- The sign bit of a value other than a zero says whether it lies below 0. -/
theorem signedUnits_neg_iff {x : Scalar} (h : signedUnits x ≠ 0) : signedUnits x < 0 ↔ signBit x = true := by
  cases hs : signBit x with
  | false => simp only [signedUnits, hs, Bool.false_eq_true, if_false, iff_false]; omega
  | true => simp only [signedUnits, hs, if_true, iff_true] at h ⊢; omega

theorem signedUnits_zeroOf (sign : Bool) : signedUnits (zeroOf sign) = 0 := by cases sign <;> decide

theorem isNan_zeroOf (sign : Bool) : isNan (zeroOf sign) = false := by cases sign <;> decide

/-- A finite value, in whatever unit it is counted, is narrowed to itself under its own sign. -/
theorem roundRatio_self {x : Scalar} (h : isFinite x = true) {q : Nat} (hq : 0 < q) :
    roundRatio (signBit x) (q * magnitude x) q = x := by
  rw [roundRatio_exact _ x h hq, withSign_fields]

theorem roundRatio_zero (sign : Bool) {q : Nat} (hq : 0 < q) : roundRatio sign 0 q = zeroOf sign := by
  have hz := roundRatio_exact sign 0 isFinite_zero hq
  rwa [magnitude_zero, Nat.mul_zero, show expField 0 * 2 ^ 52 + fracField 0 = 0 by decide] at hz

/-! ### The order and the equality of finite values -/

theorem fLt_iff {x y : Scalar} (hx : isFinite x = true) (hy : isFinite y = true) :
    fLt x y = true ↔ signedUnits x < signedUnits y := by
  simp [fLt, isNan_of_finite hx, isNan_of_finite hy]

theorem fEq_iff {x y : Scalar} (hx : isFinite x = true) (hy : isFinite y = true) :
    fEq x y = true ↔ signedUnits x = signedUnits y := by
  simp [fEq, isNan_of_finite hx, isNan_of_finite hy]

theorem fEq_self {x : Scalar} (h : isFinite x = true) : fEq x x = true := (fEq_iff h h).2 rfl

theorem fEq_zeroOf {x : Scalar} (sign : Bool) (h : isFinite x = true) (hx : signedUnits x = 0) :
    fEq (zeroOf sign) x = true := by
  simp [fEq, isNan_zeroOf, isNan_of_finite h, signedUnits_zeroOf, hx]

theorem fLt_irrefl (x : Scalar) : fLt x x = false := by simp [fLt]

theorem fLt_trans {x y z : Scalar} (hx : isFinite x = true) (hy : isFinite y = true) (hz : isFinite z = true)
    (hxy : fLt x y = true) (hyz : fLt y z = true) : fLt x z = true :=
  (fLt_iff hx hz).2 (((fLt_iff hx hy).1 hxy).trans ((fLt_iff hy hz).1 hyz))

theorem fLt_total {x y : Scalar} (hx : isFinite x = true) (hy : isFinite y = true) :
    fLt x y = true ∨ fEq x y = true ∨ fLt y x = true := by
  rw [fLt_iff hx hy, fEq_iff hx hy, fLt_iff hy hx]
  exact lt_trichotomy _ _

theorem scalarValue_lt_iff (x y : Scalar) : scalarValue x < scalarValue y ↔ signedUnits x < signedUnits y := by
  rw [scalarValue, scalarValue, div_lt_div_iff_of_pos_right (pow_pos two_pos 1074), Int.cast_lt]

theorem scalarValue_inj (x y : Scalar) : scalarValue x = scalarValue y ↔ signedUnits x = signedUnits y := by
  rw [scalarValue, scalarValue, div_left_inj' (pow_pos two_pos 1074).ne', Int.cast_inj]

/-! ### Products with 0 and 1, sums with 0 -/

theorem fMul_of_finite {x y : Scalar} (hx : isFinite x = true) (hy : isFinite y = true) :
    fMul x y = roundRatio (signBit x != signBit y) (magnitude x * magnitude y) unitsPerOne := by
  simp [fMul, isNan_of_finite hx, isNan_of_finite hy, isInfinite_of_finite hx, isInfinite_of_finite hy]

theorem fMul_comm_of_finite {x y : Scalar} (hx : isFinite x = true) (hy : isFinite y = true) :
    fMul x y = fMul y x := by
  rw [fMul_of_finite hx hy, fMul_of_finite hy hx, Nat.mul_comm, bne_comm]

theorem fMul_zero {x : Scalar} (h : isFinite x = true) : fMul x 0 = zeroOf (signBit x) := by
  rw [fMul_of_finite h isFinite_zero, magnitude_zero, Nat.mul_zero, roundRatio_zero _ unitsPerOne_pos, signBit_zero,
    Bool.bne_false]

theorem fEq_fMul_zero {x : Scalar} (h : isFinite x = true) : fEq (fMul x 0) 0 = true := by
  rw [fMul_zero h]
  exact fEq_zeroOf _ isFinite_zero signedUnits_zero

theorem fEq_zero_fMul {x : Scalar} (h : isFinite x = true) : fEq (fMul 0 x) 0 = true := by
  rw [fMul_comm_of_finite isFinite_zero h]
  exact fEq_fMul_zero h

theorem fMul_one {x : Scalar} (h : isFinite x = true) : fMul x 0x3FF0000000000000 = x := by
  rw [fMul_of_finite h isFinite_one, magnitude_one, signBit_one, Bool.bne_false, Nat.mul_comm,
    roundRatio_self h unitsPerOne_pos]

theorem fEq_fMul_one {x : Scalar} (h : isFinite x = true) : fEq (fMul x 0x3FF0000000000000) x = true := by
  rw [fMul_one h]
  exact fEq_self h

theorem fEq_one_fMul {x : Scalar} (h : isFinite x = true) : fEq (fMul 0x3FF0000000000000 x) x = true := by
  rw [fMul_comm_of_finite isFinite_one h]
  exact fEq_fMul_one h

theorem fSum_of_finite (op : NumOp) {x y : Scalar} (hx : isFinite x = true) (hy : isFinite y = true) :
    fSum op x y = if signedUnits x + signedUnits y = 0 then zeroOf (signBit x && signBit y)
      else roundRatio (decide (signedUnits x + signedUnits y < 0)) (signedUnits x + signedUnits y).natAbs 1 := by
  simp [fSum, isNan_of_finite hx, isNan_of_finite hy, isInfinite_of_finite hx, isInfinite_of_finite hy]

theorem fAdd_comm_of_finite {x y : Scalar} (hx : isFinite x = true) (hy : isFinite y = true) :
    fAdd x y = fAdd y x := by
  rw [fAdd, fAdd, fSum_of_finite _ hx hy, fSum_of_finite _ hy hx, Int.add_comm, Bool.and_comm]

/-- Only the sign of a zero is lost when 0 is added. -/
theorem fAdd_zero {x : Scalar} (h : isFinite x = true) :
    fAdd x 0 = if signedUnits x = 0 then zeroOf false else x := by
  rw [fAdd, fSum_of_finite _ h isFinite_zero, signedUnits_zero, Int.add_zero, signBit_zero, Bool.and_false]
  split
  · rfl
  · next hne =>
    have hsign : decide (signedUnits x < 0) = signBit x := by simp [signedUnits_neg_iff hne]
    have hself := roundRatio_self h Nat.one_pos
    rwa [hsign, natAbs_signedUnits, ← Nat.one_mul (magnitude x)]

theorem fEq_fAdd_zero {x : Scalar} (h : isFinite x = true) : fEq (fAdd x 0) x = true := by
  rw [fAdd_zero h]
  split
  · next hx => exact fEq_zeroOf false h hx
  · exact fEq_self h

theorem fEq_zero_fAdd {x : Scalar} (h : isFinite x = true) : fEq (fAdd 0 x) x = true := by
  rw [fAdd_comm_of_finite isFinite_zero h]
  exact fEq_fAdd_zero h

/-! ### Absolute values -/

theorem signBit_fAbs (x : Scalar) : signBit (fAbs x) = false := by
  rw [signBit, fAbs, BitVec.msb_and, show (0x7FFFFFFFFFFFFFFF : Scalar).msb = false by decide, Bool.and_false]

theorem fAbs_not_neg (x : Scalar) : fLt (fAbs x) 0 = false := by
  have hnonneg : ¬ signedUnits (fAbs x) < signedUnits 0 := by
    rw [signedUnits_zero]
    exact (signedUnits_nonneg (signBit_fAbs x)).not_gt
  rw [fLt, decide_eq_false hnonneg, Bool.and_false]

theorem fAbs_fNeg (x : Scalar) : fAbs (fNeg x) = fAbs x := by
  apply BitVec.eq_of_toNat_eq
  have hmask : (0x8000000000000000 : Scalar).toNat &&& (0x7FFFFFFFFFFFFFFF : Scalar).toNat = 0 := by decide
  rw [fAbs, fNeg, fAbs, BitVec.toNat_and, BitVec.toNat_and, BitVec.toNat_xor, Nat.and_xor_distrib_right, hmask,
    Nat.xor_zero]

/-! ### The two number systems -/

/-- The machine's binary64 has the properties of 00_scope.md R11. -/
theorem num_properties : NumProperties num (fun x => isFinite x = true) where
  finite_zero := isFinite_zero
  finite_one := isFinite_one
  finite_minusOne := by decide
  ofNat_zero := by decide +kernel
  ofNat_one := by decide +kernel
  minusOne_lt_zero := by decide +kernel
  zero_lt_one := by decide +kernel
  zero_not_lt_zero := fLt_irrefl 0
  mul_zero _ hx := fEq_fMul_zero hx
  zero_mul _ hx := fEq_zero_fMul hx
  add_zero _ hx := fEq_fAdd_zero hx
  zero_add _ hx := fEq_zero_fAdd hx
  one_mul _ hx := fEq_one_fMul hx
  mul_one _ hx := fEq_fMul_one hx
  lt_irrefl x _ := fLt_irrefl x
  lt_trans _ _ _ hx hy hz hxy hyz := fLt_trans hx hy hz hxy hyz
  lt_total _ _ hx hy := fLt_total hx hy
  abs_not_neg := fAbs_not_neg
  abs_neg := fAbs_fNeg
  symbol_zero := by decide +kernel
  symbol_one := by decide +kernel

/-- `lt` and `eq` of finite patterns are the order and the equality of the reals they stand for (N3 of R11). -/
theorem num_compares_values {x y : Scalar} (hx : isFinite x = true) (hy : isFinite y = true) :
    (num.lt x y = true ↔ scalarValue x < scalarValue y) ∧ (num.eq x y = true ↔ scalarValue x = scalarValue y) :=
  ⟨(fLt_iff hx hy).trans (scalarValue_lt_iff x y).symm, (fEq_iff hx hy).trans (scalarValue_inj x y).symm⟩

theorem realNum_lt_iff (x y : ℝ) : realNum.lt x y = true ↔ x < y := by simp [realNum]

theorem realNum_eq_iff (x y : ℝ) : realNum.eq x y = true ↔ x = y := by simp [realNum]

theorem realNum_lt_eq_false_iff (x y : ℝ) : realNum.lt x y = false ↔ y ≤ x := by simp [realNum]

/-- The exact reals have the properties of 00_scope.md R11. -/
theorem realNum_properties : NumProperties realNum (fun _ => True) where
  finite_zero := trivial
  finite_one := trivial
  finite_minusOne := trivial
  ofNat_zero := Nat.cast_zero
  ofNat_one := Nat.cast_one
  minusOne_lt_zero := (realNum_lt_iff _ _).2 neg_one_lt_zero
  zero_lt_one := (realNum_lt_iff _ _).2 zero_lt_one
  zero_not_lt_zero := (realNum_lt_eq_false_iff _ _).2 le_rfl
  mul_zero x _ := (realNum_eq_iff _ _).2 (mul_zero x)
  zero_mul x _ := (realNum_eq_iff _ _).2 (zero_mul x)
  add_zero x _ := (realNum_eq_iff _ _).2 (add_zero x)
  zero_add x _ := (realNum_eq_iff _ _).2 (zero_add x)
  one_mul x _ := (realNum_eq_iff _ _).2 (one_mul x)
  mul_one x _ := (realNum_eq_iff _ _).2 (mul_one x)
  lt_irrefl x _ := (realNum_lt_eq_false_iff _ _).2 le_rfl
  lt_trans x y z _ _ _ hxy hyz :=
    (realNum_lt_iff _ _).2 (((realNum_lt_iff _ _).1 hxy).trans ((realNum_lt_iff _ _).1 hyz))
  lt_total x y _ _ := by
    rw [realNum_lt_iff, realNum_eq_iff, realNum_lt_iff]
    exact lt_trichotomy x y
  abs_not_neg x := (realNum_lt_eq_false_iff _ _).2 (abs_nonneg x)
  abs_neg := abs_neg
  symbol_zero := by norm_num [realNum]
  symbol_one := by norm_num [realNum]

/-- Settles O43: the properties of either number system, and what their comparisons say of the reals. -/
theorem machineNumHasTheRequiredProperties : Obligations.MachineNumHasTheRequiredProperties :=
  ⟨num_properties, fun _ _ => num_compares_values, realNum_properties, realNum_lt_iff⟩

end Sys2Proof.Machine
end

section
/-! PROOF. The rules of the state (10_state.md): what a command's result leaves unchanged, what its checks say, and
what it reads. -/

namespace Sys2Proof.Machine

/-! ### What the result of a command leaves unchanged -/

section Results

variable {R S : Type} (P : Params R S) (i : Instr) (s : State R S)

@[simp] theorem commandResultWith_seqState : (commandResultWith P i s).seqState = s.seqState := by cases i <;> rfl
@[simp] theorem commandResultWith_err : (commandResultWith P i s).err = s.err := by cases i <;> rfl
@[simp] theorem commandResultWith_errInfo : (commandResultWith P i s).errInfo = s.errInfo := by cases i <;> rfl
@[simp] theorem commandResultWith_errSeq : (commandResultWith P i s).errSeq = s.errSeq := by cases i <;> rfl
@[simp] theorem commandResultWith_errCmd : (commandResultWith P i s).errCmd = s.errCmd := by cases i <;> rfl
@[simp] theorem commandResultWith_seq : (commandResultWith P i s).seq = s.seq := by cases i <;> rfl
@[simp] theorem commandResultWith_sps : (commandResultWith P i s).sps = s.sps := by cases i <;> rfl
@[simp] theorem commandResultWith_span : (commandResultWith P i s).span = s.span := by cases i <;> rfl
@[simp] theorem commandResultWith_nbits : (commandResultWith P i s).nbits = s.nbits := by cases i <;> rfl
@[simp] theorem commandResultWith_seed : (commandResultWith P i s).seed = s.seed := by cases i <;> rfl
@[simp] theorem commandResultWith_beta : (commandResultWith P i s).beta = s.beta := by cases i <;> rfl
@[simp] theorem commandResultWith_fc : (commandResultWith P i s).fc = s.fc := by cases i <;> rfl
@[simp] theorem commandResultWith_snrDb : (commandResultWith P i s).snrDb = s.snrDb := by cases i <;> rfl
@[simp] theorem commandResultWith_pending : (commandResultWith P i s).pending = s.pending := by cases i <;> rfl

variable {i}

/-- Only the destination buffer is replaced (10_state.md R24). -/
theorem buf_commandResultWith_of_ne {n : BufNo} (h : destination i ≠ some n) :
    buf (commandResultWith P i s) n = buf s n := by
  cases i with
  | kgen _ | ber _ _ => rfl
  | genb _ | enc _ _ _ | shape _ _ _ | mix _ _ | awgn _ _ | mf _ _ _ | trec _ _ | dec _ _ _ =>
    exact buf_setBuf_ne s (fun e => h (congrArg some e.symm)) _

/-- Only KGEN writes a kernel store, the one it names (10_state.md R44). -/
theorem kernel_commandResultWith_of_ne {k : KerNo} (h : i ≠ .kgen k) :
    kernel (commandResultWith P i s) k = kernel s k := by
  cases i with
  | kgen j => exact kernel_setKernel_ne s (fun e => h (congrArg Instr.kgen e.symm)) _
  | _ => rfl

/-- Only TREC writes OFFSET (10_state.md R39). -/
theorem offset_commandResultWith (h : ∀ d a, i ≠ .trec d a) : (commandResultWith P i s).offset = s.offset := by
  cases i with
  | trec d a => exact absurd rfl (h d a)
  | _ => rfl

/-- Only GENB and AWGN draw from the random source (10_state.md R38). -/
theorem rngState_commandResultWith (hgenb : ∀ d, i ≠ .genb d) (hawgn : ∀ d a, i ≠ .awgn d a) :
    (commandResultWith P i s).rngState = s.rngState := by
  cases i with
  | genb d => exact absurd rfl (hgenb d)
  | awgn d a => exact absurd rfl (hawgn d a)
  | _ => rfl

@[simp] theorem buf_genbResult_same (d : BufNo) :
    buf (genbResult P d s) d = .bits (drawBits P.rng s.nbits.toNat s.rngState).1 := buf_setBuf_same s d _

@[simp] theorem buf_awgnResult_same (d a : BufNo) :
    buf (awgnResult P d a s) d = .samples (awgnSamples P.num P.rng s.snrDb (samplesIn s a) s.rngState).1 :=
  buf_setBuf_same s d _

@[simp] theorem buf_trecResult_same (d a : BufNo) :
    buf (trecResult P d a s) d =
      .samples (downsample P.num (spsOf s) (timingOffset P.num (spsOf s) (samplesIn s a)) (samplesIn s a)) :=
  buf_setBuf_same s d _

@[simp] theorem buf_decResult_same (d a : BufNo) (code : LineCode) :
    buf (decResult P d a code s) d = .bits (decideBits P.num code (samplesIn s a)) := buf_setBuf_same s d _

@[simp] theorem genbResult_rngState (d : BufNo) :
    (genbResult P d s).rngState = (drawBits P.rng s.nbits.toNat s.rngState).2 := rfl

@[simp] theorem awgnResult_rngState (d a : BufNo) :
    (awgnResult P d a s).rngState = (awgnSamples P.num P.rng s.snrDb (samplesIn s a) s.rngState).2 := rfl

@[simp] theorem trecResult_offset (d a : BufNo) :
    (trecResult P d a s).offset = BitVec.ofNat 32 (timingOffset P.num (spsOf s) (samplesIn s a)) := rfl

@[simp] theorem decResult_ambigCnt (d a : BufNo) (code : LineCode) :
    (decResult P d a code s).ambigCnt = BitVec.ofNat 32 (ambiguousCount P.num code (samplesIn s a)) := rfl

@[simp] theorem decResult_ambig (d a : BufNo) (code : LineCode) :
    (decResult P d a code s).ambig = ambigFlag (ambiguousCount P.num code (samplesIn s a)) := rfl

end Results

/-- Only BER writes its results (10_state.md R40). -/
theorem sameBerResults_commandResult {i : Instr} (s : State) (h : ∀ a b, i ≠ .ber a b) :
    sameBerResults s (commandResult i s) := by
  cases i with
  | ber a b => exact absurd rfl (h a b)
  | _ => exact ⟨rfl, rfl, rfl, rfl⟩

/-- Only DEC writes its results (10_state.md R41). -/
theorem sameDecResults_commandResult {i : Instr} (s : State) (h : ∀ d a code, i ≠ .dec d a code) :
    sameDecResults s (commandResult i s) := by
  cases i with
  | dec d a code => exact absurd rfl (h d a code)
  | _ => exact ⟨rfl, rfl⟩

theorem sameParameters_commandResult (i : Instr) (s : State) : sameParameters s (commandResult i s) := by
  simp [sameParameters]

theorem sameErrorRecord_commandResult (i : Instr) (s : State) : sameErrorRecord s (commandResult i s) := by
  simp [sameErrorRecord]

/-- Settles O56: a fault writes none of these, and a completed command only its own results. -/
theorem commandsWriteOnlyWhatTheirRulesName : Obligations.CommandsWriteOnlyWhatTheirRulesName := by
  intro i s t h
  rcases exec_cases s i with ⟨sub, -, e⟩ | ⟨-, e⟩ <;> cases e.symm.trans h
  · exact ⟨⟨rfl, rfl, rfl, rfl, rfl, rfl, rfl⟩, rfl, fun _ _ => rfl, fun _ _ => rfl, fun _ => rfl,
      fun _ => ⟨rfl, rfl, rfl, rfl⟩, fun _ => ⟨rfl, rfl⟩, fun _ _ => rfl⟩
  · exact ⟨sameParameters_commandResult i s, commandResultWith_pending params i s,
      fun _ => buf_commandResultWith_of_ne params s, fun _ => kernel_commandResultWith_of_ne params s,
      offset_commandResultWith params s, sameBerResults_commandResult s, sameDecResults_commandResult s,
      rngState_commandResultWith params s⟩

/-! ### How a command ends -/

/-- The first failure is one of the checks, and that check fails. -/
theorem exists_of_firstFailure {checks : List (Bool × SubCause)} {sub : SubCause}
    (h : firstFailure checks = some sub) : ∃ c ∈ checks, c.1 = true ∧ c.2 = sub := by
  induction checks with
  | nil => cases h
  | cons c rest ih =>
    rw [firstFailure_cons] at h
    split at h
    · next hc => exact ⟨c, List.mem_cons_self, hc, Option.some.inj h⟩
    · obtain ⟨c', hmem, hfails⟩ := ih h
      exact ⟨c', List.mem_cons_of_mem c hmem, hfails⟩

/-- No check of a command raises IllegalCommand: that is the decoder's (60_exceptions.md R241, R244). -/
theorem subKind_check_ne_illegal (i : Instr) (s : State) :
    ∀ c ∈ commandChecks i s, subKind c.2 ≠ .illegalCommand := by
  cases i <;>
    simp [commandChecksWith, kgenChecks, genbChecks, encChecks, shapeChecks, mixChecks, awgnChecks, mfChecks,
      trecChecks, decChecks, berChecks, subKind]

theorem subKind_firstFailure_ne_illegal {i : Instr} {s : State} {sub : SubCause}
    (h : firstFailure (commandChecks i s) = some sub) : subKind sub ≠ .illegalCommand := by
  obtain ⟨c, hmem, -, rfl⟩ := exists_of_firstFailure h
  exact subKind_check_ne_illegal i s c hmem

theorem errCode_of_ne_illegal {kind : ErrKind} (h : kind ≠ .illegalCommand) : errCode kind = 1 ∨ errCode kind = 2 := by
  cases kind with
  | invalidArgument => exact .inl rfl
  | insufficientData => exact .inr rfl
  | illegalCommand => exact absurd rfl h

/-- Settles O12: a command takes the fault of a check, whose kind is 1 or 2, or completes. -/
theorem everyCommandEndsAndAdvancesSeq : Obligations.EveryCommandEndsAndAdvancesSeq := by
  refine ⟨fun i s => ?_, rfl, rfl, rfl, rfl, rfl⟩
  rcases exec_cases s i with ⟨sub, hfail, e⟩ | ⟨-, e⟩
  · exact ⟨_, e, rfl, .inr ⟨rfl, subKind sub, rfl, rfl, rfl,
      errCode_of_ne_illegal (subKind_firstFailure_ne_illegal hfail)⟩⟩
  · exact ⟨_, e, by simp, .inl ⟨rfl, rfl, sameErrorRecord_commandResult i s⟩⟩

/-! ### What a command reads -/

section Operands

variable {s s' : State} {i : Instr}

theorem bitsIn_congr {n : BufNo} (h : buf s n = buf s' n) : bitsIn s n = bitsIn s' n := congrArg bitsOf h

theorem samplesIn_congr {n : BufNo} (h : buf s n = buf s' n) : samplesIn s n = samplesIn s' n := congrArg samplesOf h

theorem checkBits_congr {n : BufNo} (h : buf s n = buf s' n) : checkBits s n = checkBits s' n := by
  rw [checkBits, checkBits, h]

theorem checkSamples_congr {n : BufNo} (h : buf s n = buf s' n) : checkSamples s n = checkSamples s' n := by
  rw [checkSamples, checkSamples, h]

theorem checkKernel_congr {k : KerNo} (h : kernel s k = kernel s' k) : checkKernel s k = checkKernel s' k := by
  rw [checkKernel, checkKernel, h]

theorem spsOf_congr (h : s.sps = s'.sps) : spsOf s = spsOf s' := congrArg BitVec.toNat h

theorem checkSps_congr (h : s.sps = s'.sps) : checkSps s = checkSps s' := by
  rw [checkSps, checkSps, h]

theorem checkShort_congr {n : BufNo} (hbuf : buf s n = buf s' n) (hsps : s.sps = s'.sps) :
    checkShort s n = checkShort s' n := by
  rw [checkShort, checkShort, samplesIn_congr hbuf, spsOf_congr hsps]

/-- KGEN's checks look at its three parameters alone (40_filter_design.md R121). -/
theorem kgenChecks_congr (hsps : s.sps = s'.sps) (hspan : s.span = s'.span) (hbeta : s.beta = s'.beta) :
    kgenChecks params s = kgenChecks params s' := by
  simp only [kgenChecks, checkSps, checkSpan, checkBeta, checkParity, spsOf, spanOf, hsps, hspan, hbeta]

/-- The checks of a command look at its operands alone (10_state.md R46). -/
theorem commandChecks_congr (h : operandsAgree i s s') : commandChecks i s = commandChecks i s' := by
  cases i with
  | kgen k =>
    obtain ⟨hsps, hspan, hbeta⟩ := h
    exact kgenChecks_congr hsps hspan hbeta
  | genb d =>
    obtain ⟨hnbits, -⟩ := h
    simp only [commandChecksWith, genbChecks, hnbits]
  | enc d a code =>
    replace h : buf s a = buf s' a := h
    simp only [commandChecksWith, encChecks, checkBits_congr h, bitsIn_congr h]
  | shape d a k =>
    obtain ⟨hbuf, hker, hsps⟩ := h
    simp only [commandChecksWith, shapeChecks, checkSamples_congr hbuf, checkSps_congr hsps, checkKernel_congr hker,
      samplesIn_congr hbuf, spsOf_congr hsps]
  | mix d a =>
    obtain ⟨hbuf, -, hsps⟩ := h
    simp only [commandChecksWith, mixChecks, checkSamples_congr hbuf, checkSps_congr hsps]
  | awgn d a =>
    obtain ⟨hbuf, -, -⟩ := h
    simp only [commandChecksWith, awgnChecks, checkSamples_congr hbuf]
  | mf d a k =>
    obtain ⟨hbuf, hker⟩ := h
    simp only [commandChecksWith, mfChecks, checkSamples_congr hbuf, checkKernel_congr hker]
  | trec d a =>
    obtain ⟨hbuf, hsps⟩ := h
    simp only [commandChecksWith, trecChecks, checkSamples_congr hbuf, checkSps_congr hsps, checkShort_congr hbuf hsps]
  | dec d a code =>
    replace h : buf s a = buf s' a := h
    simp only [commandChecksWith, decChecks, checkSamples_congr h]
  | ber a b =>
    obtain ⟨ha, hb⟩ := h
    simp only [commandChecksWith, berChecks, checkBits_congr ha, checkBits_congr hb]

/-- What a completed command writes is computed from its operands alone (10_state.md R46). -/
theorem resultsAgree_commandResult (h : operandsAgree i s s') :
    resultsAgree i (commandResult i s) (commandResult i s') := by
  cases i with
  | kgen k =>
    obtain ⟨hsps, hspan, hbeta⟩ := h
    simp only [resultsAgree, commandResultWith, kernel_setKernel_same, kgenStore, spsOf, spanOf, hsps, hspan, hbeta]
  | genb d =>
    obtain ⟨hnbits, hrng⟩ := h
    simp only [resultsAgree, commandResultWith, buf_genbResult_same, genbResult_rngState, hnbits, hrng, and_self]
  | enc d a code =>
    replace h : buf s a = buf s' a := h
    simp only [resultsAgree, commandResultWith, buf_setBuf_same, bitsIn_congr h]
  | shape d a k =>
    obtain ⟨hbuf, hker, hsps⟩ := h
    simp only [resultsAgree, commandResultWith, buf_setBuf_same, samplesIn_congr hbuf, spsOf_congr hsps, hker]
  | mix d a =>
    obtain ⟨hbuf, hfc, hsps⟩ := h
    simp only [resultsAgree, commandResultWith, buf_setBuf_same, samplesIn_congr hbuf, spsOf_congr hsps, hfc]
  | awgn d a =>
    obtain ⟨hbuf, hsnr, hrng⟩ := h
    simp only [resultsAgree, commandResultWith, buf_awgnResult_same, awgnResult_rngState,
      samplesIn_congr hbuf, hsnr, hrng, and_self]
  | mf d a k =>
    obtain ⟨hbuf, hker⟩ := h
    simp only [resultsAgree, commandResultWith, buf_setBuf_same, samplesIn_congr hbuf, hker]
  | trec d a =>
    obtain ⟨hbuf, hsps⟩ := h
    simp only [resultsAgree, commandResultWith, buf_trecResult_same, trecResult_offset,
      samplesIn_congr hbuf, spsOf_congr hsps, and_self]
  | dec d a code =>
    replace h : buf s a = buf s' a := h
    simp only [resultsAgree, commandResultWith, buf_decResult_same, decResult_ambigCnt,
      decResult_ambig, samplesIn_congr h, and_self]
  | ber a b =>
    obtain ⟨ha, hb⟩ := h
    simp only [resultsAgree, commandResultWith, berResult, bitsIn_congr ha, bitsIn_congr hb, and_self]

/-- Ending a command touches none of its results. -/
theorem resultsAgree_complete {t t' : State} (h : resultsAgree i t t') : resultsAgree i (complete t) (complete t') := by
  cases i <;> exact h

end Operands

/-- Settles O57: the same checks pass in both states, and the results are computed from the same operands. -/
theorem resultsDependOnlyOnOperands : Obligations.ResultsDependOnlyOnOperands := by
  intro i s s' t t' hops h h'
  have hchecks := commandChecks_congr hops
  rcases exec_cases s i with ⟨sub, hfail, e⟩ | ⟨hpass, e⟩
  · have e' := exec_eq_runCommand s' i
    rw [runCommand_fault s' (hchecks ▸ hfail)] at e'
    cases e.symm.trans h
    cases e'.symm.trans h'
    exact ⟨rfl, rfl, nofun, fun _ => ⟨rfl, rfl, rfl⟩⟩
  · cases e.symm.trans h
    cases (exec_complete_of_checks (hchecks ▸ hpass)).symm.trans h'
    exact ⟨rfl, rfl, fun _ => resultsAgree_complete (resultsAgree_commandResult hops), nofun⟩

/-! ### Steps of the host -/

/-- A parameter write leaves the command counter and the kernel stores alone (10_state.md R26, R43). -/
theorem writeReg_frame {s s' : State} {n : BitVec 8} {v : HostValue} (h : writeReg params s n v = some s') :
    s'.seq = s.seq ∧ ∀ k, kernel s' k = kernel s k := by
  rcases writeReg_cases h with ⟨w, rfl⟩ | ⟨w, rfl⟩ | ⟨w, rfl⟩ | ⟨w, rfl⟩ | ⟨x, -, rfl⟩ | ⟨x, -, rfl⟩ | ⟨x, -, rfl⟩ <;>
    exact ⟨rfl, fun _ => rfl⟩

/-- A CMD in IDLE advances the counter: an illegal word and a command that faults by `raise`, a command that ends by
`complete` (10_state.md R26). -/
theorem seq_command_of_idle {s t : State} {w : Word} (hidle : s.seqState = .idle)
    (h : command exec w s = .next t) : t.seq = s.seq + 1 := by
  have hnf : s.seqState ≠ .faulted := by simp [hidle]
  rcases command_cases w s with ⟨hf, -⟩ | ⟨-, e, -, hrun⟩ | ⟨-, i, -, hrun⟩
  · exact absurd hf hnf
  · cases hrun.symm.trans h
    rfl
  · obtain ⟨u, hu, hseq, -⟩ := everyCommandEndsAndAdvancesSeq.1 i s
    cases hu.symm.trans (hrun.symm.trans h)
    exact hseq

/-- A step that is neither RESET nor a CMD in IDLE leaves the counter alone (10_state.md R26). -/
theorem seq_step_of_not_accepted {s t : State} (h : step s = .next t) (hreset : ∀ rest, s.pending ≠ .reset :: rest)
    (hcmd : ∀ w rest, s.pending = .cmd w :: rest → s.seqState = .faulted) : t.seq = s.seq := by
  rcases step_cases h with ⟨-, rfl⟩ | ⟨tr, rest, hp, u, rfl, hcase⟩
  · rfl
  rcases hcase with ⟨r, rfl⟩ | ⟨-, -, rfl⟩ | ⟨-, n, v, u', -, hw, rfl⟩ | ⟨-, n, data, b, -, -, rfl⟩ |
    ⟨hidle, sub, w, w', rfl, -⟩ | ⟨hidle, w, i, rfl, -⟩ | ⟨rfl, -⟩
  · rfl
  · rfl
  · exact ((writeReg_frame hw).1 :)
  · rfl
  · exact absurd (hidle.symm.trans (hcmd w rest hp)) nofun
  · exact absurd (hidle.symm.trans (hcmd w rest hp)) nofun
  · exact absurd hp (hreset rest)

/-- Settles O60: a CMD in IDLE, every step but that and RESET, and RESET. -/
theorem seqCountsAcceptedCommands : Obligations.SeqCountsAcceptedCommands := by
  intro s t hnb h
  refine ⟨fun w rest hp hidle => ?_, seq_step_of_not_accepted h, fun rest hp => ?_⟩
  · rw [step_of_pending hp, transact_of_not_busy (s := { s with pending := rest }) hnb] at h
    exact seq_command_of_idle (s := { s with pending := rest }) hidle h
  · rw [step_of_pending hp, transact_reset] at h
    cases h
    rfl

/-- Settles O58: of everything a step can do, only RESET and a completed command write a kernel store, and of the
commands only the KGEN of that store. -/
theorem kernelStoresChangeOnlyByKgenOrReset : Obligations.KernelStoresChangeOnlyByKgenOrReset := by
  intro s t k h hchange
  rcases step_cases h with ⟨-, rfl⟩ | ⟨tr, rest, hp, u, rfl, hcase⟩
  · exact absurd rfl hchange
  rcases hcase with ⟨r, rfl⟩ | ⟨-, -, rfl⟩ | ⟨-, n, v, u', -, hw, rfl⟩ | ⟨-, n, data, b, -, -, rfl⟩ |
    ⟨-, sub, w, w', -, rfl⟩ | ⟨hidle, w, i, rfl, hd, -, rfl⟩ | ⟨rfl, -⟩
  · exact absurd rfl hchange
  · exact absurd rfl hchange
  · exact absurd ((writeReg_frame hw).2 k) hchange
  · exact absurd rfl hchange
  · exact absurd rfl hchange
  · have hi : i = .kgen k := by
      by_contra hne
      exact hchange (kernel_commandResultWith_of_ne params _ hne)
    exact ⟨rest, .inr ⟨w, hp, hidle, hi ▸ hd⟩⟩
  · exact ⟨rest, .inl hp⟩

end Sys2Proof.Machine
end

section
/-! PROOF. The invariant of the state: it holds at reset and every step keeps it (10_state.md R22, R36 to R44). -/

namespace Sys2Proof.Machine

/-! ### Lengths and counts -/

theorem bitsOf_length_le {R : Type} (b : Buffer R) : (bitsOf b).length ≤ bufLen b := by
  cases b <;> simp [bitsOf, bufLen]

theorem samplesOf_length_le {R : Type} (b : Buffer R) : (samplesOf b).length ≤ bufLen b := by
  cases b <;> simp [samplesOf, bufLen]

theorem spsOf_pos {s : State} (h : s.sps ≠ 0) : 0 < spsOf s :=
  Nat.pos_of_ne_zero fun e => h (BitVec.eq_of_toNat_eq e)

/-- The scan for the largest metric answers one of the offsets it has met (46_timing_recovery.md R192). -/
theorem foldl_scanStep_lt {R : Type} (N : NumSystem R) (metric : Nat → R) {n : Nat} (offs : List Nat) (off : Nat)
    (hoff : off < n) (hoffs : ∀ o ∈ offs, o < n) : offs.foldl (scanStep N metric) off < n := by
  induction offs generalizing off with
  | nil => exact hoff
  | cons o rest ih =>
    obtain ⟨ho, hrest⟩ := List.forall_mem_cons.1 hoffs
    refine ih _ ?_ hrest
    unfold scanStep
    split
    · exact ho
    · exact hoff

theorem timingOffset_lt {R : Type} (N : NumSystem R) {sps : Nat} (hsps : 0 < sps) (x : List (Cplx R)) :
    timingOffset N sps x < sps := by
  refine foldl_scanStep_lt N _ _ 0 hsps fun o ho => ?_
  rw [List.mem_range'_1] at ho
  omega

/-- Downsampling does not lengthen a waveform (46_timing_recovery.md R193). -/
theorem downsampleCount_le (len off : Nat) {sps : Nat} (hsps : 0 < sps) : downsampleCount len off sps ≤ len := by
  have hmul : len ≤ len * sps := Nat.le_mul_of_pos_right len hsps
  rw [downsampleCount, ← Nat.lt_succ_iff, Nat.div_lt_iff_lt_mul hsps, Nat.succ_mul]
  omega

/-- A count within BUFCAP fits in 32 bits, so a register holds it whole (log 12). -/
theorem toNat_word_of_le_bufcap {n : Nat} (h : n ≤ Config.bufcap) : (BitVec.ofNat 32 n).toNat = n := by
  rw [BitVec.toNat_ofNat, Nat.mod_eq_of_lt]
  exact h.trans_lt (by decide)

/-! ### One rule per update of the state -/

/-- A store that is not valid is empty (10_state.md R44). -/
theorem sound_invalid : (KernelStore.invalid 0 : KernelStore).Sound where
  empty _ := rfl
  length := nofun
  odd := nofun
  fits := Nat.zero_le _
  sps := nofun
  span := nofun
  beta := nofun

theorem inv_reset : State.reset.Inv where
  notBusy := nofun
  idleClean _ := ⟨rfl, rfl⟩
  faultRecorded := nofun
  bufferFits n := by simp [bufLen]
  kernelSound k := by rw [kernel_reset]; exact sound_invalid
  ambigFlag := by decide
  degenFlag := nofun
  berBounds := by decide
  offsetBound := by decide
  parametersFinite := ⟨isFinite_zero, isFinite_zero, isFinite_zero⟩

/-- Settles O54: the base case of O55. -/
theorem resetStateIsSound : Obligations.ResetStateIsSound := inv_reset

section Updates

variable {s : State} (hs : s.Inv)

include hs

/-- The host's stream is no part of the invariant. -/
theorem inv_withPending (rest : List Transaction) : State.Inv { s with pending := rest } := { hs with }

theorem inv_answer (r : Response) : (answer r s).Inv := { hs with }

theorem inv_errClr : (errClr s).Inv :=
  { hs with notBusy := nofun, idleClean := fun _ => ⟨rfl, rfl⟩, faultRecorded := nofun }

theorem inv_raise (sub : SubCause) (w : Word) : (raise sub w s).Inv :=
  { hs with notBusy := nofun, idleClean := nofun, faultRecorded := fun _ => ⟨sub, rfl, rfl⟩ }

/-- A command that completes ends with no error on record, as it began (60_exceptions.md R244). -/
theorem inv_complete (hidle : s.seqState = .idle) : (complete s).Inv :=
  { hs with notBusy := nofun, idleClean := fun _ => hs.idleClean hidle, faultRecorded := nofun }

theorem inv_setBuf (n : BufNo) {b : Buffer} (hfits : bufLen b ≤ Config.bufcap) : (setBuf s n b).Inv :=
  { hs with
    bufferFits := fun m => by
      rw [buf_setBuf]
      split
      · exact hfits
      · exact hs.bufferFits m }

theorem inv_setKernel (k : KerNo) {st : KernelStore} (hsound : st.Sound) : (setKernel s k st).Inv :=
  { hs with
    kernelSound := fun j => by
      rw [kernel_setKernel]
      split
      · exact hsound
      · exact hs.kernelSound j }

/-- A parameter write puts a finite real into a real register (20_memory.md R68). -/
theorem inv_writeReg {n : BitVec 8} {v : HostValue} {s' : State} (hw : writeReg params s n v = some s') :
    s'.Inv := by
  obtain ⟨hbeta, hfc, hsnr⟩ := hs.parametersFinite
  rcases writeReg_cases hw with ⟨w, rfl⟩ | ⟨w, rfl⟩ | ⟨w, rfl⟩ | ⟨w, rfl⟩ | ⟨x, hx, rfl⟩ | ⟨x, hx, rfl⟩ | ⟨x, hx, rfl⟩
  · exact { hs with }
  · exact { hs with }
  · exact { hs with }
  · exact { hs with }
  · exact { hs with parametersFinite := ⟨hx, hfc, hsnr⟩ }
  · exact { hs with parametersFinite := ⟨hbeta, hx, hsnr⟩ }
  · exact { hs with parametersFinite := ⟨hbeta, hfc, hx⟩ }

/-! ### The results of the commands -/

theorem bitsIn_length_le (n : BufNo) : (bitsIn s n).length ≤ Config.bufcap :=
  (bitsOf_length_le _).trans (hs.bufferFits n)

theorem samplesIn_length_le (n : BufNo) : (samplesIn s n).length ≤ Config.bufcap :=
  (samplesOf_length_le _).trans (hs.bufferFits n)

/-- A result as long as a source buffer fits. -/
theorem inv_setBuf_samples (d a : BufNo) {xs : List Sample} (hlen : xs.length ≤ (samplesIn s a).length) :
    (setBuf s d (.samples xs)).Inv :=
  inv_setBuf hs d (hlen.trans (samplesIn_length_le hs a))

theorem inv_genbResult (d : BufNo) (hfits : s.nbits.toNat ≤ Config.bufcap) : (genbResult params d s).Inv :=
  { inv_setBuf hs d (b := .bits (drawBits params.rng s.nbits.toNat s.rngState).1)
      ((drawBits_length params.rng _ _).trans_le hfits) with }

theorem inv_awgnResult (d a : BufNo) : (awgnResult params d a s).Inv :=
  { inv_setBuf_samples hs d a (awgnSamples_length params.num params.rng s.snrDb (samplesIn s a) s.rngState).le with }

/-- TREC's offset is below SPS, and its source holds ten symbol periods (46_timing_recovery.md R190, R192). -/
theorem inv_trecResult (d a : BufNo) (hsps : s.sps ≠ 0) (hshort : ¬ (samplesIn s a).length < 10 * spsOf s) :
    (trecResult params d a s).Inv :=
  have hpos : 0 < spsOf s := spsOf_pos hsps
  have hcount := (downsample_length params.num (spsOf s) (timingOffset params.num (spsOf s) (samplesIn s a))
    (samplesIn s a)).trans_le (downsampleCount_le _ _ hpos)
  have hbound : timingOffset params.num (spsOf s) (samplesIn s a) < Config.bufcap := by
    have hoff := timingOffset_lt params.num hpos (samplesIn s a)
    have hlen := samplesIn_length_le hs a
    omega
  { inv_setBuf_samples hs d a hcount with
    offsetBound := by rwa [trecResult_offset, toNat_word_of_le_bufcap hbound.le] }

/-- AMBIGCNT is at most the length of a buffer, so it is not cut off (47_bit_decision.md R207). -/
theorem inv_decResult (d a : BufNo) (code : LineCode) : (decResult params d a code s).Inv :=
  have hlen := samplesIn_length_le hs a
  have hcount := (ambiguousCount_le params.num code _).trans hlen
  { inv_setBuf hs d (b := .bits (decideBits params.num code (samplesIn s a)))
      ((decideBits_length_le params.num code _).trans hlen) with
    ambigFlag := by
      rw [decResult_ambig, decResult_ambigCnt, ambigFlag, Bool.eq_iff_iff, bne_iff_ne, bne_iff_ne, Ne, Ne,
        ← BitVec.toNat_inj, toNat_word_of_le_bufcap hcount]
      exact Iff.rfl }

/-- BER's counts are at most the length of a buffer, so they are not cut off (48_source_and_ber.md R224). -/
theorem inv_berResult (a b : BufNo) : (berResult params a b s).Inv :=
  have herrs := bitErrorCount_le (bitsIn s a) (bitsIn s b)
  have hcmp : compareLength (bitsIn s a) (bitsIn s b) ≤ Config.bufcap :=
    (Nat.min_le_left _ _).trans (bitsIn_length_le hs a)
  { hs with
    degenFlag := fun hdegen => congrArg (BitVec.ofNat 32) (eq_of_beq hdegen)
    berBounds := by
      show (BitVec.ofNat 32 _).toNat ≤ (BitVec.ofNat 32 _).toNat ∧ (BitVec.ofNat 32 _).toNat ≤ _
      rw [toNat_word_of_le_bufcap hcmp, toNat_word_of_le_bufcap (herrs.trans hcmp)]
      exact ⟨herrs, hcmp⟩ }

omit hs in
/-- KGEN stores an odd number of taps: `SPAN * SPS` is even by its fourth check (40_filter_design.md R121). -/
theorem kgenStore_sound (hsps : s.sps ≠ 0) (hspan : s.span ≠ 0) (hbeta : betaInRange s)
    (hparity : ¬ s.span.toNat * s.sps.toNat % 2 = 1) (hfits : s.span.toNat * s.sps.toNat + 1 ≤ Config.kcap) :
    (kgenStore params s).Sound :=
  have hlen : (kgenStore params s).h.length = s.span.toNat * s.sps.toNat + 1 := kernelTaps_length _ _ _ _
  { empty := nofun
    length := fun _ => hlen
    odd := fun _ => by rw [hlen]; omega
    fits := hlen.trans_le hfits
    sps := fun _ => hsps
    span := fun _ => hspan
    beta := fun _ => ⟨hbeta.1, (Bool.or_eq_true _ _).mpr hbeta.2⟩ }

/-- A command whose checks pass keeps the invariant: the checks say that what it writes fits. -/
theorem inv_commandResult {i : Instr} (hpass : firstFailure (commandChecks i s) = none) :
    (commandResult i s).Inv := by
  simp only [firstFailure_eq_none, ← Bool.not_eq_true] at hpass
  cases i with
  | kgen k =>
    simp only [commandChecksWith, kgenChecks, kernelLength, List.forall_mem_cons, checkSps_fails, checkSpan_fails,
      checkBeta_fails, checkParity_fails, checkKcap_fails, not_not, not_lt] at hpass
    obtain ⟨hsps, hspan, hbeta, hparity, hfits, -⟩ := hpass
    exact inv_setKernel hs k (kgenStore_sound hsps hspan hbeta hparity hfits)
  | genb d =>
    simp only [commandChecksWith, genbChecks, List.forall_mem_cons, checkBufcap_fails, not_lt] at hpass
    exact inv_genbResult hs d hpass.1
  | enc d a code =>
    simp only [commandChecksWith, encChecks, List.forall_mem_cons, checkBufcap_fails, not_lt] at hpass
    obtain ⟨-, -, -, hfits, -⟩ := hpass
    exact inv_setBuf hs d ((encodeBits_length_le params.num code _).trans hfits)
  | shape d a k =>
    simp only [commandChecksWith, shapeChecks, List.forall_mem_cons, checkBufcap_fails, not_lt] at hpass
    obtain ⟨-, -, -, -, hfits, -⟩ := hpass
    exact inv_setBuf hs d ((shapeSamples_length params.num _ _ _).trans_le hfits)
  | mix d a => exact inv_setBuf_samples hs d a (mixSamples_length params.num _ _ _ _).le
  | awgn d a => exact inv_awgnResult hs d a
  | mf d a k => exact inv_setBuf_samples hs d a (convSame_length params.num _ _).le
  | trec d a =>
    simp only [commandChecksWith, trecChecks, List.forall_mem_cons, checkSps_fails, checkShort_fails] at hpass
    obtain ⟨-, -, hsps, hshort, -⟩ := hpass
    exact inv_trecResult hs d a hsps hshort
  | dec d a code => exact inv_decResult hs d a code
  | ber a b => exact inv_berResult hs a b

end Updates

/-- Settles O55, by what a step can do and one rule for each. -/
theorem everyStepKeepsTheStateSound : Obligations.EveryStepKeepsTheStateSound := by
  intro s t hs h
  rcases step_cases h with ⟨-, rfl⟩ | ⟨tr, rest, hp, u, rfl, hcase⟩
  · exact hs
  have hu := inv_withPending hs rest
  rcases hcase with ⟨r, rfl⟩ | ⟨-, -, rfl⟩ | ⟨-, n, v, u', -, hw, rfl⟩ | ⟨-, n, data, b, -, hload, rfl⟩ |
    ⟨-, sub, w, w', -, rfl⟩ | ⟨hidle, w, i, -, -, hpass, rfl⟩ | ⟨-, rfl⟩
  · exact inv_answer hu r
  · exact inv_errClr hu
  · exact inv_answer (inv_writeReg hu hw) .ok
  · exact inv_answer (inv_setBuf hu n (loadedBuffer_fits hload)) .ok
  · exact inv_raise hu sub w'
  · exact inv_complete (inv_commandResult hu hpass) ((commandResultWith_seqState ..).trans hidle)
  · exact inv_withPending inv_reset rest

end Sys2Proof.Machine
end

section
/-! PROOF. Real waveforms over the exact reals (10_state.md R23): what has no imaginary part keeps none. -/

namespace Sys2Proof.Machine

theorem encodeBits_real (code : LineCode) (bits : List Bool) : isRealWaveform (encodeBits realNum code bits) := by
  cases code with
  | nrz =>
    intro z hz
    obtain ⟨b, -, rfl⟩ := List.mem_map.1 hz
    rfl
  | manchester =>
    intro z hz
    obtain ⟨b, -, hsym⟩ := List.mem_flatMap.1 hz
    cases b <;> rcases List.mem_pair.1 hsym with rfl | rfl <;> rfl
  | code2 | code3 => exact nofun

/-- A waveform computed index by index is real if each of its samples is. -/
theorem isRealWaveform_map_range {n : Nat} {f : Nat → Cplx ℝ} (h : ∀ i, (f i).im = 0) :
    isRealWaveform ((List.range n).map f) := by
  intro z hz
  obtain ⟨i, -, rfl⟩ := List.mem_map.1 hz
  exact h i

theorem cplxScale_im_zero (r : ℝ) {z : Cplx ℝ} (h : z.im = 0) : (cplxScale realNum r z).im = 0 :=
  (congrArg (r * ·) h).trans (mul_zero r)

theorem cplxAdd_im_zero {z w : Cplx ℝ} (hz : z.im = 0) (hw : w.im = 0) : (cplxAdd realNum z w).im = 0 :=
  (congrArg₂ (· + ·) hz hw).trans (add_zero 0)

section

variable {x : List (Cplx ℝ)} (hx : isRealWaveform x)

include hx

/-- A sample of a real waveform is real, and so is the zero in place of a sample that is not there. -/
theorem getD_im_zero (n : Nat) : (x.getD n (cplxZero realNum)).im = 0 := by
  rcases lt_or_ge n x.length with hn | hn
  · rw [List.getD_eq_getElem _ _ hn]
    exact hx _ (List.getElem_mem hn)
  · rw [List.getD_eq_default _ _ hn]
    rfl

/-- Each step of the sum adds a real multiple of a real sample (42_pulse_shaper.md R146). -/
theorem foldl_convStep_im_zero (h : List ℝ) (n : Nat) (taps : List Nat) {acc : Cplx ℝ} (hacc : acc.im = 0) :
    (taps.foldl (convStep realNum x h n) acc).im = 0 := by
  induction taps generalizing acc with
  | nil => exact hacc
  | cons m rest ih =>
    refine ih ?_
    unfold convStep
    dsimp only
    split
    · exact cplxAdd_im_zero hacc (cplxScale_im_zero _ (getD_im_zero hx _))
    · exact hacc

theorem convSame_real (h : List ℝ) : isRealWaveform (convSame realNum x h) :=
  isRealWaveform_map_range fun n => foldl_convStep_im_zero hx h n _ rfl

theorem upsample_real (sps : Nat) : isRealWaveform (upsample realNum sps x) :=
  isRealWaveform_map_range fun n => by
    split
    · exact getD_im_zero hx _
    · rfl

theorem mixSamples_real (fc : ℝ) (sps : Nat) (phase : ℝ) : isRealWaveform (mixSamples realNum fc sps phase x) :=
  isRealWaveform_map_range fun t => cplxScale_im_zero _ (getD_im_zero hx t)

theorem downsample_real (sps off : Nat) : isRealWaveform (downsample realNum sps off x) :=
  isRealWaveform_map_range fun _ => getD_im_zero hx _

end

/-- Settles O42: SHAPE is the convolution of the upsampled symbols. -/
theorem realWaveformsStayReal : Obligations.RealWaveformsStayReal :=
  ⟨encodeBits_real, fun _ hx => ⟨fun sps => convSame_real (upsample_real hx sps), mixSamples_real hx, convSame_real hx,
    downsample_real hx⟩⟩

end Sys2Proof.Machine
end

section
/-! PROOF. What reset leaves (10_state.md R48), and the bits of a reseeded source (R31). -/

namespace Sys2Proof.Machine

/-! ### Reset -/

/-- The value of a register after reset (10_state.md R48). -/
def isZeroValue (v : RegValue) : Prop := v = .u32 0 ∨ v = .u64 0 ∨ v = .real num.zero

/-- Every row of the map reads 0 after reset, the buffers' descriptors among them (10_state.md R27, R48). -/
theorem registerMap_reset : ∀ row ∈ registerMap State.reset, isZeroValue row.2 := by
  have hu32 : isZeroValue (.u32 0#32) := .inl rfl
  have hu64 : isZeroValue (.u64 0#64) := .inr (.inl rfl)
  have hreal : isZeroValue (.real 0#64) := .inr (.inr rfl)
  rw [registerMap, List.forall_mem_append]
  constructor
  · simp [hu32, hu64, hreal, stateNumber, KernelStore.invalid]
  · intro row hrow
    obtain ⟨n, -, hn⟩ := List.mem_flatMap.1 hrow
    rw [buf_reset] at hn
    rcases List.mem_pair.1 hn with rfl | rfl <;> exact hu32

/-- Settles O52: the registers, the map, the buffers and the kernel stores. -/
theorem resetValuesAreTheSpecs : Obligations.ResetValuesAreTheSpecs := by
  refine ⟨rfl, rfl, rfl, rfl, rfl, rfl, rfl, rfl, rfl, rfl, rfl, rfl, rfl, rfl, rfl, rfl, rfl, rfl, rfl, rfl, rfl,
    fun n v hrow => registerMap_reset (n, v) hrow, fun n => ?_, fun k => ?_⟩
  · rw [buf_reset]
    exact ⟨rfl, rfl, rfl⟩
  · rw [kernel_reset]
    exact ⟨rfl, rfl, rfl, rfl, rfl⟩

/-! ### Reseeding -/

/-- A natural below 2^64 is a value of the register `SEED` (20_memory.md R68). -/
theorem writeReg_seed (s : State) {v : Nat} (hv : v < 2 ^ 64) :
    writeReg params s 0x0B (.int v) = some (writeSeed params s (BitVec.ofNat 64 v)) := by
  have hword : hostWord (R := Scalar) 64 (.int v) = some (BitVec.ofNat 64 v) :=
    if_pos ⟨Int.natCast_nonneg v, hv⟩
  exact congrArg (Option.map (writeSeed params s)) hword

theorem regWrite_of_writeReg {s s' : State} {n : BitVec 8} {v : HostValue} (hnf : s.seqState ≠ .faulted)
    (h : writeReg params s n v = some s') : regWrite params n v s = answer .ok s' := by
  simp [regWrite, hnf, h]

/-- A write of `SEED` in IDLE seeds the random source with it (10_state.md R31; 20_memory.md R68). -/
theorem step_writeSeed {s : State} {v : Nat} {rest : List Transaction} (hv : v < 2 ^ 64) (hidle : s.seqState = .idle)
    (hp : s.pending = .regwr 0x0B (.int v) :: rest) :
    step s = .next (answer .ok (writeSeed params { s with pending := rest } (BitVec.ofNat 64 v))) := by
  have hnf : s.seqState ≠ .faulted := by simp [hidle]
  have hnb : s.seqState ≠ .busy := by simp [hidle]
  rw [step_of_pending hp, transact_of_not_busy (s := { s with pending := rest }) hnb, respond,
    regWrite_of_writeReg (s := { s with pending := rest }) hnf (writeReg_seed _ hv)]

/-- GENB with `NBITS` within BUFCAP completes (48_source_and_ber.md R220). -/
theorem exec_genb (d : BufNo) {s : State} (h : s.nbits.toNat ≤ Config.bufcap) :
    exec (.genb d) s = .next (complete (genbResult params d s)) := by
  refine exec_complete_of_checks ?_
  simp only [firstFailure_eq_none, ← Bool.not_eq_true, commandChecksWith, genbChecks, List.forall_mem_cons,
    checkBufcap_fails, not_lt]
  exact ⟨h, nofun⟩

/-- Settles O51: after the writes the two sources are in one state, and GENB draws from it. -/
theorem reseedingReproducesTheBits : Obligations.ReseedingReproducesTheBits := by
  intro s s' rest rest' v d e hv hidle hidle' hp hp' hnbits hfits
  refine ⟨_, _, _, _, step_writeSeed hv hidle hp, step_writeSeed hv hidle' hp', exec_genb d hfits,
    exec_genb e (s := answer .ok (writeSeed params { s' with pending := rest' } (BitVec.ofNat 64 v))) (hnbits ▸ hfits),
    rfl, rfl, ?_, ?_⟩
  · simp [hnbits]
  · simp [hnbits]

end Sys2Proof.Machine
end

section
/-! PROOF. The host's transactions: register reads and writes, buffer loads and reads, kernel reads, commands, RESET
(20_memory.md R66 to R75). -/

namespace Sys2Proof.Machine

variable {s : State} {rest : List Transaction}

/-! ### One transaction -/

theorem step_of_not_busy {tr : Transaction} (hnb : s.seqState ≠ .busy) (hp : s.pending = tr :: rest) :
    step s = respond params exec tr { s with pending := rest } := by
  rw [step_of_pending hp]
  exact transact_of_not_busy (s := { s with pending := rest }) hnb

theorem not_busy_of_idle (h : s.seqState = .idle) : s.seqState ≠ .busy := by simp [h]

theorem not_faulted_of_idle (h : s.seqState = .idle) : s.seqState ≠ .faulted := by simp [h]

theorem not_busy_of_faulted (h : s.seqState = .faulted) : s.seqState ≠ .busy := by simp [h]

/-! ### Register reads -/

/-- `STATUS` as a number: the fields of 10_state.md R36 at their weights. -/
theorem statusWord_eq (st : SeqState) (degen ambig : Bool) :
    statusWord st degen ambig = BitVec.ofNat 32 (stateNumber st + 4 * degen.toNat + 8 * ambig.toNat) := by
  cases st <;> cases degen <;> cases ambig <;> decide

theorem kindCode_eq (b : Buffer) : kindCode b = BitVec.ofNat 32 (kindNumber b) := by cases b <;> rfl

theorem bufLen_eq_elementCount (b : Buffer) : bufLen b = elementCount b := by cases b <;> rfl

/-- `KkVALID` as a number (10_state.md R27, R43). -/
theorem validWord_eq (valid : Bool) : (if valid then 1 else 0 : Word) = BitVec.ofNat 32 valid.toNat := by
  cases valid <;> rfl

/-- The descriptor registers a kernel store has (10_state.md R27, R43). -/
theorem kernelDescriptor_cases {st : KernelStore} {place : Nat} {v : RegValue}
    (h : kernelDescriptor st place = some v) :
    (place = 0 ∧ v = .u32 (BitVec.ofNat 32 st.valid.toNat)) ∨ (place = 1 ∧ v = .u32 (BitVec.ofNat 32 st.h.length)) ∨
    (place = 2 ∧ v = .u32 st.sps) ∨ (place = 3 ∧ v = .u32 st.span) ∨ (place = 4 ∧ v = .real st.beta) := by
  unfold kernelDescriptor at h
  split at h <;> cases h
  · exact .inl ⟨rfl, congrArg _ (validWord_eq st.valid)⟩
  · exact .inr (.inl ⟨rfl, rfl⟩)
  · exact .inr (.inr (.inl ⟨rfl, rfl⟩))
  · exact .inr (.inr (.inr (.inl ⟨rfl, rfl⟩)))
  · exact .inr (.inr (.inr (.inr ⟨rfl, rfl⟩)))

theorem readReg_status (s : State) : readReg params s 0x00 =
    some (.u32 (BitVec.ofNat 32 (stateNumber s.seqState + 4 * s.degen.toNat + 8 * s.ambig.toNat))) := by
  rw [← statusWord_eq]
  rfl

/-- `KkVALID` (10_state.md R27, R43). -/
theorem readReg_valid (s : State) :
    readReg params s 0x20 = some (.u32 (BitVec.ofNat 32 (kernel s 0).valid.toNat)) ∧
    readReg params s 0x28 = some (.u32 (BitVec.ofNat 32 (kernel s 1).valid.toNat)) := by
  rw [← validWord_eq, ← validWord_eq]
  exact ⟨rfl, rfl⟩

/-- Every row of the map is what REGRD of its number reads (10_state.md R27). -/
theorem readReg_of_mem_registerMap : ∀ row ∈ registerMap s, readReg params s row.1 = some row.2 := by
  obtain ⟨hvalid0, hvalid1⟩ := readReg_valid s
  rw [registerMap, List.forall_mem_append]
  constructor
  · simp only [List.forall_mem_cons]
    exact ⟨readReg_status s, rfl, rfl, rfl, rfl, rfl, rfl, rfl, rfl, rfl, rfl, rfl, rfl, rfl, rfl, rfl, rfl, rfl, rfl,
      hvalid0, rfl, rfl, rfl, rfl, hvalid1, rfl, rfl, rfl, rfl, nofun⟩
  · intro row hrow
    obtain ⟨n, -, hn⟩ := List.mem_flatMap.1 hrow
    rcases List.mem_pair.1 hn with rfl | rfl
    · rw [readReg_kind, kindCode_eq]
    · rw [readReg_length, bufLen_eq_elementCount]

/-- The rows of a kernel store in the map (10_state.md R27). -/
theorem kernelDescriptor_mem_registerMap {k : KerNo} {place m : Nat} {v : RegValue}
    (hm : m = 0x20 + 8 * k.val + place) (h : kernelDescriptor (kernel s k) place = some v) :
    (BitVec.ofNat 8 m, v) ∈ registerMap s := by
  subst hm
  refine List.mem_append_left _ ?_
  rcases kernelDescriptor_cases h with ⟨rfl, rfl⟩ | ⟨rfl, rfl⟩ | ⟨rfl, rfl⟩ | ⟨rfl, rfl⟩ | ⟨rfl, rfl⟩ <;>
    fin_cases k <;> simp

/-- The rows of a buffer in the map: its kind at an even place, its length at an odd one (10_state.md R27). -/
theorem bufferDescriptor_mem_registerMap {place m : Nat} (hm : m = 0x40 + place) (hplace : place < 0x20) :
    (BitVec.ofNat 8 m, bufferDescriptor s place) ∈ registerMap s := by
  refine List.mem_append_right _ (List.mem_flatMap.2 ⟨Fin.ofNat 16 (place / 2), List.mem_finRange _, ?_⟩)
  have hhalf : (Fin.ofNat 16 (place / 2)).val = place / 2 := Nat.mod_eq_of_lt (by omega)
  rw [hhalf, List.mem_pair]
  rcases Nat.mod_two_eq_zero_or_one place with heven | hodd
  · left
    rw [show 0x40 + 2 * (place / 2) = m by omega, ← kindCode_eq]
    simp [bufferDescriptor, heven]
  · right
    rw [show 0x41 + 2 * (place / 2) = m by omega, ← bufLen_eq_elementCount]
    simp [bufferDescriptor, hodd]

/-- What REGRD of a number reads is the row of that number (10_state.md R27). -/
theorem mem_registerMap_of_readReg {n : BitVec 8} {v : RegValue} (h : readReg params s n = some v) :
    (n, v) ∈ registerMap s := by
  obtain ⟨m, hm⟩ : ∃ m, n.toNat = m := ⟨_, rfl⟩
  obtain rfl : n = BitVec.ofNat 8 m := by simp [← hm]
  unfold readReg at h
  rw [hm] at h
  split at h
  case h_20 =>
    split_ifs at h with hkernel0 hkernel1 hbuf
    · exact kernelDescriptor_mem_registerMap (show m = 0x20 + 8 * 0 + (m - 0x20) by omega) h
    · exact kernelDescriptor_mem_registerMap (show m = 0x20 + 8 * 1 + (m - 0x28) by omega) h
    · cases h
      exact bufferDescriptor_mem_registerMap (by omega) (by omega)
  all_goals
    cases h
    simp [registerMap, statusWord_eq]

theorem mem_registerMap_iff {n : BitVec 8} {v : RegValue} :
    (n, v) ∈ registerMap s ↔ readReg params s n = some v :=
  ⟨fun h => readReg_of_mem_registerMap (n, v) h, mem_registerMap_of_readReg⟩

/-- REGRD of a register of the map (20_memory.md R67). -/
theorem regRead_of_readReg {n : BitVec 8} {v : RegValue} (h : readReg params s n = some v) :
    regRead params n s = answer (.value v) s := by simp [regRead, h]

/-- REGRD of a reserved number (20_memory.md R67). -/
theorem regRead_of_reserved {n : BitVec 8} (h : readReg params s n = none) :
    regRead params n s = answer .refused s := by simp [regRead, h]

/-- The word REGRD of `STATUS` answers, field by field (10_state.md R36). -/
theorem exists_status_fields (s : State) : ∃ w : Word, readReg params s 0x00 = some (.u32 w) ∧
    (s.seqState = .idle → w.extractLsb' 0 2 = 0) ∧ (s.seqState = .faulted → w.extractLsb' 0 2 = 2) ∧
    w.getLsbD 2 = s.degen ∧ w.getLsbD 3 = s.ambig ∧ w.extractLsb' 4 28 = 0 := by
  obtain ⟨hstate, hdegen, hambig, hzero⟩ := statusWord_fields s.seqState s.degen s.ambig
  exact ⟨_, rfl, fun h => by rw [hstate, h, stateCode], fun h => by rw [hstate, h, stateCode], hdegen, hambig, hzero⟩

/-- Settles O46: the map holds exactly what `readReg` reads, and the fields of `STATUS` are those of its word. -/
theorem registerReadAnswersTheMap : Obligations.RegisterReadAnswersTheMap := by
  intro s n rest hp hnb
  have hstep : step s = .next (regRead params n { s with pending := rest }) := step_of_not_busy hnb hp
  refine ⟨fun v hrow => ?_, fun hreserved => ?_, ?_⟩
  · have hread : readReg params { s with pending := rest } n = some v := mem_registerMap_iff.1 hrow
    exact hstep.trans (congrArg _ (regRead_of_readReg hread))
  · have hnone : readReg params { s with pending := rest } n = none :=
      Option.eq_none_iff_forall_ne_some.2 fun v hv => hreserved v (mem_registerMap_iff.2 hv)
    exact hstep.trans (congrArg _ (regRead_of_reserved hnone))
  · rintro rfl
    obtain ⟨w, hread, hfields⟩ := exists_status_fields { s with pending := rest }
    exact ⟨w, hstep.trans (congrArg _ (regRead_of_readReg hread)), hfields⟩

/-! ### Register writes -/

/-- The integers a register of `bits` bits takes (20_memory.md R68). -/
theorem hostWord_of_lt {bits m : Nat} (h : m < 2 ^ bits) :
    hostWord (R := Scalar) bits (.int m) = some (BitVec.ofNat bits m) := if_pos ⟨Int.natCast_nonneg m, h⟩

/-- Any other value is not of the type (20_memory.md R68). -/
theorem hostWord_eq_none {bits : Nat} {v : HostValue} (h : ∀ m : Nat, m < 2 ^ bits → v ≠ .int m) :
    hostWord bits v = none := by
  cases v with
  | real x => rfl
  | int z =>
    refine if_neg fun ⟨hnonneg, hlt⟩ => h z.toNat hlt ?_
    rw [Int.toNat_of_nonneg hnonneg]

/-- The reals a real register takes (20_memory.md R68). -/
theorem hostReal_of_finite {x : Scalar} (h : isFinite x = true) : hostReal params (.real x) = some x := if_pos h

theorem hostReal_eq_none {v : HostValue} (h : ∀ x : Scalar, isFinite x = true → v ≠ .real x) :
    hostReal params v = none := by
  cases v with
  | int z => rfl
  | real x => exact if_neg fun hx => h x hx rfl

/-! What each RW register takes and the field it goes into (10_state.md R27; 20_memory.md R68); `writeReg_seed` is
the rule of `SEED`. -/

section

variable (s : State) {m : Nat} {x : Scalar}

theorem writeReg_sps (h : m < 2 ^ 32) :
    writeReg params s 0x08 (.int m) = some { s with sps := BitVec.ofNat 32 m } :=
  congrArg (Option.map _) (hostWord_of_lt h)

theorem writeReg_span (h : m < 2 ^ 32) :
    writeReg params s 0x09 (.int m) = some { s with span := BitVec.ofNat 32 m } :=
  congrArg (Option.map _) (hostWord_of_lt h)

theorem writeReg_nbits (h : m < 2 ^ 32) :
    writeReg params s 0x0A (.int m) = some { s with nbits := BitVec.ofNat 32 m } :=
  congrArg (Option.map _) (hostWord_of_lt h)

theorem writeReg_beta (h : isFinite x = true) : writeReg params s 0x0C (.real x) = some { s with beta := x } :=
  congrArg (Option.map _) (hostReal_of_finite h)

theorem writeReg_fc (h : isFinite x = true) : writeReg params s 0x0D (.real x) = some { s with fc := x } :=
  congrArg (Option.map _) (hostReal_of_finite h)

theorem writeReg_snrDb (h : isFinite x = true) : writeReg params s 0x0E (.real x) = some { s with snrDb := x } :=
  congrArg (Option.map _) (hostReal_of_finite h)

end

/-- A read-only or reserved number takes no value (20_memory.md R68). -/
theorem writeReg_of_not_rw (s : State) {n : BitVec 8} (v : HostValue)
    (h : n ≠ 0x08 ∧ n ≠ 0x09 ∧ n ≠ 0x0A ∧ n ≠ 0x0B ∧ n ≠ 0x0C ∧ n ≠ 0x0D ∧ n ≠ 0x0E) :
    writeReg params s n v = none := by
  simp only [ne_eq, ← BitVec.toNat_inj] at h
  unfold writeReg
  split <;> simp_all

/-- A value that is not of the type of `SPS`, `SPAN` or `NBITS` (20_memory.md R68). -/
theorem writeReg_of_not_word (s : State) {n : BitVec 8} {v : HostValue} (hn : n = 0x08 ∨ n = 0x09 ∨ n = 0x0A)
    (h : ∀ m : Nat, m < 2 ^ 32 → v ≠ .int m) : writeReg params s n v = none := by
  rcases hn with rfl | rfl | rfl <;> exact congrArg (Option.map _) (hostWord_eq_none h)

/-- A value that is not of the type of `SEED` (20_memory.md R68). -/
theorem writeReg_of_not_dword (s : State) {n : BitVec 8} {v : HostValue} (hn : n = 0x0B)
    (h : ∀ m : Nat, m < 2 ^ 64 → v ≠ .int m) : writeReg params s n v = none := by
  subst hn
  exact congrArg (Option.map _) (hostWord_eq_none h)

/-- A value that is not of the type of `BETA`, `FC` or `SNR_DB` (20_memory.md R68). -/
theorem writeReg_of_not_real (s : State) {n : BitVec 8} {v : HostValue} (hn : n = 0x0C ∨ n = 0x0D ∨ n = 0x0E)
    (h : ∀ x : Scalar, isFinite x = true → v ≠ .real x) : writeReg params s n v = none := by
  rcases hn with rfl | rfl | rfl <;> exact congrArg (Option.map _) (hostReal_eq_none h)

theorem regWrite_of_writeReg_none {n : BitVec 8} {v : HostValue} (hnf : s.seqState ≠ .faulted)
    (h : writeReg params s n v = none) : regWrite params n v s = answer .refused s := by simp [regWrite, hnf, h]

/-- A write of `ERR` in FAULTED is ERRCLR (20_memory.md R68; 60_exceptions.md R251). -/
theorem regWrite_err_of_faulted (hf : s.seqState = .faulted) (v : HostValue) :
    regWrite params errNumber v s = errClr s := by simp [regWrite, hf]

/-- Any other write in FAULTED (20_memory.md R68; 60_exceptions.md R250). -/
theorem regWrite_of_faulted {n : BitVec 8} (hf : s.seqState = .faulted) (hn : n ≠ errNumber) (v : HostValue) :
    regWrite params n v s = answer .refused s := by simp [regWrite, hf, hn]

theorem step_regwr {n : BitVec 8} {v : HostValue} (hnb : s.seqState ≠ .busy) (hp : s.pending = .regwr n v :: rest) :
    step s = .next (regWrite params n v { s with pending := rest }) := step_of_not_busy hnb hp

/-- A register write in IDLE that is taken (20_memory.md R68). -/
theorem step_regwr_taken {n : BitVec 8} {v : HostValue} {u : State} (hidle : s.seqState = .idle)
    (hp : s.pending = .regwr n v :: rest) (hw : writeReg params { s with pending := rest } n v = some u) :
    step s = .next (answer .ok u) := by
  rw [step_regwr (not_busy_of_idle hidle) hp,
    regWrite_of_writeReg (s := { s with pending := rest }) (not_faulted_of_idle hidle) hw]

/-- A register write in IDLE that is not taken (20_memory.md R68). -/
theorem step_regwr_refused {n : BitVec 8} {v : HostValue} (hidle : s.seqState = .idle)
    (hp : s.pending = .regwr n v :: rest) (hw : writeReg params { s with pending := rest } n v = none) :
    step s = .next (answer .refused { s with pending := rest }) := by
  rw [step_regwr (not_busy_of_idle hidle) hp,
    regWrite_of_writeReg_none (s := { s with pending := rest }) (not_faulted_of_idle hidle) hw]

/-- Settles O47: in IDLE register by register, then the ways a number or value is not taken; then FAULTED. -/
theorem registerWriteChecksTypeAndAccess : Obligations.RegisterWriteChecksTypeAndAccess := by
  intro s n v rest hp
  refine ⟨fun hidle => ⟨?words, ?seed, ?reals, ?refused⟩, fun hf => ⟨?errclr, ?faulted⟩⟩
  case words =>
    rintro m hm rfl
    refine ⟨?_, ?_, ?_⟩ <;> rintro rfl
    · exact step_regwr_taken hidle hp (writeReg_sps _ hm)
    · exact step_regwr_taken hidle hp (writeReg_span _ hm)
    · exact step_regwr_taken hidle hp (writeReg_nbits _ hm)
  case seed =>
    rintro m hm rfl rfl
    exact step_writeSeed hm hidle hp
  case reals =>
    rintro x hx rfl
    refine ⟨?_, ?_, ?_⟩ <;> rintro rfl
    · exact step_regwr_taken hidle hp (writeReg_beta _ hx)
    · exact step_regwr_taken hidle hp (writeReg_fc _ hx)
    · exact step_regwr_taken hidle hp (writeReg_snrDb _ hx)
  case refused =>
    rintro (hn | ⟨hn, hv⟩ | ⟨hn, hv⟩ | ⟨hn, hv⟩)
    · exact step_regwr_refused hidle hp (writeReg_of_not_rw _ v hn)
    · exact step_regwr_refused hidle hp (writeReg_of_not_word _ hn hv)
    · exact step_regwr_refused hidle hp (writeReg_of_not_dword _ hn hv)
    · exact step_regwr_refused hidle hp (writeReg_of_not_real _ hn hv)
  case errclr =>
    rintro rfl
    rw [step_regwr (not_busy_of_faulted hf) hp]
    exact congrArg _ (regWrite_err_of_faulted (s := { s with pending := rest }) hf v)
  case faulted =>
    intro hn
    rw [step_regwr (not_busy_of_faulted hf) hp]
    exact congrArg _ (regWrite_of_faulted (s := { s with pending := rest }) hf hn v)

/-! ### Buffer loads -/

/-- A load of bits that is taken gives the bits themselves (20_memory.md R70). -/
theorem loadedBuffer_bits {bits : List Bool} (h : bits.length ≤ Config.bufcap) :
    loadedBuffer params (.bits (bits.map (fun b => if b then 1 else 0))) = some (.bits bits) := by
  have hvalues : (bits.map (fun b => if b then (1 : Int) else 0)).all isBitValue = true := by
    simp only [List.all_map, List.all_eq_true]
    intro b _
    cases b <;> rfl
  have hback : (bits.map (fun b => if b then (1 : Int) else 0)).map (fun v => v == 1) = bits := by
    rw [List.map_map]
    exact List.map_id'' (fun b => by cases b <;> rfl) bits
  simp only [loadedBuffer, hvalues, hback, List.length_map, params_bufcap, decide_eq_true h, Bool.and_self, if_true]

/-- A load of bits with another element, or a longer one (20_memory.md R70). -/
theorem loadedBuffer_bits_eq_none {xs : List Int} (h : (∃ v ∈ xs, v ≠ 0 ∧ v ≠ 1) ∨ Config.bufcap < xs.length) :
    loadedBuffer params (.bits xs) = none := by
  refine if_neg fun hok => ?_
  simp only [Bool.and_eq_true, List.all_eq_true, decide_eq_true_eq, isBitValue, Bool.or_eq_true, beq_iff_eq] at hok
  obtain ⟨hvalues, hfits⟩ := hok
  rcases h with ⟨v, hv, h0, h1⟩ | hlong
  · exact (hvalues v hv).elim h0 h1
  · exact absurd hfits hlong.not_ge

/-- A load of pairs of finite reals that fits (20_memory.md R71). -/
theorem loadedBuffer_samples {xs : List Sample} (hfinite : ∀ z ∈ xs, isFinite z.re = true ∧ isFinite z.im = true)
    (hfits : xs.length ≤ Config.bufcap) : loadedBuffer params (.samples xs) = some (.samples xs) := by
  refine if_pos ?_
  simp only [Bool.and_eq_true, List.all_eq_true, decide_eq_true_eq, isFiniteSample]
  exact ⟨hfinite, hfits⟩

/-- A load of samples with a value that is not finite, or a longer one (20_memory.md R71). -/
theorem loadedBuffer_samples_eq_none {xs : List Sample}
    (h : (∃ z ∈ xs, isFinite z.re = false ∨ isFinite z.im = false) ∨ Config.bufcap < xs.length) :
    loadedBuffer params (.samples xs) = none := by
  refine if_neg fun hok => ?_
  simp only [Bool.and_eq_true, List.all_eq_true, decide_eq_true_eq, isFiniteSample] at hok
  obtain ⟨hfinite, hfits⟩ := hok
  rcases h with ⟨z, hz, hbad⟩ | hlong
  · obtain ⟨hre, him⟩ := hfinite z hz
    exact hbad.elim (ne_false_of_eq_true hre) (ne_false_of_eq_true him)
  · exact absurd hfits hlong.not_ge

/-- A load in IDLE that is taken (20_memory.md R70, R71). -/
theorem step_bufld_taken {n : BufNo} {data : LoadData} {b : Buffer} (hidle : s.seqState = .idle)
    (hp : s.pending = .bufld n data :: rest) (h : loadedBuffer params data = some b) :
    step s = .next (answer .ok (setBuf { s with pending := rest } n b)) := by
  rw [step_of_not_busy (not_busy_of_idle hidle) hp]
  simp [respond, bufLoad, hidle, h]

/-- A load in IDLE that is not taken (20_memory.md R70, R71). -/
theorem step_bufld_refused {n : BufNo} {data : LoadData} (hidle : s.seqState = .idle)
    (hp : s.pending = .bufld n data :: rest) (h : loadedBuffer params data = none) :
    step s = .next (answer .refused { s with pending := rest }) := by
  rw [step_of_not_busy (not_busy_of_idle hidle) hp]
  simp [respond, bufLoad, hidle, h]

/-- Settles O48: a load is taken exactly where `loadedBuffer` gives a buffer. -/
theorem bufferLoadTakesOnlyWellTypedData : Obligations.BufferLoadTakesOnlyWellTypedData := by
  intro s n rest hidle
  refine ⟨fun bits hp hfits => ?_, fun xs hp hbad => ?_, fun xs hp hfinite hfits => ?_, fun xs hp hbad => ?_⟩
  · exact step_bufld_taken hidle hp (loadedBuffer_bits hfits)
  · exact step_bufld_refused hidle hp (loadedBuffer_bits_eq_none hbad)
  · exact step_bufld_taken hidle hp (loadedBuffer_samples hfinite hfits)
  · exact step_bufld_refused hidle hp (loadedBuffer_samples_eq_none hbad)

/-! ### Commands, reads of buffers and kernel stores, RESET -/

/-- A word that decodes, offered outside FAULTED, runs its command (60_exceptions.md R244). -/
theorem command_of_decode {w : Word} {i : Instr} (hnf : s.seqState ≠ .faulted) (hd : decode w = .ok i) :
    command exec w s = exec i s := by simp [command, hnf, hd]

/-- Settles O6: IDLE is neither BUSY nor FAULTED, so the word is decoded and its command runs. -/
theorem stepRunsTheDecodedCommand : Obligations.StepRunsTheDecodedCommand := by
  intro s w rest i hp hidle hd
  rw [step_of_not_busy (not_busy_of_idle hidle) hp]
  exact command_of_decode (s := { s with pending := rest }) (not_faulted_of_idle hidle) hd

/-- Settles O49: both reads are an answer and nothing else. -/
theorem bufferAndKernelReadsDoNotConsume : Obligations.BufferAndKernelReadsDoNotConsume := by
  intro s rest hnb
  exact ⟨fun n hp => step_of_not_busy hnb hp, fun k hp => step_of_not_busy hnb hp⟩

/-- Settles O50: RESET is taken in every state of the sequencer, BUSY included. -/
theorem resetTransactionGivesTheResetState : Obligations.ResetTransactionGivesTheResetState := by
  intro s rest hp
  rw [step_of_pending hp, transact_reset, resetCore_params]

end Sys2Proof.Machine
end

section
/-! PROOF. The decoder and the encoder (30_encoding.md R91 to R106): what each row of the opcode map admits, that the
two are inverse to each other, and the illegal words of a CMD transaction. -/

namespace Sys2Proof

variable {w : Word}

/-! ### Fields -/

@[simp] theorem lineCodeOfField_field (code : LineCode) : lineCodeOfField code.field = code := by
  cases code <;> rfl

@[simp] theorem field_lineCodeOfField (f : BitVec 2) : (lineCodeOfField f).field = f := by
  revert f; decide

@[simp] theorem toFin_bufNo_field (n : BufNo) : (BufNo.field n).toFin = n := rfl

@[simp] theorem bufNo_field_toFin (x : BitVec 4) : BufNo.field x.toFin = x := rfl

@[simp] theorem toFin_kerNo_field (k : KerNo) : (KerNo.field k).toFin = k := rfl

@[simp] theorem kerNo_field_toFin (x : BitVec 1) : KerNo.field x.toFin = x := rfl

/-! ### Decoding what the encoder writes -/

/-- Settles O1: the encoder joins the fields of a command, and the decoder reads each of them back. -/
theorem decodeReadsEveryEncodedCommand : Obligations.DecodeReadsEveryEncodedCommand := by
  intro i
  cases i <;> simp [encode, assemble_eq, decode_joinFields]

/-! ### The rows of the opcode map -/

/-- The row of an opcode is the one of the table that has it. -/
theorem mem_opcodeTable_of_rowOf {opc : BitVec 4} {r : OpRow} (h : rowOf opc = some r) :
    r ∈ opcodeTable ∧ r.opc = opc :=
  ⟨List.mem_of_find?_eq_some h, by simpa using List.find?_some h⟩

/-- No two rows have the same opcode: looking a row's opcode up gives the row (30_encoding.md R94). -/
theorem rowOf_opc {r : OpRow} (hr : r ∈ opcodeTable) : rowOf r.opc = some r := by
  fin_cases hr <;> rfl

/-- The opcode map of R94 and the format table of R92 leave out the same opcodes (30_encoding.md R95). -/
theorem rowOf_isSome (opc : BitVec 4) : (rowOf opc).isSome = (formatOf opc.toNat).isSome := by
  revert opc; decide

/-- The match and mask of a row: the row's opcode, and 0 in the bits its format leaves unused (30_encoding.md R92 to
R94). -/
theorem admits_iff {r : OpRow} (hr : r ∈ opcodeTable) {f : Format} (hf : formatOf r.opc.toNat = some f) :
    r.admits w = true ↔ opcField w = r.opc ∧ mustBeZeroHolds f w = true := by
  obtain ⟨opc, d, a, b, code, k, low, rfl⟩ := exists_joinFields w
  fin_cases hr <;> cases hf <;>
    simp [OpRow.admits, joinFields_admits, mustBeZeroHolds, Format.usesD, Format.usesA, Format.usesB,
      Format.usesCode, Format.usesK, and_ones4, and_ones2, and_ones1, and_ones13, and_comm, and_left_comm]

/-- Every row's mask keeps the opcode (30_encoding.md R94). -/
theorem opcField_of_admits {r : OpRow} (hr : r ∈ opcodeTable) (ha : r.admits w = true) : opcField w = r.opc := by
  obtain ⟨f, hf⟩ : ∃ f, formatOf r.opc.toNat = some f := by
    simpa [rowOf_opc hr, Option.isSome_iff_exists] using (rowOf_isSome r.opc).symm
  exact ((admits_iff hr hf).1 ha).1

/-- Encoding the command a row builds from a word the row admits gives the word back: the fields the command does not
carry are 0 (30_encoding.md R91, R93). -/
theorem encode_build {r : OpRow} (hr : r ∈ opcodeTable) : r.admits w = true → encode (r.build w) = w := by
  obtain ⟨opc, d, a, b, code, k, low, rfl⟩ := exists_joinFields w
  fin_cases hr <;>
    simp +contextual [OpRow.admits, joinFields_admits, and_ones4, and_ones2, and_ones1, and_ones13, encode,
      assemble_eq]

/-! ### What the decoder does, by the format table -/

theorem wellFormedWord_of_reserved (h : formatOf (opcField w).toNat = none) : wellFormedWord w = false := by
  rw [wellFormedWord, ← opcField, h]

theorem wellFormedWord_of_format {f : Format} (h : formatOf (opcField w).toNat = some f) :
    wellFormedWord w = mustBeZeroHolds f w := by
  rw [wellFormedWord, ← opcField, h]

theorem decode_of_reserved (h : formatOf (opcField w).toNat = none) : decode w = .error .opcode := by
  have hrow : rowOf (opcField w) = none := by
    simpa [h] using rowOf_isSome (opcField w)
  simp [decode, hrow]

/-- A word with a format is decided by one row of the opcode map, and that row admits it exactly when its
must-be-zero bits are 0. -/
theorem decode_of_format {f : Format} (h : formatOf (opcField w).toNat = some f) :
    ∃ r ∈ opcodeTable, r.admits w = mustBeZeroHolds f w ∧
      decode w = if mustBeZeroHolds f w then .ok (r.build w) else .error .field := by
  obtain ⟨r, hrow⟩ : ∃ r, rowOf (opcField w) = some r := by
    simpa [h, Option.isSome_iff_exists] using rowOf_isSome (opcField w)
  obtain ⟨hr, hopc⟩ := mem_opcodeTable_of_rowOf hrow
  have hadmits : r.admits w = mustBeZeroHolds f w := by
    rw [Bool.eq_iff_iff, admits_iff hr (hopc ▸ h)]
    exact and_iff_right hopc.symm
  exact ⟨r, hr, hadmits, by simp [decode, hrow, hadmits]⟩

theorem decode_of_mustBeZero {f : Format} (h : formatOf (opcField w).toNat = some f)
    (hz : mustBeZeroHolds f w = false) : decode w = .error .field := by
  obtain ⟨r, -, -, hd⟩ := decode_of_format h
  simpa [hz] using hd

/-- Settles O3: the word's format, and with one its must-be-zero bits, decide both sides. -/
theorem decoderAcceptsExactlyWellFormedWords : Obligations.DecoderAcceptsExactlyWellFormedWords := by
  intro w
  cases h : formatOf (opcField w).toNat with
  | none => simp [decode_of_reserved h, wellFormedWord_of_reserved h]
  | some f =>
    obtain ⟨r, -, -, hd⟩ := decode_of_format h
    rw [hd, wellFormedWord_of_format h]
    cases mustBeZeroHolds f w <;> simp

/-- Settles O2: the command is the one a row built, and `encode_build` restores the word. -/
theorem encodeRestoresEveryDecodedWord : Obligations.EncodeRestoresEveryDecodedWord := by
  intro w i hd
  cases h : formatOf (opcField w).toNat with
  | none => cases (decode_of_reserved h).symm.trans hd
  | some f =>
    obtain ⟨r, hr, hadmits, hd'⟩ := decode_of_format h
    rw [← hadmits, hd] at hd'
    split at hd'
    · next ha => cases hd'; exact encode_build hr ha
    · cases hd'

/-- Settles O4: both rows have the word's opcode, and an opcode has one row. -/
theorem noWordMatchesTwoRows : Obligations.NoWordMatchesTwoRows := by
  intro w r r' hr hr' ha ha'
  have hopc : r.opc = r'.opc := (opcField_of_admits hr ha).symm.trans (opcField_of_admits hr' ha')
  have hrow : some r = some r' := by rw [← rowOf_opc hr, ← rowOf_opc hr', hopc]
  rw [Option.some.inj hrow]

/-- Settles O5: the decoder evaluated on each word of R106. -/
theorem workedEncodingsDecode : Obligations.WorkedEncodingsDecode := by
  unfold Obligations.WorkedEncodingsDecode
  decide

end Sys2Proof

namespace Sys2Proof.Machine

variable {s : State} {rest : List Transaction} {w : Word}

/-! ### Illegal words -/

/-- The opcodes with no format (30_encoding.md R95). -/
theorem formatOf_eq_none {n : Nat} (h : n = 0 ∨ 0xB ≤ n) : formatOf n = none := by
  unfold formatOf
  split <;> simp at h ⊢

/-- A word that does not decode, offered in IDLE, takes the fault of its reason and its own word goes to `ERRCMD`
(60_exceptions.md R244, R246). -/
theorem step_cmd_illegal {e : DecodeError} (hidle : s.seqState = .idle) (hp : s.pending = .cmd w :: rest)
    (hd : decode w = .error e) : step s = .next (raise (illegalSub e) w { s with pending := rest }) := by
  rw [step_of_not_busy (not_busy_of_idle hidle) hp]
  simp [respond, command, hidle, hd]

/-- Settles O7: a reserved opcode has no format. -/
theorem reservedOpcodeTakesIllegalCommand : Obligations.ReservedOpcodeTakesIllegalCommand := by
  refine ⟨fun s w rest hp hidle hopc => ?_, by decide, by decide⟩
  exact step_cmd_illegal hidle hp (decode_of_reserved (formatOf_eq_none hopc))

/-- Settles O8: the row of the format turns the word down. -/
theorem mustBeZeroBitTakesIllegalCommand : Obligations.MustBeZeroBitTakesIllegalCommand := by
  intro s w rest f hp hidle hf hz
  exact step_cmd_illegal hidle hp (decode_of_mustBeZero hf hz)

end Sys2Proof.Machine
end

section
/-! PROOF. KGEN, the filter design (40_filter_design.md): its five checks in order (R121), the taps it stores (R122 to
R125), and the kernel it builds over the exact reals (R126). -/

namespace Sys2Proof.Machine

/-! ### The first failing check -/

theorem firstFailure_of_fails {c : Bool × SubCause} (h : c.1 = true) (rest : List (Bool × SubCause)) :
    firstFailure (c :: rest) = some c.2 := if_pos h

theorem firstFailure_of_passes {c : Bool × SubCause} (h : ¬ c.1 = true) (rest : List (Bool × SubCause)) :
    firstFailure (c :: rest) = firstFailure rest := if_neg h

/-! ### The checks of KGEN -/

section Checks

variable {s : State}

/-- Past the checks of SPS and SPAN, KGEN looks at BETA, the parity and the length (40_filter_design.md R121). -/
theorem firstFailure_kgenChecks_of_sps_span (hsps : s.sps ≠ 0) (hspan : s.span ≠ 0) :
    firstFailure (kgenChecks params s) =
      firstFailure [checkBeta params s, checkParity s, checkKcap params (kernelLength (spsOf s) (spanOf s))] := by
  rw [kgenChecks, firstFailure_of_passes (mt (checkSps_fails s).1 hsps),
    firstFailure_of_passes (mt (checkSpan_fails s).1 hspan)]

/-- With its three parameters in range, KGEN looks at the parity and the length (40_filter_design.md R121). -/
theorem firstFailure_kgenChecks_of_inRange (hsps : s.sps ≠ 0) (hspan : s.span ≠ 0) (hbeta : betaInRange s) :
    firstFailure (kgenChecks params s) =
      firstFailure [checkParity s, checkKcap params (kernelLength (spsOf s) (spanOf s))] := by
  rw [firstFailure_kgenChecks_of_sps_span hsps hspan,
    firstFailure_of_passes (mt (checkBeta_fails s).1 (not_not_intro hbeta))]

/-- With an even `SPAN * SPS` too, KGEN looks at the length alone (40_filter_design.md R121). -/
theorem firstFailure_kgenChecks_of_even (hsps : s.sps ≠ 0) (hspan : s.span ≠ 0) (hbeta : betaInRange s)
    (heven : s.span.toNat * s.sps.toNat % 2 = 0) :
    firstFailure (kgenChecks params s) = firstFailure [checkKcap params (kernelLength (spsOf s) (spanOf s))] := by
  have hpass : ¬ (checkParity s).1 = true := by rw [checkParity_fails, heven]; exact zero_ne_one
  rw [firstFailure_kgenChecks_of_inRange hsps hspan hbeta, firstFailure_of_passes hpass]

end Checks

/-- Settles O13: each check is the first to fail once those before it pass. -/
theorem kgenFaultsInOrder : Obligations.KgenFaultsInOrder := by
  intro k s
  refine ⟨fun hsps => ?_, fun hsps hspan => ?_, fun hsps hspan hbeta => ?_, fun hsps hspan hbeta hodd => ?_,
    fun hsps hspan hbeta heven hlong => ?_⟩
  · exact faults_of_firstFailure (sub := .paramSps) (firstFailure_of_fails ((checkSps_fails s).2 hsps) _)
  · exact faults_of_firstFailure (sub := .paramSpan) ((firstFailure_of_passes (mt (checkSps_fails s).1 hsps) _).trans
      (firstFailure_of_fails ((checkSpan_fails s).2 hspan) _))
  · exact faults_of_firstFailure (sub := .paramBeta) ((firstFailure_kgenChecks_of_sps_span hsps hspan).trans
      (firstFailure_of_fails ((checkBeta_fails s).2 hbeta) _))
  · exact faults_of_firstFailure (sub := .paramParity) ((firstFailure_kgenChecks_of_inRange hsps hspan hbeta).trans
      (firstFailure_of_fails ((checkParity_fails s).2 hodd) _))
  · exact faults_of_firstFailure (sub := .capacity) ((firstFailure_kgenChecks_of_even hsps hspan hbeta heven).trans
      (firstFailure_of_fails ((checkKcap_fails _).2 hlong) _))

/-! ### What KGEN stores -/

section Stores

variable {R S : Type}

/-- The state KGEN leaves, over any open parameters (40_filter_design.md R125; 60_exceptions.md R244). -/
theorem complete_commandResultWith_kgen (P : Params R S) (k : KerNo) (s : State R S) :
    complete (commandResultWith P (.kgen k) s) = { s with
      kernels := s.kernels.set k { valid := true, sps := s.sps, span := s.span, beta := s.beta,
                                   h := kernelTaps P.num s.sps.toNat s.span.toNat s.beta },
      seq := s.seq + 1, seqState := .idle, response := some (.command .ok) } := rfl

/-- Each tap is divided by the root of the sum of squares, taken in ascending order (40_filter_design.md R124). -/
theorem normalise_eq_map (N : NumSystem R) (g : List R) :
    normalise N g = g.map (fun x => N.div x (N.sqrt (g.foldl (fun acc y => N.add acc (N.mul y y)) N.zero))) := rfl

end Stores

/-- KGEN with parameters it takes completes (40_filter_design.md R121). -/
theorem exec_kgen (k : KerNo) {s : State} (hsps : s.sps ≠ 0) (hspan : s.span ≠ 0) (hbeta : betaInRange s)
    (heven : s.span.toNat * s.sps.toNat % 2 = 0) (hfits : s.span.toNat * s.sps.toNat + 1 ≤ Config.kcap) :
    exec (.kgen k) s = .next (complete (commandResultWith params (.kgen k) s)) :=
  exec_complete_of_checks ((firstFailure_kgenChecks_of_even hsps hspan hbeta heven).trans
    (firstFailure_of_passes (mt (checkKcap_fails _).1 hfits.not_gt) _))

/-- Settles O20: the stored coefficients are the raw taps, normalised. -/
theorem kgenStoresTheNormalisedTaps : Obligations.KgenStoresTheNormalisedTaps := by
  intro k s hsps hspan hbeta heven hfits
  refine ⟨rawTaps num s.sps.toNat s.span.toNat s.beta, kernelTaps num s.sps.toNat s.span.toNat s.beta, ?_,
    rawTaps_length num _ _ _, fun i hi => ?_, normalise_eq_map num _⟩
  · rw [exec_kgen k hsps hspan hbeta heven hfits, complete_commandResultWith_kgen, params_num]
  · rw [rawTaps_getElem? num _ _ _ hi, rawTap_eq]

/-! ### The formulas over the exact reals -/

theorem sumOf_realNum {A : Type} (f : A → ℝ) (xs : List A) : sumOf realNum f xs = (xs.map f).sum := by
  rw [List.sum_eq_foldl, List.foldl_map]
  rfl

theorem energy_realNum (g : List ℝ) : energy realNum g = (g.map (fun x => x ^ 2)).sum := by
  simp only [sq]
  exact sumOf_realNum _ g

theorem centreTap_realNum (beta : ℝ) : centreTap realNum beta = 1 - beta + 4 * beta / Real.pi := by
  simp [centreTap, realNum]

theorem tapTime_realNum (sps c i : Nat) : tapTime realNum sps c i = ((i : ℝ) - c) / sps := rfl

theorem generalTap_realNum (beta t : ℝ) : generalTap realNum beta t =
    (Real.sin (Real.pi * t * (1 - beta)) + 4 * beta * t * Real.cos (Real.pi * t * (1 + beta))) /
      (Real.pi * t * (1 - (4 * beta * t) ^ 2)) := by
  simp [generalTap, numSquare, realNum, sq]

/-! ### Energy -/

/-- `1 - beta + 4*beta/pi` is above 1, as `pi < 4` (40_filter_design.md R123). -/
theorem one_lt_centreTap {beta : ℝ} (hbeta : 0 < beta) : 1 < centreTap realNum beta := by
  have hterm : beta < 4 * beta / Real.pi := by
    rw [lt_div_iff₀ Real.pi_pos, mul_comm]
    exact mul_lt_mul_of_pos_right Real.pi_lt_four hbeta
  rw [centreTap_realNum]
  linarith

theorem rawTap_centreIndex {R : Type} (N : NumSystem R) (sps span : Nat) (beta : R) :
    rawTap N sps span beta (centreIndex sps span) = centreTap N beta := if_pos rfl

theorem centreTap_mem_rawTaps {R : Type} (N : NumSystem R) (sps span : Nat) (beta : R) :
    centreTap N beta ∈ rawTaps N sps span beta :=
  List.mem_map.2 ⟨centreIndex sps span, List.mem_range.2 (Nat.lt_succ_of_le (Nat.div_le_self _ _)),
    rawTap_centreIndex N sps span beta⟩

theorem sq_le_energy {x : ℝ} {g : List ℝ} (hx : x ∈ g) : x ^ 2 ≤ energy realNum g := by
  rw [energy_realNum]
  refine List.single_le_sum ?_ _ (List.mem_map_of_mem hx)
  rw [List.forall_mem_map]
  exact fun y _ => sq_nonneg y

/-- The square of the centre tap alone is above 1 (40_filter_design.md R124). -/
theorem one_lt_energy_rawTaps (sps span : Nat) {beta : ℝ} (hbeta : 0 < beta) :
    1 < energy realNum (rawTaps realNum sps span beta) :=
  have hsq : 1 < centreTap realNum beta ^ 2 := one_lt_pow₀ (one_lt_centreTap hbeta) two_ne_zero
  hsq.trans_le (sq_le_energy (centreTap_mem_rawTaps realNum sps span beta))

/-- Division by the norm gives unit energy wherever the norm is not 0 (40_filter_design.md R126 (b)). -/
theorem energy_normalise {g : List ℝ} (hpos : 0 < energy realNum g) : energy realNum (normalise realNum g) = 1 := by
  have hsq (x : ℝ) : (x / √(energy realNum g)) ^ 2 = x ^ 2 * (energy realNum g)⁻¹ := by
    rw [div_pow, Real.sq_sqrt hpos.le, div_eq_mul_inv]
  calc energy realNum (normalise realNum g)
      = (g.map (fun x => (x / √(energy realNum g)) ^ 2)).sum := by
        rw [energy_realNum, normalise, List.map_map]
        rfl
    _ = (g.map (fun x => x ^ 2)).sum * (energy realNum g)⁻¹ := by simp only [hsq, List.sum_map_mul_right]
    _ = 1 := by rw [← energy_realNum, mul_inv_cancel₀ hpos.ne']

/-- Settles O32: the energy of the raw taps is above 1, so normalising them gives unit energy. -/
theorem kernelHasOddLengthAndUnitEnergy : Obligations.KernelHasOddLengthAndUnitEnergy := by
  intro sps span beta _ _ hbeta _ heven
  have hlen := kernelTaps_length realNum sps span beta
  refine ⟨hlen, by omega, ?_⟩
  rw [← energy_realNum]
  exact energy_normalise (zero_lt_one.trans (one_lt_energy_rawTaps sps span hbeta))

/-! ### Symmetry -/

theorem indexDistance_reflect {c i : Nat} (hi : i ≤ 2 * c) : indexDistance (2 * c - i) c = indexDistance i c := by
  unfold indexDistance
  omega

theorem tapTime_reflect (sps : Nat) {c i : Nat} (hi : i ≤ 2 * c) :
    tapTime realNum sps c (2 * c - i) = -tapTime realNum sps c i := by
  rw [tapTime_realNum, tapTime_realNum, Nat.cast_sub hi]
  push_cast
  ring

/-- The third branch is even in the time: numerator and denominator are both odd (40_filter_design.md R123). -/
theorem generalTap_neg (beta t : ℝ) : generalTap realNum beta (-t) = generalTap realNum beta t := by
  rw [generalTap_realNum, generalTap_realNum, ← neg_div_neg_eq]
  simp only [mul_neg, neg_mul, Real.sin_neg, Real.cos_neg, neg_add, neg_neg, neg_sq]

/-- Reflection in the centre keeps the branch and negates the time (40_filter_design.md R126 (c)). -/
theorem rawTap_reflect {sps span i : Nat} (beta : ℝ) (heven : span * sps % 2 = 0) (hi : i ≤ span * sps) :
    rawTap realNum sps span beta (span * sps - i) = rawTap realNum sps span beta i := by
  have hcentre : span * sps = 2 * centreIndex sps span := by unfold centreIndex; omega
  rw [hcentre] at hi ⊢
  have hbranch : 2 * centreIndex sps span - i = centreIndex sps span ↔ i = centreIndex sps span := by omega
  simp only [rawTap, hbranch, indexDistance_reflect hi, tapTime_reflect sps hi, generalTap_neg]

theorem kernelTaps_getElem? {R : Type} (N : NumSystem R) (sps span : Nat) (beta : R) {i : Nat} (hi : i ≤ span * sps) :
    (kernelTaps N sps span beta)[i]? =
      some (N.div (rawTap N sps span beta i) (N.sqrt (energy N (rawTaps N sps span beta)))) := by
  rw [kernelTaps, normalise, List.getElem?_map, rawTaps_getElem? N sps span beta (Nat.lt_succ_of_le hi)]
  rfl

/-- Settles O33: all coefficients are divided by one norm, and the raw taps are symmetric. -/
theorem kernelIsEvenSymmetric : Obligations.KernelIsEvenSymmetric := by
  intro sps span beta i _ heven hi
  rw [kernelTaps_getElem? realNum sps span beta hi, kernelTaps_getElem? realNum sps span beta (Nat.sub_le _ _),
    rawTap_reflect beta heven hi]

/-! ### Division by zero -/

/-- Off the centre and off `|t| = 1/(4*beta)`, the denominator of the third branch is not 0
(40_filter_design.md R123). -/
theorem generalTap_denominator_ne_zero {beta d sps : ℝ} (hbeta : 0 < beta) (hsps : 0 < sps) (hd : d ≠ 0)
    (hsingular : 4 * beta * |d| ≠ sps) :
    Real.pi * (d / sps) * (1 - (4 * beta * (d / sps)) ^ 2) ≠ 0 := by
  have habs : |4 * beta * (d / sps)| = 4 * beta * |d| / sps := by
    rw [abs_mul, abs_div, abs_of_pos hsps, abs_of_pos (by positivity), mul_div_assoc]
  refine mul_ne_zero (mul_ne_zero Real.pi_ne_zero (div_ne_zero hd hsps.ne')) (sub_ne_zero.2 fun hsq => hsingular ?_)
  rwa [← sq_abs, habs, eq_comm, pow_eq_one_iff_of_nonneg (by positivity) two_ne_zero,
    div_eq_one_iff_eq hsps.ne'] at hsq

/-- Settles O34: the norm by the centre tap, the third branch by the two branches before it. -/
theorem kernelNeverDividesByZero : Obligations.KernelNeverDividesByZero := by
  intro sps span beta hsps _ hbeta _ _
  refine ⟨one_lt_energy_rawTaps sps span hbeta, fun i _ hcentre hsingular => ?_⟩
  have hdistance : (i : ℝ) - ((span * sps / 2 : Nat) : ℝ) ≠ 0 := sub_ne_zero.2 (Nat.cast_injective.ne hcentre)
  exact generalTap_denominator_ne_zero hbeta (Nat.cast_pos.2 hsps) hdistance hsingular

end Sys2Proof.Machine
end

section
/-! PROOF. ENC, the line encoder (41_line_encoder.md): its four checks in order (R136) and the symbols it stores (R135). -/

namespace Sys2Proof.Machine

/-! ### The checks of ENC -/

section Checks

variable {s : State} {d a : BufNo} {code : LineCode} {xs : List Bool}

theorem checkCode_passes (hcode : code = .nrz ∨ code = .manchester) : ¬ (checkCode code).1 = true := by
  rw [checkCode_fails]
  rcases hcode with rfl | rfl <;> decide

theorem checkBits_passes (hbits : buf s a = .bits xs) : ¬ (checkBits s a).1 = true := by
  rw [checkBits_fails]
  exact fun hkind => hkind xs hbits

/-- With a known code, ENC looks at the kind, the destination and the length (41_line_encoder.md R136). -/
theorem firstFailure_encChecks_of_code (hcode : code = .nrz ∨ code = .manchester) :
    firstFailure (encChecks params d a code s) =
      firstFailure [checkBits s a, checkAlias d a, checkBufcap params (encodedLength code (bitsIn s a).length)] :=
  firstFailure_of_passes (checkCode_passes hcode) _

/-- With a source of bits too, ENC looks at the destination and the length (41_line_encoder.md R136). -/
theorem firstFailure_encChecks_of_bits (hcode : code = .nrz ∨ code = .manchester) (hbits : buf s a = .bits xs) :
    firstFailure (encChecks params d a code s) =
      firstFailure [checkAlias d a, checkBufcap params (encodedLength code xs.length)] := by
  rw [firstFailure_encChecks_of_code hcode, firstFailure_of_passes (checkBits_passes hbits), bitsIn_of_bits hbits]

/-- With a destination of its own too, ENC looks at the length alone (41_line_encoder.md R136). -/
theorem firstFailure_encChecks_of_ne (hcode : code = .nrz ∨ code = .manchester) (hbits : buf s a = .bits xs)
    (hda : d ≠ a) :
    firstFailure (encChecks params d a code s) =
      firstFailure [checkBufcap params (encodedLength code xs.length)] := by
  rw [firstFailure_encChecks_of_bits hcode hbits, firstFailure_of_passes (mt (checkAlias_fails d a).1 hda)]

/-- A result past BUFCAP faults under either code, each with its own length (41_line_encoder.md R136). -/
theorem enc_faults_of_long (hcode : code = .nrz ∨ code = .manchester) (hbits : buf s a = .bits xs) (hda : d ≠ a)
    (hlong : Config.bufcap < encodedLength code xs.length) : faults (.enc d a code) s 1 9 :=
  faults_of_firstFailure (sub := .capacity) ((firstFailure_encChecks_of_ne hcode hbits hda).trans
    (firstFailure_of_fails ((checkBufcap_fails _).2 hlong) _))

/-- ENC of a source it takes completes with the symbols in the destination, and changes nothing else
(41_line_encoder.md R135, R136; 60_exceptions.md R244). -/
theorem exec_enc (hcode : code = .nrz ∨ code = .manchester) (hbits : buf s a = .bits xs) (hda : d ≠ a)
    (hfits : encodedLength code xs.length ≤ Config.bufcap) :
    exec (.enc d a code) s = .next { s with
      buffers := s.buffers.set d (.samples (encodeBits num code xs)),
      seq := s.seq + 1, seqState := .idle, response := some (.command .ok) } := by
  have hpass : firstFailure (encChecks params d a code s) = none :=
    (firstFailure_encChecks_of_ne hcode hbits hda).trans
      (firstFailure_of_passes (mt (checkBufcap_fails _).1 hfits.not_gt) _)
  rw [exec_complete_of_checks (i := .enc d a code) hpass, ← bitsIn_of_bits hbits]
  rfl

end Checks

/-- Settles O15: each check is the first to fail once those before it pass. -/
theorem encFaultsInOrder : Obligations.EncFaultsInOrder := by
  intro d a code s
  refine ⟨fun hunknown => ?_, fun hcode => ⟨fun hkind => ?_, fun xs hbits => ⟨fun hda => ?_, ?_, ?_⟩⟩⟩
  · exact faults_of_firstFailure (sub := .code) (firstFailure_of_fails ((checkCode_fails code).2 hunknown) _)
  · exact faults_of_firstFailure (sub := .kind) ((firstFailure_encChecks_of_code hcode).trans
      (firstFailure_of_fails ((checkBits_fails s a).2 hkind) _))
  · exact faults_of_firstFailure (sub := .aliasing) ((firstFailure_encChecks_of_bits hcode hbits).trans
      (firstFailure_of_fails ((checkAlias_fails d a).2 hda) _))
  · rintro hda rfl hlong
    exact enc_faults_of_long hcode hbits hda hlong
  · rintro hda rfl hlong
    exact enc_faults_of_long hcode hbits hda hlong

/-! ### The symbols -/

section Symbols

variable {R : Type} (N : NumSystem R)

/-- `2*b - 1` is exactly -1 or +1 in every number system of 00_scope.md R11 (41_line_encoder.md R135). -/
theorem nrzSymbol_eq {finite : R → Prop} (hN : NumProperties N finite) (b : Bool) :
    nrzSymbol N b = if b then plusSymbol N else minusSymbol N := by
  cases b with
  | false => exact congrArg (cplxOfReal N) hN.symbol_zero
  | true => exact congrArg (cplxOfReal N) hN.symbol_one

theorem encodeBits_manchester_cons (b : Bool) (rest : List Bool) :
    encodeBits N .manchester (b :: rest) =
      (if b then minusSymbol N else plusSymbol N) :: (if b then plusSymbol N else minusSymbol N) ::
        encodeBits N .manchester rest := by
  cases b <;> rfl

/-- Bit `i` becomes the symbols at 2i and 2i+1 (41_line_encoder.md R135). -/
theorem encodeBits_manchester_getElem? {bits : List Bool} {i : Nat} {b : Bool} (h : bits[i]? = some b) :
    (encodeBits N .manchester bits)[2 * i]? = some (if b then minusSymbol N else plusSymbol N) ∧
      (encodeBits N .manchester bits)[2 * i + 1]? = some (if b then plusSymbol N else minusSymbol N) := by
  induction bits generalizing i with
  | nil => cases h
  | cons c rest ih =>
    rw [encodeBits_manchester_cons]
    cases i with
    | zero =>
      obtain rfl : c = b := Option.some.inj h
      exact ⟨rfl, rfl⟩
    | succ i => exact ih h

end Symbols

theorem plusSymbol_num : plusSymbol num = ⟨0x3FF0000000000000, 0⟩ := rfl

theorem minusSymbol_num : minusSymbol num = ⟨0xBFF0000000000000, 0⟩ := by decide

/-- Settles O22: NRZ maps each bit to its symbol, and the two symbols are the patterns of -1 and +1. -/
theorem encNrzMapsEachBit : Obligations.EncNrzMapsEachBit := by
  intro d a s xs hbits hda hfits
  have hsymbol : nrzSymbol num =
      fun b => if b then ⟨0x3FF0000000000000, 0⟩ else ⟨0xBFF0000000000000, 0⟩ :=
    funext fun b => by rw [nrzSymbol_eq num num_properties, plusSymbol_num, minusSymbol_num]
  rw [exec_enc (.inl rfl) hbits hda hfits, encodeBits, hsymbol]

/-- Settles O23: the stored symbols are the encoded bits, two for each. -/
theorem encManchesterMapsEachBitToTwo : Obligations.EncManchesterMapsEachBitToTwo := by
  intro d a s xs hbits hda hfits
  refine ⟨encodeBits num .manchester xs, exec_enc (.inr rfl) hbits hda hfits, encodeBits_length_manchester num xs,
    fun i b hb => ?_⟩
  obtain ⟨hfirst, hsecond⟩ := encodeBits_manchester_getElem? num hb
  rw [hfirst, hsecond, plusSymbol_num, minusSymbol_num]
  cases b <;> exact ⟨rfl, rfl⟩

end Sys2Proof.Machine
end

section
/-! PROOF. SHAPE, the pulse shaper (42_pulse_shaper.md): its checks and those of MF in order (R145; 45_matched_filter.md
R186), the waveform it stores (R146, R147), and the two sums it computes over the exact reals. -/

namespace Sys2Proof.Machine

/-! ### The checks of a command with a waveform source -/

section Checks

variable {s : State} {i : Instr} {d a : BufNo} {k : KerNo} {xs : List Sample} {rest : List (Bool × SubCause)}

theorem checkSamples_passes (hsrc : buf s a = .samples xs) : ¬ (checkSamples s a).1 = true := by
  rw [checkSamples_fails]
  exact fun hkind => hkind xs hsrc

/-- SHAPE, MIX, AWGN, MF and TREC begin with KIND (60_exceptions.md R242). -/
theorem faults_kind_of_checkSamples (hi : commandChecks i s = checkSamples s a :: rest)
    (hkind : ∀ xs, buf s a ≠ .samples xs) : faults i s 1 2 :=
  faults_of_firstFailure (sub := .kind) (hi ▸ firstFailure_of_fails ((checkSamples_fails s a).2 hkind) _)

/-- SHAPE, MIX, AWGN, MF and TREC look at ALIAS after KIND (60_exceptions.md R242). -/
theorem faults_alias_of_checkAlias (hi : commandChecks i s = checkSamples s a :: checkAlias d a :: rest)
    (hsrc : buf s a = .samples xs) (hda : d = a) : faults i s 1 3 :=
  faults_of_firstFailure (sub := .aliasing) (hi ▸ (firstFailure_of_passes (checkSamples_passes hsrc) _).trans
    (firstFailure_of_fails ((checkAlias_fails d a).2 hda) _))

/-- With a waveform to read and a destination of its own, such a command looks at its further checks. -/
theorem firstFailure_of_samples_of_ne (hsrc : buf s a = .samples xs) (hda : d ≠ a) :
    firstFailure (checkSamples s a :: checkAlias d a :: rest) = firstFailure rest := by
  rw [firstFailure_of_passes (checkSamples_passes hsrc), firstFailure_of_passes (mt (checkAlias_fails d a).1 hda)]

theorem checkKernel_passes (hvalid : (kernel s k).valid = true) : ¬ (checkKernel s k).1 = true := by
  rw [checkKernel_fails, hvalid]
  exact nofun

/-! ### The checks of SHAPE -/

/-- Past KIND and ALIAS, SHAPE looks at SPS, the kernel and the length (42_pulse_shaper.md R145). -/
theorem firstFailure_shapeChecks_of_samples_of_ne (hsrc : buf s a = .samples xs) (hda : d ≠ a) :
    firstFailure (shapeChecks params d a k s) =
      firstFailure [checkSps s, checkKernel s k, checkBufcap params (xs.length * spsOf s)] := by
  rw [shapeChecks, firstFailure_of_samples_of_ne hsrc hda, samplesIn_of_samples hsrc]

/-- Past SPS too, SHAPE looks at the kernel and the length (42_pulse_shaper.md R145). -/
theorem firstFailure_shapeChecks_of_sps (hsrc : buf s a = .samples xs) (hda : d ≠ a) (hsps : s.sps ≠ 0) :
    firstFailure (shapeChecks params d a k s) =
      firstFailure [checkKernel s k, checkBufcap params (xs.length * spsOf s)] := by
  rw [firstFailure_shapeChecks_of_samples_of_ne hsrc hda, firstFailure_of_passes (mt (checkSps_fails s).1 hsps)]

/-- With a valid kernel too, SHAPE looks at the length alone (42_pulse_shaper.md R145). -/
theorem firstFailure_shapeChecks_of_valid (hsrc : buf s a = .samples xs) (hda : d ≠ a) (hsps : s.sps ≠ 0)
    (hvalid : (kernel s k).valid = true) :
    firstFailure (shapeChecks params d a k s) = firstFailure [checkBufcap params (xs.length * spsOf s)] := by
  rw [firstFailure_shapeChecks_of_sps hsrc hda hsps, firstFailure_of_passes (checkKernel_passes hvalid)]

/-- SHAPE of a waveform it takes completes with the shaped one in the destination, and changes nothing else
(42_pulse_shaper.md R145, R147; 60_exceptions.md R244). -/
theorem exec_shape (hsrc : buf s a = .samples xs) (hda : d ≠ a) (hsps : s.sps ≠ 0)
    (hvalid : (kernel s k).valid = true) (hfits : xs.length * s.sps.toNat ≤ Config.bufcap) :
    exec (.shape d a k) s = .next { s with
      buffers := s.buffers.set d (.samples (shapeSamples num s.sps.toNat (kernel s k).h xs)),
      seq := s.seq + 1, seqState := .idle, response := some (.command .ok) } := by
  have hpass : firstFailure (shapeChecks params d a k s) = none :=
    (firstFailure_shapeChecks_of_valid hsrc hda hsps hvalid).trans
      (firstFailure_of_passes (mt (checkBufcap_fails _).1 hfits.not_gt) _)
  rw [exec_complete_of_checks (i := .shape d a k) hpass, ← samplesIn_of_samples hsrc]
  rfl

end Checks

/-- Settles O17: each check is the first to fail once those before it pass. -/
theorem shapeAndMfFaultInOrder : Obligations.ShapeAndMfFaultInOrder := by
  intro d a k s
  refine ⟨fun hkind => ⟨faults_kind_of_checkSamples rfl hkind, faults_kind_of_checkSamples rfl hkind⟩,
    fun xs hsrc => ⟨fun hda => ⟨?_, ?_⟩, fun hda hsps => ?_, fun hda hsps hinvalid => ?_, fun hda hinvalid => ?_,
      fun hda hsps hvalid hlong => ?_⟩⟩
  · exact faults_alias_of_checkAlias rfl hsrc hda
  · exact faults_alias_of_checkAlias rfl hsrc hda
  · exact faults_of_firstFailure (sub := .paramSps) ((firstFailure_shapeChecks_of_samples_of_ne hsrc hda).trans
      (firstFailure_of_fails ((checkSps_fails s).2 hsps) _))
  · exact faults_of_firstFailure (sub := .kernel) ((firstFailure_shapeChecks_of_sps hsrc hda hsps).trans
      (firstFailure_of_fails ((checkKernel_fails s k).2 hinvalid) _))
  · exact faults_of_firstFailure (i := .mf d a k) (sub := .kernel) ((firstFailure_of_samples_of_ne hsrc hda).trans
      (firstFailure_of_fails ((checkKernel_fails s k).2 hinvalid) _))
  · exact faults_of_firstFailure (sub := .capacity) ((firstFailure_shapeChecks_of_valid hsrc hda hsps hvalid).trans
      (firstFailure_of_fails ((checkBufcap_fails _).2 hlong) _))

/-! ### Upsampling and filtering -/

section Waveform

variable {R : Type} (N : NumSystem R)

/-- Between the symbols are zeros (42_pulse_shaper.md R147). -/
theorem upsample_getElem?_of_mod_ne_zero {sps n : Nat} {sym : List (Cplx R)} (hn : n < sym.length * sps)
    (hmod : n % sps ≠ 0) : (upsample N sps sym)[n]? = some (cplxZero N) := by
  rw [upsample_getElem? N sps sym hn, if_neg hmod]

/-- Symbol `q` stands at index `q*sps` (42_pulse_shaper.md R147). -/
theorem upsample_getElem?_mul {sps q : Nat} {sym : List (Cplx R)} (hsps : 0 < sps) (hq : q < sym.length) :
    (upsample N sps sym)[q * sps]? = sym[q]? := by
  rw [upsample_getElem? N sps sym (Nat.mul_lt_mul_of_pos_right hq hsps), if_pos (Nat.mul_mod_left q sps),
    Nat.mul_div_cancel q hsps, List.getD_eq_getElem _ _ hq, List.getElem?_eq_getElem hq]

theorem shapeSamples_getElem? {sps n : Nat} (h : List R) {sym : List (Cplx R)} (hn : n < sym.length * sps) :
    (shapeSamples N sps h sym)[n]? = some (convAt N (upsample N sps sym) h n) :=
  convSame_getElem? N _ h (hn.trans_eq (upsample_length N sps sym).symm)

end Waveform

theorem cplxZero_num : cplxZero num = ⟨0, 0⟩ := rfl

/-- Settles O24: the stored waveform is the upsampled one, convolved with the kernel. -/
theorem shapeUpsamplesAndFilters : Obligations.ShapeUpsamplesAndFilters := by
  intro d a k s sym hsrc hda hsps hvalid hfits
  have hpos : 0 < s.sps.toNat := Nat.pos_of_ne_zero fun hzero => hsps (BitVec.eq_of_toNat_eq hzero)
  refine ⟨upsample num s.sps.toNat sym, shapeSamples num s.sps.toNat (kernel s k).h sym,
    exec_shape hsrc hda hsps hvalid hfits, upsample_length num _ _, fun q => upsample_getElem?_mul num hpos,
    fun n hn hmod => ?_, shapeSamples_length num _ _ _, fun n hn => ?_⟩
  · rw [upsample_getElem?_of_mod_ne_zero num hn hmod, cplxZero_num]
  · rw [shapeSamples_getElem? num _ hn, convAt_eq_centredSum]

/-! ### The convolution over the exact reals -/

/-- A part of the complex scalars that commutes with `cadd` and with `cscale` by a real: the real part and the
imaginary part are filtered alike (42_pulse_shaper.md R146). -/
structure IsRealLinear (part : Cplx ℝ → ℝ) : Prop where
  zero : part (cplxZero realNum) = 0
  add : ∀ z w, part (cplxAdd realNum z w) = part z + part w
  scale : ∀ r z, part (cplxScale realNum r z) = r * part z

theorem isRealLinear_re : IsRealLinear Cplx.re := ⟨rfl, fun _ _ => rfl, fun _ _ => rfl⟩

theorem isRealLinear_im : IsRealLinear Cplx.im := ⟨rfl, fun _ _ => rfl, fun _ _ => rfl⟩

/-- A sequence that is 0 from `l` on, summed below `l` with the terms past `k` dropped, is its sum up to `k`. -/
theorem sum_range_ite_le {f : ℕ → ℝ} {l : ℕ} (k : ℕ) (hf : ∀ i, l ≤ i → f i = 0) :
    ∑ i ∈ Finset.range l, (if i ≤ k then f i else 0) = ∑ i ∈ Finset.range (k + 1), f i := by
  rw [← Finset.sum_filter]
  refine Finset.sum_subset (fun i hi => ?_) (fun i hi hout => hf i ?_)
  · exact Finset.mem_range_succ_iff.2 (Finset.mem_filter.1 hi).2
  · simp only [Finset.mem_filter, Finset.mem_range] at hi hout
    omega

/-- The convolution sum of two sequences that end, at index `k`: taken over the one or over the other, it is the sum
over the pairs of indices that add up to `k`. -/
theorem sum_range_ite_le_mul_comm {f g : ℕ → ℝ} {l l' : ℕ} (k : ℕ) (hf : ∀ i, l ≤ i → f i = 0)
    (hg : ∀ j, l' ≤ j → g j = 0) :
    ∑ i ∈ Finset.range l, (if i ≤ k then f i * g (k - i) else 0) =
      ∑ j ∈ Finset.range l', g j * if j ≤ k then f (k - j) else 0 :=
  calc ∑ i ∈ Finset.range l, (if i ≤ k then f i * g (k - i) else 0)
      = ∑ i ∈ Finset.range (k + 1), f i * g (k - i) := sum_range_ite_le k fun i hi => by rw [hf i hi, zero_mul]
    _ = ∑ j ∈ Finset.range (k + 1), g j * f (k - j) := by
        rw [← Finset.sum_range_reflect]
        refine Finset.sum_congr rfl fun j hj => ?_
        rw [Nat.add_sub_cancel, Nat.sub_sub_self (Finset.mem_range_succ_iff.1 hj), mul_comm]
    _ = ∑ j ∈ Finset.range l', (if j ≤ k then g j * f (k - j) else 0) :=
        (sum_range_ite_le k fun j hj => by rw [hg j hj, zero_mul]).symm
    _ = ∑ j ∈ Finset.range l', g j * if j ≤ k then f (k - j) else 0 := by simp only [mul_ite, mul_zero]

/-- A loop each of whose steps adds a real to the part adds the sum of them. -/
theorem part_foldl {part : Cplx ℝ → ℝ} {f : Cplx ℝ → ℕ → Cplx ℝ} {term : ℕ → ℝ}
    (hstep : ∀ acc m, part (f acc m) = part acc + term m) (ms : List ℕ) (acc : Cplx ℝ) :
    part (ms.foldl f acc) = part acc + (ms.map term).sum := by
  induction ms generalizing acc with
  | nil => exact (add_zero _).symm
  | cons m rest ih => rw [List.foldl_cons, ih, hstep, List.map_cons, List.sum_cons, add_assoc]

section Convolution

variable {part : Cplx ℝ → ℝ} (hpart : IsRealLinear part) (x : List (Cplx ℝ)) (h : List ℝ) (n : ℕ)

include hpart

/-- A sample that is not there counts as zero. -/
theorem part_getD_of_length_le {j : ℕ} (hj : x.length ≤ j) : part (x.getD j (cplxZero realNum)) = 0 := by
  rw [List.getD_eq_default _ _ hj, hpart.zero]

/-- One step of the sum adds the product of tap and partner, which is 0 where the waveform has ended. -/
theorem part_convStep (acc : Cplx ℝ) (m : ℕ) :
    part (convStep realNum x h n acc m) = part acc +
      if m ≤ n + kernelCentre h.length then
        h.getD m 0 * part (x.getD (n + kernelCentre h.length - m) (cplxZero realNum)) else 0 := by
  unfold convStep
  dsimp only
  split_ifs with htap hm hm
  · exact (hpart.add _ _).trans (congrArg _ (hpart.scale _ _))
  · exact absurd htap.1 hm
  · rw [part_getD_of_length_le hpart x (not_lt.1 fun hj => htap ⟨hm, hj⟩), mul_zero, add_zero]
  · rw [add_zero]

/-- The sum over the taps, read as a sum over the samples (42_pulse_shaper.md R146). -/
theorem part_convAt :
    part (convAt realNum x h n) = ∑ j ∈ Finset.range x.length, part (x.getD j (cplxZero realNum)) *
      if j ≤ n + kernelCentre h.length then h.getD (n + kernelCentre h.length - j) 0 else 0 := by
  rw [convAt, part_foldl (part_convStep hpart x h n), hpart.zero, zero_add]
  exact sum_range_ite_le_mul_comm _ (fun _ => List.getD_eq_default _ _) fun _ => part_getD_of_length_le hpart x

end Convolution

/-- Settles O35: the sum over the samples, for either part. -/
theorem convSameIsTheCentredPartOfTheFullConvolution : Obligations.ConvSameIsTheCentredPartOfTheFullConvolution := by
  intro x h _
  refine ⟨convSame_length realNum x h, fun n hn => ?_⟩
  rw [convSame_getElem? realNum x h hn]
  exact congrArg some (congrArg₂ Cplx.mk (part_convAt isRealLinear_re x h n) (part_convAt isRealLinear_im x h n))

/-! ### The sum of pulses -/

/-- A sequence that is 0 off the multiples of `sps`, summed over `l` periods, is the sum over those multiples. -/
theorem sum_range_mul_of_mod_ne_zero {f : ℕ → ℝ} {l sps : ℕ} (hsps : 0 < sps)
    (hf : ∀ j < l * sps, j % sps ≠ 0 → f j = 0) :
    ∑ j ∈ Finset.range (l * sps), f j = ∑ q ∈ Finset.range l, f (q * sps) := by
  refine (Finset.sum_of_injOn (· * sps) (fun _ _ _ _ heq => Nat.eq_of_mul_eq_mul_right hsps heq)
    (fun q hq => ?_) (fun j hj hout => hf j (Finset.mem_range.1 hj) fun hmod => hout ?_) fun _ _ => rfl).symm
  · exact Finset.mem_coe.2 (Finset.mem_range.2 (Nat.mul_lt_mul_of_pos_right (Finset.mem_range.1 hq) hsps))
  · refine ⟨j / sps, Finset.mem_coe.2 (Finset.mem_range.2 ?_), Nat.div_mul_cancel (Nat.dvd_of_mod_eq_zero hmod)⟩
    exact (Nat.div_lt_iff_lt_mul hsps).2 (Finset.mem_range.1 hj)

/-- Only the symbols' own indices count in the sum over the samples (42_pulse_shaper.md R147). -/
theorem part_convAt_upsample {part : Cplx ℝ → ℝ} (hpart : IsRealLinear part) {sps : ℕ} (hsps : 0 < sps) (h : List ℝ)
    (sym : List (Cplx ℝ)) (n : ℕ) :
    part (convAt realNum (upsample realNum sps sym) h n) =
      ∑ q ∈ Finset.range sym.length, part (sym.getD q (cplxZero realNum)) *
        if q * sps ≤ n + kernelCentre h.length then h.getD (n + kernelCentre h.length - q * sps) 0 else 0 := by
  rw [part_convAt hpart, upsample_length, sum_range_mul_of_mod_ne_zero hsps fun j hj hmod => ?_]
  · refine Finset.sum_congr rfl fun q hq => ?_
    rw [List.getD_eq_getElem?_getD, upsample_getElem?_mul realNum hsps (Finset.mem_range.1 hq),
      ← List.getD_eq_getElem?_getD]
  · rw [List.getD_eq_getElem?_getD, upsample_getElem?_of_mod_ne_zero realNum hj hmod, Option.getD_some, hpart.zero,
      zero_mul]

/-- Settles O37: the sum over the samples keeps the symbols alone, for either part. -/
theorem shapedWaveformIsASumOfPulses : Obligations.ShapedWaveformIsASumOfPulses := by
  intro sps h sym hsps _
  refine ⟨shapeSamples_length realNum sps h sym, fun n hn => ?_⟩
  rw [shapeSamples_getElem? realNum h hn]
  exact congrArg some (congrArg₂ Cplx.mk (part_convAt_upsample isRealLinear_re hsps h sym n)
    (part_convAt_upsample isRealLinear_im hsps h sym n))

end Sys2Proof.Machine
end

section
/-! PROOF. MIX, the carrier modulator and demodulator (43_carrier_mixer.md): its checks and those of AWGN and TREC in
order (R161; 44_channel_noise.md R170; 46_timing_recovery.md R190), the product it stores (R160), and what modulating
and demodulating gives over the exact reals (R162). -/

namespace Sys2Proof.Machine

/-! ### The checks of MIX, AWGN and TREC -/

section Checks

variable {s : State} {i : Instr} {d a : BufNo} {xs : List Sample} {rest : List (Bool × SubCause)}

/-- SHAPE, MIX and TREC look at SPS after KIND and ALIAS (60_exceptions.md R242). -/
theorem faults_paramSps_of_checkSps
    (hi : commandChecks i s = checkSamples s a :: checkAlias d a :: checkSps s :: rest)
    (hsrc : buf s a = .samples xs) (hda : d ≠ a) (hsps : s.sps = 0) : faults i s 1 4 :=
  faults_of_firstFailure (sub := .paramSps) (hi ▸ (firstFailure_of_samples_of_ne hsrc hda).trans
    (firstFailure_of_fails ((checkSps_fails s).2 hsps) _))

/-- With an SPS too, such a command looks at its further checks. -/
theorem firstFailure_of_samples_of_ne_of_sps (hsrc : buf s a = .samples xs) (hda : d ≠ a) (hsps : s.sps ≠ 0) :
    firstFailure (checkSamples s a :: checkAlias d a :: checkSps s :: rest) = firstFailure rest := by
  rw [firstFailure_of_samples_of_ne hsrc hda, firstFailure_of_passes (mt (checkSps_fails s).1 hsps)]

theorem checkShort_fails_of_samples (hsrc : buf s a = .samples xs) :
    (checkShort s a).1 = true ↔ xs.length < 10 * s.sps.toNat := by
  rw [checkShort_fails, samplesIn_of_samples hsrc]

/-- MIX of a waveform it takes completes with the mixed one in the destination, and changes nothing else
(43_carrier_mixer.md R160, R161; 60_exceptions.md R244). -/
theorem exec_mix (hsrc : buf s a = .samples xs) (hda : d ≠ a) (hsps : s.sps ≠ 0) :
    exec (.mix d a) s = .next { s with
      buffers := s.buffers.set d (.samples (mixSamples num s.fc s.sps.toNat num.zero xs)),
      seq := s.seq + 1, seqState := .idle, response := some (.command .ok) } := by
  have hpass : firstFailure (mixChecks d a s) = none := firstFailure_of_samples_of_ne_of_sps hsrc hda hsps
  rw [exec_complete_of_checks (i := .mix d a) hpass, ← samplesIn_of_samples hsrc]
  rfl

end Checks

/-- Settles O18: each check is the first to fail once those before it pass. -/
theorem mixAwgnAndTrecFaultInOrder : Obligations.MixAwgnAndTrecFaultInOrder := by
  intro d a s
  refine ⟨fun hkind => ⟨faults_kind_of_checkSamples rfl hkind, faults_kind_of_checkSamples rfl hkind,
    faults_kind_of_checkSamples rfl hkind⟩, fun xs hsrc => ⟨fun hda => ⟨?_, ?_, ?_⟩, fun hda hsps => ⟨?_, ?_⟩,
      fun hda hsps hshort => ?_⟩⟩
  · exact faults_alias_of_checkAlias rfl hsrc hda
  · exact faults_alias_of_checkAlias rfl hsrc hda
  · exact faults_alias_of_checkAlias rfl hsrc hda
  · exact faults_paramSps_of_checkSps rfl hsrc hda hsps
  · exact faults_paramSps_of_checkSps rfl hsrc hda hsps
  · exact faults_of_firstFailure (i := .trec d a) (sub := .short)
      ((firstFailure_of_samples_of_ne_of_sps hsrc hda hsps).trans
        (firstFailure_of_fails ((checkShort_fails_of_samples hsrc).2 hshort) _))

/-! ### The product with the carrier -/

/-- Settles O25: the stored waveform is the source mixed at phase 0. -/
theorem mixMultipliesByTheCarrier : Obligations.MixMultipliesByTheCarrier := by
  intro d a s x hsrc hda hsps
  exact ⟨mixSamples num s.fc s.sps.toNat num.zero x, exec_mix hsrc hda hsps, mixSamples_length num _ _ _ x,
    fun _ _ hz => mixSamples_getElem? num _ _ _ x hz⟩

/-! ### Modulation and demodulation over the exact reals -/

theorem carrierAt_realNum (fc : ℝ) (sps : Nat) (phase : ℝ) (t : Nat) :
    carrierAt realNum fc sps phase t = Real.cos (2 * Real.pi * fc * t / sps + phase) := by
  simp [carrierAt, realNum]

/-- Mixing twice scales each sample twice by the same carrier value (43_carrier_mixer.md R162). -/
theorem mixSamples_mixSamples_getElem? {R : Type} (N : NumSystem R) (fc : R) (sps : Nat) (phase : R)
    {x : List (Cplx R)} {t : Nat} {z : Cplx R} (hz : x[t]? = some z) :
    (mixSamples N fc sps phase (mixSamples N fc sps phase x))[t]? =
      some (cplxScale N (carrierAt N fc sps phase t) (cplxScale N (carrierAt N fc sps phase t) z)) :=
  mixSamples_getElem? N fc sps phase _ (mixSamples_getElem? N fc sps phase x hz)

/-- The double-angle identity of 43_carrier_mixer.md R162. -/
theorem cos_mul_cos_mul (theta r : ℝ) :
    Real.cos theta * (Real.cos theta * r) = r * (1 + Real.cos (2 * theta)) / 2 := by
  rw [Real.cos_two_mul]
  ring

/-- Settles O38: both carriers are the cosine of `theta`, and its square halves. -/
theorem demodulationGivesTheHalfAmplitudeBaseband : Obligations.DemodulationGivesTheHalfAmplitudeBaseband := by
  intro fc sps x t z _ hz theta
  have hcarrier : carrierAt realNum fc sps 0 t = Real.cos theta := by rw [carrierAt_realNum, add_zero]
  rw [mixSamples_mixSamples_getElem? realNum fc sps 0 hz, hcarrier, ← cos_mul_cos_mul, ← cos_mul_cos_mul]
  rfl

end Sys2Proof.Machine
end

section
/-! PROOF. AWGN, the complex noise generator (44_channel_noise.md): the noisy waveform it stores and the draws it takes
(R170 to R172, R174), and the noise power over the exact reals (R171). -/

namespace Sys2Proof.Machine

/-! ### The noisy waveform -/

/-- The empty waveform needs no case of its own: adding noise to no sample takes no draw (44_channel_noise.md R174). -/
theorem awgnSamples_eq_addNoise {R S : Type} (N : NumSystem R) (G : RandomSource S R) (snrDb : R) (x : List (Cplx R))
    (st : S) : awgnSamples N G snrDb x st = addNoise N G (noiseSigma N snrDb x) x st := by
  cases x with
  | nil => rfl
  | cons => rfl

/-- AWGN of a waveform it takes completes with the noisy one in the destination and the random source after two draws
a sample, and changes nothing else (44_channel_noise.md R170, R172; 60_exceptions.md R244). -/
theorem exec_awgn {s : State} {d a : BufNo} {x : List Sample} (hsrc : buf s a = .samples x) (hda : d ≠ a) :
    exec (.awgn d a) s = .next { s with
      buffers := s.buffers.set d (.samples (addNoise num rng (noiseSigma num s.snrDb x) x s.rngState).1),
      rngState := gaussState s.rngState (2 * x.length),
      seq := s.seq + 1, seqState := .idle, response := some (.command .ok) } := by
  have hpass : firstFailure (awgnChecks d a s) = none := firstFailure_of_samples_of_ne hsrc hda
  rw [exec_complete_of_checks (i := .awgn d a) hpass, ← addNoise_state (noiseSigma num s.snrDb x),
    ← awgnSamples_eq_addNoise, ← samplesIn_of_samples hsrc]
  rfl

/-- Settles O26: the stored waveform is the source with noise added, sample by sample. -/
theorem awgnAddsScaledDraws : Obligations.AwgnAddsScaledDraws := by
  intro d a s x hsrc hda
  exact ⟨_, exec_awgn hsrc hda, addNoise_length num rng _ x _, fun t z hz => addNoise_getElem? _ x _ t z hz⟩

/-! ### The noise power over the exact reals -/

theorem meanPower_realNum (x : List (Cplx ℝ)) :
    meanPower realNum x = (x.map (fun z : Cplx ℝ => z.re ^ 2 + z.im ^ 2)).sum / (x.length : ℝ) := by
  simp only [sq]
  exact congrArg (· / (x.length : ℝ)) (sumOf_realNum _ x)

theorem meanPower_realNum_nonneg (x : List (Cplx ℝ)) : 0 ≤ meanPower realNum x := by
  rw [meanPower_realNum]
  refine div_nonneg (List.sum_nonneg (List.forall_mem_map.2 fun z _ => ?_)) x.length.cast_nonneg
  positivity

theorem noiseSigma_realNum (snrDb : ℝ) (x : List (Cplx ℝ)) :
    noiseSigma realNum snrDb x = √(meanPower realNum x / (10 : ℝ) ^ (snrDb / 10) / 2) := by
  simp [noiseSigma, realNum]

/-- Under the root stands half the noise power, which is not negative, so squaring gives it back
(44_channel_noise.md R171). -/
theorem two_mul_noiseSigma_sq (snrDb : ℝ) (x : List (Cplx ℝ)) :
    2 * noiseSigma realNum snrDb x ^ 2 = meanPower realNum x / (10 : ℝ) ^ (snrDb / 10) := by
  have hpower : 0 ≤ meanPower realNum x := meanPower_realNum_nonneg x
  rw [noiseSigma_realNum, Real.sq_sqrt (by positivity), mul_div_cancel₀ _ two_ne_zero]

/-- Settles O39: `sigma` is a square root, and twice its square is the noise power. -/
theorem noisePowerFollowsTheSnr : Obligations.NoisePowerFollowsTheSnr := by
  intro snrDb x _ sigma power
  refine ⟨Real.sqrt_nonneg _, ?_⟩
  calc 2 * sigma ^ 2 = meanPower realNum x / (10 : ℝ) ^ (snrDb / 10) := two_mul_noiseSigma_sq snrDb x
    _ = power / (10 : ℝ) ^ (snrDb / 10) := by rw [meanPower_realNum]

end Sys2Proof.Machine
end

section
/-! PROOF. MF, the matched filter (45_matched_filter.md): the waveform it stores (R185, R186), and that with a symmetric
kernel it correlates (R187). -/

namespace Sys2Proof.Machine

/-! ### The filtered waveform -/

/-- MF of a waveform it takes completes with the filtered one in the destination, and changes nothing else
(45_matched_filter.md R185, R186; 60_exceptions.md R244). -/
theorem exec_mf {s : State} {d a : BufNo} {k : KerNo} {x : List Sample} (hsrc : buf s a = .samples x) (hda : d ≠ a)
    (hvalid : (kernel s k).valid = true) :
    exec (.mf d a k) s = .next { s with
      buffers := s.buffers.set d (.samples (convSame num x (kernel s k).h)),
      seq := s.seq + 1, seqState := .idle, response := some (.command .ok) } := by
  have hpass : firstFailure (mfChecks d a k s) = none :=
    (firstFailure_of_samples_of_ne hsrc hda).trans (firstFailure_of_passes (checkKernel_passes hvalid) _)
  rw [exec_complete_of_checks (i := .mf d a k) hpass, ← samplesIn_of_samples hsrc]
  rfl

/-- Settles O27: the stored waveform is the source, convolved with the kernel. -/
theorem mfFiltersWithTheNamedKernel : Obligations.MfFiltersWithTheNamedKernel := by
  intro d a k s x hsrc hda hvalid
  refine ⟨convSame num x (kernel s k).h, exec_mf hsrc hda hvalid, convSame_length num _ _, fun n hn => ?_⟩
  rw [convSame_getElem? num _ _ hn, convAt_eq_centredSum]

/-! ### Correlation over the exact reals -/

theorem kernelCentre_of_odd (c : ℕ) : kernelCentre (2 * c + 1) = c := by
  rw [kernelCentre]
  omega

/-- Read from its last tap to its first, the sum over a symmetric kernel meets the samples in ascending order
(45_matched_filter.md R187). -/
theorem part_convAt_of_symmetric {part : Cplx ℝ → ℝ} (hpart : IsRealLinear part) (x : List (Cplx ℝ)) {h : List ℝ}
    {c : ℕ} (hlen : h.length = 2 * c + 1) (hsymm : ∀ i, i ≤ 2 * c → h.getD (2 * c - i) 0 = h.getD i 0) (n : ℕ) :
    part (convAt realNum x h n) = ∑ m ∈ Finset.range h.length,
      if c ≤ n + m then h.getD m 0 * part (x.getD (n + m - c) (cplxZero realNum)) else 0 := by
  have htaps : part (convAt realNum x h n) = ∑ m ∈ Finset.range h.length,
      if m ≤ n + c then h.getD m 0 * part (x.getD (n + c - m) (cplxZero realNum)) else 0 := by
    rw [convAt, part_foldl (part_convStep hpart x h n), hpart.zero, zero_add, hlen, kernelCentre_of_odd]
    rfl
  rw [htaps, ← Finset.sum_range_reflect]
  refine Finset.sum_congr rfl fun m hm => ?_
  have hm : m ≤ 2 * c := Nat.le_of_lt_succ ((Finset.mem_range.1 hm).trans_eq hlen)
  have htap : h.length - 1 - m = 2 * c - m := by rw [hlen, Nat.add_sub_cancel]
  have hmeets : 2 * c - m ≤ n + c ↔ c ≤ n + m := by omega
  have hsample : n + c - (2 * c - m) = n + m - c := by omega
  simp only [htap, hmeets, hsample, hsymm m hm]

/-- Settles O36: the sum over the taps in reverse, for either part. -/
theorem symmetricConvolutionIsCorrelation : Obligations.SymmetricConvolutionIsCorrelation := by
  intro x h c hlen hsymm n hn
  rw [convSame_getElem? realNum x h hn]
  exact congrArg some (congrArg₂ Cplx.mk (part_convAt_of_symmetric isRealLinear_re x hlen hsymm n)
    (part_convAt_of_symmetric isRealLinear_im x hlen hsymm n))

end Sys2Proof.Machine
end

section
/-! PROOF. TREC, the symbol-timing recovery (46_timing_recovery.md): its scan answers the first offset of largest metric
(R191, R192), and it stores every sample a whole number of symbol periods from it on (R193, R194). -/

namespace Sys2Proof.Machine

/-! ### The scan for the largest metric -/

section Scan

variable {R K : Type} [LinearOrder K] {N : NumSystem R} {isNumber : R → Prop} {value : R → K}

/-- `lt` of NUM compares numbers by their values and is false of all else: what the scan needs of a NUM. Binary64's
NaNs, which finite operands can lead to (93 U2), are the elements that are not numbers. -/
def ComparesNumbers (N : NumSystem R) (isNumber : R → Prop) (value : R → K) : Prop :=
  ∀ x y, N.lt x y = true ↔ isNumber x ∧ isNumber y ∧ value x < value y

theorem num_comparesNumbers : ComparesNumbers num (fun x => isNan x = false) signedUnits := by
  intro x y
  simp [num, fLt, and_assoc]

theorem realNum_comparesNumbers : ComparesNumbers realNum (fun _ => True) id := by
  intro x y
  simp [realNum_lt_iff]

theorem ComparesNumbers.lt_self (hN : ComparesNumbers N isNumber value) (x : R) : N.lt x x = false := by
  refine Bool.eq_false_iff.2 fun hlt => ?_
  obtain ⟨_, _, hval⟩ := (hN x x).1 hlt
  exact lt_irrefl _ hval

/-- Offset `off` is the first of largest metric among those below `n`: none has a larger metric, and every lower one
whose metric is a number has a smaller one (46_timing_recovery.md R192). -/
structure IsFirstLargest (N : NumSystem R) (isNumber : R → Prop) (metric : Nat → R) (n off : Nat) : Prop where
  not_lt : ∀ o, o < n → N.lt (metric off) (metric o) = false
  lower_lt : ∀ o, o < off → isNumber (metric o) → N.lt (metric o) (metric off) = true

/-- One step of the scan takes one more offset into account (46_timing_recovery.md R192). -/
theorem IsFirstLargest.scanStep (hN : ComparesNumbers N isNumber value) {metric : Nat → R} {n off : Nat}
    (h : IsFirstLargest N isNumber metric n off) :
    IsFirstLargest N isNumber metric (n + 1) (scanStep N metric off n) := by
  unfold Machine.scanStep
  split
  · next hlt =>
    obtain ⟨hoff, hn, hval⟩ := (hN _ _).1 hlt
    have hle (o : Nat) (ho : o < n) (hnum : isNumber (metric o)) : value (metric o) ≤ value (metric off) :=
      le_of_not_gt fun hgt => Bool.eq_false_iff.1 (h.not_lt o ho) ((hN _ _).2 ⟨hoff, hnum, hgt⟩)
    refine ⟨Nat.forall_lt_succ_right.2 ⟨fun o ho => Bool.eq_false_iff.2 fun hgt => ?_, hN.lt_self _⟩,
      fun o ho hnum => ?_⟩
    · obtain ⟨_, hnum, hgt⟩ := (hN _ _).1 hgt
      exact (hle o ho hnum).not_gt (hval.trans hgt)
    · exact (hN _ _).2 ⟨hnum, hn, (hle o ho hnum).trans_lt hval⟩
  · next hge =>
    exact ⟨Nat.forall_lt_succ_right.2 ⟨h.not_lt, Bool.eq_false_iff.2 hge⟩, h.lower_lt⟩

theorem isFirstLargest_zero (hN : ComparesNumbers N isNumber value) (metric : Nat → R) :
    IsFirstLargest N isNumber metric 1 0 where
  not_lt o ho := by
    obtain rfl := Nat.lt_one_iff.1 ho
    exact hN.lt_self _
  lower_lt o ho := absurd ho o.not_lt_zero

/-- The scan of the offsets up to `k` answers the first of largest metric (46_timing_recovery.md R192). -/
theorem isFirstLargest_foldl_scanStep (hN : ComparesNumbers N isNumber value) (metric : Nat → R) (k : Nat) :
    IsFirstLargest N isNumber metric (k + 1) ((List.range' 1 k).foldl (scanStep N metric) 0) := by
  induction k with
  | zero => exact isFirstLargest_zero hN metric
  | succ k ih =>
    rw [List.range'_1_concat, List.foldl_append, Nat.add_comm 1 k]
    exact ih.scanStep hN

/-- TREC's offset is the first of largest metric below SPS (46_timing_recovery.md R192). -/
theorem timingOffset_isFirstLargest (hN : ComparesNumbers N isNumber value) {sps : Nat} (hsps : 0 < sps)
    (x : List (Cplx R)) :
    IsFirstLargest N isNumber (timingMetric N sps x) sps (timingOffset N sps x) := by
  have h := isFirstLargest_foldl_scanStep hN (timingMetric N sps x) (sps - 1)
  rwa [Nat.sub_add_cancel hsps] at h

end Scan

theorem cplxAbs_realNum (z : Cplx ℝ) : cplxAbs realNum z = √(z.re ^ 2 + z.im ^ 2) := by
  simp [cplxAbs, realNum, sq]

theorem timingMetric_realNum (sps : Nat) (x : List (Cplx ℝ)) (o : Nat) :
    timingMetric realNum sps x o = ((List.range 10).map (fun blk =>
      √((x.getD (blk * sps + o) ⟨0, 0⟩).re ^ 2 + (x.getD (blk * sps + o) ⟨0, 0⟩).im ^ 2))).sum / 10 := by
  simp only [timingMetric, sumOf_realNum, cplxAbs_realNum]
  simp [realNum, cplxZero]

/-- Settles O40: the first offset of largest metric, where every real is a number. -/
theorem timingOffsetIsTheLeastMaximum : Obligations.TimingOffsetIsTheLeastMaximum := by
  intro sps x hsps
  have h := timingOffset_isFirstLargest realNum_comparesNumbers hsps x
  simp only [← timingMetric_realNum]
  exact ⟨timingOffset_lt realNum hsps x, fun o ho => (realNum_lt_eq_false_iff _ _).1 (h.not_lt o ho),
    fun o ho => (realNum_lt_iff _ _).1 (h.lower_lt o ho trivial)⟩

/-! ### The samples taken -/

/-- Sample `q` is taken where its place lies within the waveform (46_timing_recovery.md R193). -/
theorem lt_downsampleCount_iff {len off sps q : Nat} (hsps : 0 < sps) :
    q < downsampleCount len off sps ↔ off + q * sps < len := by
  rw [downsampleCount, ← Nat.succ_le_iff, Nat.le_div_iff_mul_le hsps, Nat.succ_mul]
  omega

/-- A waveform of whole symbol periods has one sample a symbol at every offset (46_timing_recovery.md R193). -/
theorem downsampleCount_mul {n sps off : Nat} (hoff : off < sps) : downsampleCount (n * sps) off sps = n := by
  refine Nat.div_eq_of_lt_le ?_ ?_
  · omega
  · rw [Nat.succ_mul]
    omega

/-- Settles O41: the count, at the length of a pulse-shaped waveform. -/
theorem downsamplingGivesOneSampleAPerSymbol : Obligations.DownsamplingGivesOneSampleAPerSymbol := by
  intro sps off n x hoff hlen
  rw [downsample_length, hlen, downsampleCount_mul hoff]

/-- TREC of a waveform of ten symbol periods or more completes with the downsampled one in the destination and the
offset in OFFSET, and changes nothing else (46_timing_recovery.md R190, R194; 60_exceptions.md R244). -/
theorem exec_trec {s : State} {d a : BufNo} {x : List Sample} (hsrc : buf s a = .samples x) (hda : d ≠ a)
    (hsps : s.sps ≠ 0) (hlen : 10 * s.sps.toNat ≤ x.length) :
    exec (.trec d a) s = .next { s with
      buffers := s.buffers.set d (.samples (downsample num s.sps.toNat (timingOffset num s.sps.toNat x) x)),
      offset := BitVec.ofNat 32 (timingOffset num s.sps.toNat x),
      seq := s.seq + 1, seqState := .idle, response := some (.command .ok) } := by
  have hpass : firstFailure (trecChecks d a s) = none :=
    (firstFailure_of_samples_of_ne_of_sps hsrc hda hsps).trans
      (firstFailure_of_passes (mt (checkShort_fails_of_samples hsrc).1 hlen.not_gt) _)
  rw [exec_complete_of_checks (i := .trec d a) hpass, ← samplesIn_of_samples hsrc]
  rfl

/-- Settles O28: the first offset of largest metric, and the samples taken from it on. -/
theorem trecSamplesAtTheLargestMetric : Obligations.TrecSamplesAtTheLargestMetric := by
  intro d a s x hsrc hda hsps hlen
  have hpos : 0 < s.sps.toNat := spsOf_pos hsps
  have hlargest := timingOffset_isFirstLargest num_comparesNumbers hpos x
  have hoff := timingOffset_lt num hpos x
  refine ⟨timingOffset num s.sps.toNat x, downsample num s.sps.toNat (timingOffset num s.sps.toNat x) x,
    exec_trec hsrc hda hsps hlen, hoff, ⟨hlargest.not_lt, hlargest.lower_lt⟩, ?_⟩
  generalize timingOffset num s.sps.toNat x = off at hoff ⊢
  have htaken (q : Nat) := lt_downsampleCount_iff (len := x.length) (off := off) (q := q) hpos
  have hsome : 0 < downsampleCount x.length off s.sps.toNat := (htaken 0).2 (by omega)
  have hlast := (htaken _).1 (Nat.sub_one_lt hsome.ne')
  have hend := mt (htaken _).2 (lt_irrefl (downsampleCount x.length off s.sps.toNat))
  rw [downsample_length]
  exact ⟨by omega, by omega, fun q hq => downsample_getElem? num _ off x hq ((htaken q).1 hq)⟩

end Sys2Proof.Machine
end

section
/-! PROOF. DEC, the line-coded bit slicer (47_bit_decision.md): its three checks in order (R205), the bits it stores
(R206 to R209), and the round trips with ENC (R211). -/

namespace Sys2Proof.Machine

/-! ### The checks of DEC -/

section Checks

variable {s : State} {d a : BufNo} {code : LineCode} {x : List Sample}

/-- With a known code, DEC looks at the kind and the destination (47_bit_decision.md R205). -/
theorem firstFailure_decChecks_of_code (hcode : code = .nrz ∨ code = .manchester) :
    firstFailure (decChecks d a code s) = firstFailure [checkSamples s a, checkAlias d a] :=
  firstFailure_of_passes (checkCode_passes hcode) _

/-- With a waveform to read too, DEC looks at the destination alone (47_bit_decision.md R205). -/
theorem firstFailure_decChecks_of_samples (hcode : code = .nrz ∨ code = .manchester) (hsrc : buf s a = .samples x) :
    firstFailure (decChecks d a code s) = firstFailure [checkAlias d a] :=
  (firstFailure_decChecks_of_code hcode).trans (firstFailure_of_passes (checkSamples_passes hsrc) _)

/-- DEC of a waveform it takes completes with the decided bits in the destination and the ambiguous pairs counted, and
changes nothing else (47_bit_decision.md R205 to R207; 60_exceptions.md R244). -/
theorem exec_dec (hcode : code = .nrz ∨ code = .manchester) (hsrc : buf s a = .samples x) (hda : d ≠ a) :
    exec (.dec d a code) s = .next { s with
      buffers := s.buffers.set d (.bits (decideBits num code x)),
      ambigCnt := BitVec.ofNat 32 (ambiguousCount num code x), ambig := ambigFlag (ambiguousCount num code x),
      seq := s.seq + 1, seqState := .idle, response := some (.command .ok) } := by
  have hpass : firstFailure (decChecks d a code s) = none :=
    (firstFailure_decChecks_of_code hcode).trans (firstFailure_of_samples_of_ne hsrc hda)
  rw [exec_complete_of_checks (i := .dec d a code) hpass, ← samplesIn_of_samples hsrc]
  rfl

end Checks

/-- Settles O16: each check is the first to fail once those before it pass. -/
theorem decFaultsInOrder : Obligations.DecFaultsInOrder := by
  intro d a code s
  refine ⟨fun hunknown => ?_, fun hcode => ⟨fun hkind => ?_, fun xs hsrc hda => ?_⟩⟩
  · exact faults_of_firstFailure (sub := .code) (firstFailure_of_fails ((checkCode_fails code).2 hunknown) _)
  · exact faults_of_firstFailure (sub := .kind) ((firstFailure_decChecks_of_code hcode).trans
      (firstFailure_of_fails ((checkSamples_fails s a).2 hkind) _))
  · exact faults_of_firstFailure (sub := .aliasing) ((firstFailure_decChecks_of_samples hcode hsrc).trans
      (firstFailure_of_fails ((checkAlias_fails d a).2 hda) _))

/-! ### The decisions -/

section Decisions

variable {R : Type} (N : NumSystem R)

/-- A pair that decides 0 (47_bit_decision.md R207). -/
def highThenLow (z0 z1 : Cplx R) : Bool := N.lt N.zero z0.re && N.lt z1.re N.zero

/-- A pair that decides 1 (47_bit_decision.md R207). -/
def lowThenHigh (z0 z1 : Cplx R) : Bool := N.lt z0.re N.zero && N.lt N.zero z1.re

/-- The bit of a pair and whether it is ambiguous, by the two shapes alone (47_bit_decision.md R207). -/
theorem manchesterDecide_eq (z0 z1 : Cplx R) : manchesterDecide N z0 z1 =
    (!highThenLow N z0 z1 && lowThenHigh N z0 z1, !highThenLow N z0 z1 && !lowThenHigh N z0 z1) := by
  change (if highThenLow N z0 z1 then _ else if lowThenHigh N z0 z1 then _ else _) = _
  cases highThenLow N z0 z1 with
  | true => rfl
  | false => cases lowThenHigh N z0 z1 <;> rfl

theorem decideBits_manchester_eq_map (x : List (Cplx R)) : decideBits N .manchester x =
    (List.range (x.length / 2)).map (fun p =>
      !highThenLow N (x.getD (2 * p) (cplxZero N)) (x.getD (2 * p + 1) (cplxZero N)) &&
        lowThenHigh N (x.getD (2 * p) (cplxZero N)) (x.getD (2 * p + 1) (cplxZero N))) := by
  simp only [decideBits, manchesterPairs_eq_map, List.map_map, Function.comp_def, manchesterDecide_eq]

theorem ambiguousCount_manchester_eq (x : List (Cplx R)) : ambiguousCount N .manchester x =
    ((List.range (x.length / 2)).filter (fun p =>
      !highThenLow N (x.getD (2 * p) (cplxZero N)) (x.getD (2 * p + 1) (cplxZero N)) &&
        !lowThenHigh N (x.getD (2 * p) (cplxZero N)) (x.getD (2 * p + 1) (cplxZero N)))).length := by
  simp only [ambiguousCount, manchesterPairs_eq_map, List.filter_map, List.length_map, Function.comp_def,
    manchesterDecide_eq]

end Decisions

theorem ambigFlag_eq (amb : Nat) : ambigFlag amb = decide (amb ≠ 0) :=
  Bool.eq_iff_iff.2 (by simp [ambigFlag])

/-- Settles O29: under NRZ each sample is decided by itself and no pair is ambiguous. -/
theorem decNrzSlicesAtZero : Obligations.DecNrzSlicesAtZero :=
  fun _ _ _ _ hsrc hda => exec_dec (.inl rfl) hsrc hda

/-- Settles O30: the stored bits and the count are those of the pairs, index by index. -/
theorem decManchesterDecidesPairs : Obligations.DecManchesterDecidesPairs := by
  intro d a s x hsrc hda re isZero isOne amb
  have hbits : decideBits num .manchester x =
      (List.range (x.length / 2)).map (fun p => !isZero p && isOne p) := decideBits_manchester_eq_map num x
  have hamb : ambiguousCount num .manchester x = amb := ambiguousCount_manchester_eq num x
  rw [exec_dec (.inr rfl) hsrc hda, hbits, hamb, ambigFlag_eq]

/-! ### The round trips -/

section RoundTrips

variable {R : Type} {N : NumSystem R} {finite : R → Prop} (hN : NumProperties N finite)

include hN

/-- The order of 00_scope.md R11 N3 has no cycle through 0. -/
theorem zero_not_lt_minusOne : N.lt N.zero (N.neg N.one) = false :=
  Bool.eq_false_iff.2 fun h => Bool.eq_false_iff.1 hN.zero_not_lt_zero
    (hN.lt_trans _ _ _ hN.finite_zero hN.finite_minusOne hN.finite_zero h hN.minusOne_lt_zero)

theorem one_not_lt_zero : N.lt N.one N.zero = false :=
  Bool.eq_false_iff.2 fun h => Bool.eq_false_iff.1 hN.zero_not_lt_zero
    (hN.lt_trans _ _ _ hN.finite_zero hN.finite_one hN.finite_zero hN.zero_lt_one h)

/-- An NRZ symbol decides its bit (47_bit_decision.md R206, R211). -/
theorem nrzDecide_nrzSymbol (b : Bool) : nrzDecide N (nrzSymbol N b) = b := by
  rw [nrzSymbol_eq N hN]
  cases b with
  | false => exact zero_not_lt_minusOne hN
  | true => exact hN.zero_lt_one

/-- The two Manchester symbols of a bit decide it, and are not ambiguous (47_bit_decision.md R207, R211). -/
theorem manchesterDecide_symbols (b : Bool) :
    manchesterDecide N (if b then minusSymbol N else plusSymbol N) (if b then plusSymbol N else minusSymbol N) =
      (b, false) := by
  rw [manchesterDecide_eq]
  cases b <;>
    simp [highThenLow, lowThenHigh, plusSymbol, minusSymbol, cplxOfReal, hN.zero_lt_one, hN.minusOne_lt_zero,
      zero_not_lt_minusOne hN]

/-- Two equal NRZ symbols do not change sign, so they decide no bit (47_bit_decision.md R207, R211). -/
theorem manchesterDecide_nrzSymbol_self (b : Bool) :
    manchesterDecide N (nrzSymbol N b) (nrzSymbol N b) = (false, true) := by
  rw [nrzSymbol_eq N hN, manchesterDecide_eq]
  cases b <;>
    simp [highThenLow, lowThenHigh, plusSymbol, minusSymbol, cplxOfReal, zero_not_lt_minusOne hN, one_not_lt_zero hN]

/-- The pairs of a Manchester encoding are the bits, none of them ambiguous (47_bit_decision.md R211). -/
theorem manchesterPairs_encodeBits (bits : List Bool) :
    manchesterPairs N (encodeBits N .manchester bits) = bits.map (fun b => (b, false)) := by
  induction bits with
  | nil => rfl
  | cons b rest ih =>
    rw [encodeBits_manchester_cons, manchesterPairs, manchesterDecide_symbols hN, ih, List.map_cons]

/-- Decoding under the code of the encoding gives the bits back (47_bit_decision.md R211). -/
theorem decideBits_encodeBits {code : LineCode} (hcode : code = .nrz ∨ code = .manchester) (bits : List Bool) :
    decideBits N code (encodeBits N code bits) = bits := by
  rcases hcode with rfl | rfl
  · rw [decideBits, encodeBits, List.map_map]
    exact List.map_id'' (nrzDecide_nrzSymbol hN) bits
  · rw [decideBits, manchesterPairs_encodeBits hN, List.map_map]
    exact List.map_id bits

/-- Decoding under the code of the encoding meets no ambiguous pair (47_bit_decision.md R211). -/
theorem ambiguousCount_encodeBits {code : LineCode} (hcode : code = .nrz ∨ code = .manchester) (bits : List Bool) :
    ambiguousCount N code (encodeBits N code bits) = 0 := by
  rcases hcode with rfl | rfl
  · rfl
  · rw [ambiguousCount, manchesterPairs_encodeBits hN]
    simp

end RoundTrips

/-- Settles O44: the round trips of both codes, then NRZ symbols read in pairs. -/
theorem lineCodesRoundTripInEveryNum : Obligations.LineCodesRoundTripInEveryNum := by
  intro R N finite hN bits
  refine ⟨decideBits_encodeBits hN (.inl rfl) bits, decideBits_encodeBits hN (.inr rfl) bits,
    ambiguousCount_encodeBits hN (.inr rfl) bits, ?_, fun b => ?_⟩
  · rw [decideBits_length_manchester, encodeBits_length_nrz]
  · have hpairs : manchesterPairs N (encodeBits N .nrz [b, b]) = [(false, true)] :=
      congrArg (· :: []) (manchesterDecide_nrzSymbol_self hN b)
    rw [ambiguousCount, hpairs]
    rfl

/-- Settles O45: DEC reads the symbols ENC stored, and decodes them under the code that encoded them. -/
theorem encThenDecRestoresTheBits : Obligations.EncThenDecRestoresTheBits := by
  intro a d e code s xs hbits hda hed hcode hfits hfitsTwice
  have hlong : encodedLength code xs.length ≤ Config.bufcap := by
    rcases hcode with rfl | rfl
    · exact hfits
    · exact hfitsTwice rfl
  obtain ⟨t, henc, hsrc⟩ : ∃ t, exec (.enc d a code) s = .next t ∧ buf t d = .samples (encodeBits num code xs) :=
    ⟨_, exec_enc hcode hbits hda hlong, buf_setBuf_same s d _⟩
  have hdec := exec_dec hcode hsrc hed
  rw [decideBits_encodeBits num_properties hcode, ambiguousCount_encodeBits num_properties hcode] at hdec
  exact ⟨t, _, henc, hdec, rfl, buf_setBuf_same t e _, rfl, rfl⟩

end Sys2Proof.Machine
end

section
/-! PROOF. GENB, the bit source, and BER, the error count (48_source_and_ber.md): their checks (R220, R223) and what
they write (R221, R224). -/

namespace Sys2Proof.Machine

/-! ### The checks -/

/-- Settles O14: CAPACITY is the one check, and it fails. -/
theorem genbFaultsPastCapacity : Obligations.GenbFaultsPastCapacity := fun _ _ hlong =>
  faults_of_firstFailure (sub := .capacity) (firstFailure_of_fails ((checkBufcap_fails _).2 hlong) _)

/-- Settles O19: the first check fails, or it passes and the second does, with one sub-cause. -/
theorem berFaultsOnKind : Obligations.BerFaultsOnKind := by
  intro a b s
  have hfirst (hkind : ∀ xs, buf s a ≠ .bits xs) : faults (.ber a b) s 1 2 :=
    faults_of_firstFailure (sub := .kind) (firstFailure_of_fails ((checkBits_fails s a).2 hkind) _)
  refine ⟨hfirst, fun hkind => ?_⟩
  by_cases ha : (checkBits s a).1 = true
  · exact hfirst ((checkBits_fails s a).1 ha)
  · exact faults_of_firstFailure (sub := .kind) ((firstFailure_of_passes ha _).trans
      (firstFailure_of_fails ((checkBits_fails s b).2 hkind) _))

/-! ### The results -/

/-- Settles O21: the bits and the state after them are those of `NBITS` draws. -/
theorem genbStoresTheNextDraws : Obligations.GenbStoresTheNextDraws := by
  intro d s hfits
  simp only [exec_genb d hfits, genbResult, params_rng, drawBits_eq]
  rfl

/-- BER of two bit sequences completes with its results written, and changes nothing else (48_source_and_ber.md R223,
R224; 60_exceptions.md R244). -/
theorem exec_ber {s : State} {a b : BufNo} {xs ys : List Bool} (ha : buf s a = .bits xs) (hb : buf s b = .bits ys) :
    exec (.ber a b) s = .next { s with
      bitErrs := BitVec.ofNat 32 (bitErrorCount xs ys), cmpLen := BitVec.ofNat 32 (compareLength xs ys),
      berVal := errorRate num (bitErrorCount xs ys) (compareLength xs ys), degen := degenFlag (compareLength xs ys),
      seq := s.seq + 1, seqState := .idle, response := some (.command .ok) } := by
  have hpass : firstFailure (berChecks a b s) = none :=
    (firstFailure_of_passes (checkBits_passes ha) _).trans (firstFailure_of_passes (checkBits_passes hb) _)
  rw [exec_complete_of_checks (i := .ber a b) hpass, ← bitsIn_of_bits ha, ← bitsIn_of_bits hb]
  rfl

/-- Settles O31: the count of differing pairs is the count of differing positions. -/
theorem berCountsDifferences : Obligations.BerCountsDifferences := by
  intro a b s xs ys ha hb m errs
  have herrs : bitErrorCount xs ys = errs := bitErrorCount_eq xs ys
  rw [exec_ber ha hb, herrs]
  rfl

end Sys2Proof.Machine
end

section
/-! PROOF. Faults (60_exceptions.md): what taking one writes (R246, R247), that FAULTED is sticky (R250), and the two
ways out of it (R251). -/

namespace Sys2Proof.Machine

/-! ### Taking a fault -/

/-- Settles O11: a command that completes is IDLE, so one that ends in FAULTED took the fault of a check. -/
theorem faultsArePrecise : Obligations.FaultsArePrecise := by
  intro i s t h hf
  rcases exec_cases s i with ⟨sub, -, e⟩ | ⟨-, e⟩ <;> cases e.symm.trans h
  · exact ⟨sub, rfl⟩
  · cases hf

/-! ### Staying in FAULTED -/

section Faulted

variable {s : State} {rest : List Transaction}

/-- A command in FAULTED is turned down undecoded (60_exceptions.md R244, R250). -/
theorem step_cmd_of_faulted {w : Word} (hf : s.seqState = .faulted) (hp : s.pending = .cmd w :: rest) :
    step s = .next { s with pending := rest, response := some (.command .rejected) } := by
  rw [step_of_not_busy (not_busy_of_faulted hf) hp]
  exact if_pos hf

/-- A buffer load in FAULTED is refused whatever its data (60_exceptions.md R250). -/
theorem step_bufld_of_faulted {n : BufNo} {data : LoadData} (hf : s.seqState = .faulted)
    (hp : s.pending = .bufld n data :: rest) :
    step s = .next { s with pending := rest, response := some .refused } := by
  rw [step_of_not_busy (not_busy_of_faulted hf) hp]
  exact congrArg _ (if_pos hf)

end Faulted

/-- Settles O9: commands and loads are turned down here; register writes are O47, register reads O46, buffer and kernel
reads O49. -/
theorem faultedIsSticky : Obligations.FaultedIsSticky := by
  intro s rest hf
  have hnb := not_busy_of_faulted hf
  obtain ⟨hbufrd, hkerrd⟩ := bufferAndKernelReadsDoNotConsume s rest hnb
  refine ⟨fun w hp => step_cmd_of_faulted hf hp, fun n v hn hp => ?_, fun n data hp => step_bufld_of_faulted hf hp,
    fun n v hp hrow => ?_, hbufrd, hkerrd, rfl⟩
  · obtain ⟨-, hfaulted⟩ := registerWriteChecksTypeAndAccess s n v rest hp
    obtain ⟨-, hrefused⟩ := hfaulted hf
    exact hrefused hn
  · obtain ⟨hread, -⟩ := registerReadAnswersTheMap s n rest hp hnb
    exact hread v hrow

/-! ### Leaving FAULTED -/

/-- Settles O10: `ERR` is the one register a write reaches in FAULTED, and no write reaches it in IDLE. -/
theorem errclrReturnsFromAFault : Obligations.ErrclrReturnsFromAFault := by
  intro s rest v
  refine ⟨fun hf hp => ?_, fun _ hp => ?_, fun hidle hp => ?_⟩
  · obtain ⟨-, hfaulted⟩ := registerWriteChecksTypeAndAccess s 0x01 v rest hp
    obtain ⟨herrclr, -⟩ := hfaulted hf
    exact herrclr rfl
  · exact ⟨_, resetTransactionGivesTheResetState s rest hp, rfl⟩
  · exact step_regwr_refused hidle hp (writeReg_of_not_rw _ v (by decide))

/-- Settles O59: of everything a step can do in FAULTED, an answer alone stays there, and only ERRCLR and RESET do
more. -/
theorem faultedIsLeftOnlyByErrclrOrReset : Obligations.FaultedIsLeftOnlyByErrclrOrReset := by
  intro s t hf h hleft
  have hnidle : s.seqState ≠ .idle := by simp [hf]
  rcases step_cases h with ⟨-, rfl⟩ | ⟨tr, rest, hp, u, rfl, hcase⟩
  · exact absurd hf hleft
  rcases hcase with ⟨r, rfl⟩ | ⟨-, ⟨v, rfl⟩, -⟩ | ⟨hidle, -⟩ | ⟨hidle, -⟩ | ⟨hidle, -⟩ | ⟨hidle, -⟩ | ⟨rfl, -⟩
  · exact absurd hf hleft
  · exact ⟨rest, .inr ⟨v, hp⟩⟩
  · exact absurd hidle hnidle
  · exact absurd hidle hnidle
  · exact absurd hidle hnidle
  · exact absurd hidle hnidle
  · exact ⟨rest, .inl hp⟩

end Sys2Proof.Machine
end

section
/-! PROOF. The commands on the reset state (70_reset_and_hazards.md R282): what its zeros and empty buffers fail. -/

namespace Sys2Proof.Machine

/-- No buffer of the reset state is a waveform (10_state.md R48). -/
theorem buf_reset_ne_samples (n : BufNo) (xs : List Sample) : buf State.reset n ≠ .samples xs := by
  rw [buf_reset]
  exact nofun

/-- No buffer of the reset state is a bit sequence (10_state.md R48). -/
theorem buf_reset_ne_bits (n : BufNo) (xs : List Bool) : buf State.reset n ≠ .bits xs := by
  rw [buf_reset]
  exact nofun

/-- Settles O53: `SPS` is 0, every source is EMPTY, and `NBITS` is 0. -/
theorem onTheResetStateAllCommandsButGenbFault : Obligations.OnTheResetStateAllCommandsButGenbFault := by
  intro a b d k code hcode
  obtain ⟨hkgen, -⟩ := kgenFaultsInOrder k State.reset
  obtain ⟨-, henc⟩ := encFaultsInOrder d a code State.reset
  obtain ⟨hencKind, -⟩ := henc hcode
  obtain ⟨hshapeMf, -⟩ := shapeAndMfFaultInOrder d a k State.reset
  obtain ⟨hshape, hmf⟩ := hshapeMf (buf_reset_ne_samples a)
  obtain ⟨hmixAwgnTrec, -⟩ := mixAwgnAndTrecFaultInOrder d a State.reset
  obtain ⟨hmix, hawgn, htrec⟩ := hmixAwgnTrec (buf_reset_ne_samples a)
  obtain ⟨-, hdec⟩ := decFaultsInOrder d a code State.reset
  obtain ⟨hdecKind, -⟩ := hdec hcode
  obtain ⟨hber, -⟩ := berFaultsOnKind a b State.reset
  exact ⟨hkgen rfl, ⟨_, exec_genb d (Nat.zero_le _), rfl, buf_genbResult_same params State.reset d⟩,
    hencKind (buf_reset_ne_bits a), hshape, hmix, hawgn, hmf, htrec, hdecKind (buf_reset_ne_samples a),
    hber (buf_reset_ne_bits a)⟩

end Sys2Proof.Machine
end
